-- ==== Sys2Proof/Word.lean ====
section
/-! DEFINITION. The two bit-vector types of the block: the 32-bit word of every register, slot and command
(10_state.md R42, R55, R60; 30_encoding.md R110), and the byte lane of a host bus that addresses bytes
(20_memory.md R82). -/

namespace Sys2Proof

/-- A register, slot or command word. A rule that reads it as a binary32 value says so (00_scope.md R10). -/
abbrev Word := BitVec 32

/-- One byte lane of a word. -/
abbrev Byte := BitVec 8

end Sys2Proof
end

