-- ==== Sys2Proof/Machine/Binary32.lean ====
section
/-! DEFINITION. Binary32 arithmetic on patterns (00_scope.md R10 to R16, R18, R21): every finite value is a whole number
of units of 2^-149, so each operation is computed exactly on integers and rounded once, to nearest, ties to even. -/

namespace Sys2Proof.Machine

/-- The canonical quiet NaN (00_scope.md R12). -/
def canonicalNaN : Word := 0x7FC00000

/-- +0.0. -/
def fzero : Word := 0x00000000

/-- 1.0. -/
def fone : Word := 0x3F800000

/-- 0.5. -/
def fhalf : Word := 0x3F000000

/-- 2.0. -/
def ftwo : Word := 0x40000000

/-- MAX_HARDNESS (00_scope.md R21). -/
def maxHardness : Word := 0x3F6F5C29

/-- STABILITY_RANGE (00_scope.md R21). -/
def stabilityRange : Word := 0x41800000

/-- ONE_MINUS_MAX (00_scope.md R21). -/
def oneMinusMax : Word := 0x3D851EB8

/-- POW_EPS (00_scope.md R21). -/
def powEps : Word := 0x0DA24260

/-- DC_COEF (00_scope.md R21). -/
def dcCoef : Word := 0x3F7F5C29

/-- The magnitude pattern of +∞. -/
def infMag : Nat := 0x7F800000

/-- The sign: bit 31 (20_memory.md R82). -/
def signOf (w : Word) : Bool := w.msb

/-- The pattern without its sign, bits 30:0, as an integer. Magnitudes order as these integers do. -/
def magOf (w : Word) : Nat := w.toNat % 0x80000000

/-- NaN: the exponent bits are all ones and the fraction is nonzero (00_scope.md R16). -/
def isNaN (w : Word) : Bool := decide (infMag < magOf w)

/-- ±∞. -/
def isInf (w : Word) : Bool := decide (magOf w = infMag)

/-- ±0. -/
def isZero (w : Word) : Bool := decide (magOf w = 0)

/-- A finite value: neither NaN nor ±∞. -/
def isFinite (w : Word) : Bool := decide (magOf w < infMag)

/-- The value of a magnitude pattern in units of 2^-149: exponent bits 30:23, fraction 22:0, gradual underflow
(00_scope.md R11, 20_memory.md R82). Applied to the pattern of +∞ it gives 2^128, the value after the largest finite. -/
def unitsOfMag (m : Nat) : Nat :=
  if m < 0x800000 then m else (0x800000 + m % 0x800000) * 2 ^ (m / 0x800000 - 1)

/-- The magnitude of a value in units of 2^-149. -/
def unitsOf (w : Word) : Nat := unitsOfMag (magOf w)

/-- A finite value in units of 2^-149. -/
def signedUnits (w : Word) : Int := if signOf w then -(unitsOf w : Int) else (unitsOf w : Int)

/-- The pattern of a sign and a magnitude pattern. -/
def withSign (neg : Bool) (m : Nat) : Word := BitVec.ofNat 32 (if neg then 0x80000000 + m else m)

/-- The exponent step of the rational n / d: values from 2^24 units on are spaced by 2^s units. -/
def spacing (n d : Nat) : Nat :=
  let t := n * 2 ^ 149 / d
  if t < 0x1000000 then 0 else Nat.log2 t - 23

/-- The quotient a / b rounded to the nearest integer, ties to even. -/
def divNearestEven (a b : Nat) : Nat :=
  let q := a / b
  let r := a % b
  if b < 2 * r ∨ (2 * r = b ∧ q % 2 = 1) then q + 1 else q

/-- The magnitude pattern nearest to the rational n / d, ties to even: subnormals below the normal range, the pattern
of +∞ beyond the largest finite value (00_scope.md R11). A carry out of the fraction falls into the exponent. -/
def roundMag (n d : Nat) : Nat :=
  let s := spacing n d
  min (s * 0x800000 + divNearestEven (n * 2 ^ 149) (d * 2 ^ s)) infMag

/-- The nonzero rational z / d rounded to binary32 (00_scope.md R11). -/
def roundSigned (z : Int) (d : Nat) : Word := withSign (decide (z < 0)) (roundMag z.natAbs d)

/-- The negation of a pattern: its sign bit flipped. -/
def fneg (w : Word) : Word := w ^^^ 0x80000000

/-- Binary32 addition (00_scope.md R11). ∞ − ∞ is invalid. PRESUMED (log entry 11): an exact zero sum is −0 only when
both operands are −0, as in IEEE 754 under round to nearest. -/
def fadd (a b : Word) : Word :=
  if isNaN a || isNaN b then canonicalNaN
  else if isInf a then (if isInf b && (signOf a != signOf b) then canonicalNaN else a)
  else if isInf b then b
  else
    let z := signedUnits a + signedUnits b
    if z = 0 then withSign (signOf a && signOf b) 0 else roundSigned z (2 ^ 149)

/-- Binary32 subtraction: the addition of the negation (00_scope.md R11). -/
def fsub (a b : Word) : Word := fadd a (fneg b)

/-- Binary32 multiplication; 0 · ∞ is invalid (00_scope.md R11). -/
def fmul (a b : Word) : Word :=
  let neg := signOf a != signOf b
  if isNaN a || isNaN b then canonicalNaN
  else if (isInf a && isZero b) || (isZero a && isInf b) then canonicalNaN
  else if isInf a || isInf b then withSign neg infMag
  else withSign neg (roundMag (unitsOf a * unitsOf b) (2 ^ 298))

/-- Binary32 division; 0/0 and ∞/∞ are invalid, a nonzero finite value over ±0 is ±∞ (00_scope.md R11). -/
def fdiv (a b : Word) : Word :=
  let neg := signOf a != signOf b
  if isNaN a || isNaN b then canonicalNaN
  else if (isInf a && isInf b) || (isZero a && isZero b) then canonicalNaN
  else if isInf a || isZero b then withSign neg infMag
  else if isInf b then withSign neg 0
  else withSign neg (roundMag (unitsOf a) (unitsOf b))

/-- The magnitude patterns with their signs, as integers: the order of the non-NaN values, with −0 and +0 equal. -/
def orderKey (w : Word) : Int := if signOf w then -(magOf w : Int) else (magOf w : Int)

/-- The IEEE ordered comparison a < b: false with a NaN, and −0 = +0 (00_scope.md R16). -/
def flt (a b : Word) : Bool := !isNaN a && !isNaN b && decide (orderKey a < orderKey b)

/-- The IEEE ordered comparison a > b (00_scope.md R16). -/
def fgt (a b : Word) : Bool := flt b a

/-- The IEEE ordered comparison a == b (00_scope.md R16). -/
def feq (a b : Word) : Bool := !isNaN a && !isNaN b && decide (orderKey a = orderKey b)

/-- fclamp: v is returned bit for bit inside the range (00_scope.md R14). -/
def fclamp (v lo hi : Word) : Word :=
  if isNaN v then canonicalNaN else if flt v lo then lo else if fgt v hi then hi else v

/-- fminc, the one-sided clamp (00_scope.md R15). -/
def fminc (v c : Word) : Word :=
  if isNaN v then canonicalNaN else if fgt v c then c else v

/-- fabs: the sign bit cleared (00_scope.md R16). -/
def fabs (w : Word) : Word := w &&& 0x7FFFFFFF

/-- u32_to_f32 (00_scope.md R18). -/
def u32ToF32 (n : Nat) : Word := withSign false (roundMag n 1)

/-- i32_to_f32 (00_scope.md R18). -/
def i32ToF32 (z : Int) : Word := roundSigned z 1

/-- The magnitude truncated toward zero to an integer; that of ±∞ is at least 2^128, so it saturates below. -/
def truncMag (w : Word) : Nat := unitsOf w / 2 ^ 149

/-- f32_to_i32: truncate toward zero, saturate to [−2^31, 2^31 − 1], NaN gives 0 (00_scope.md R18). -/
def f32ToI32 (w : Word) : Int :=
  if isNaN w then 0
  else if signOf w then -(min (truncMag w) 0x80000000 : Nat)
  else (min (truncMag w) 0x7FFFFFFF : Nat)

/-- f32_to_u32: truncate toward zero, saturate to [0, 2^32 − 1], NaN and negative values give 0 (00_scope.md R18). -/
def f32ToU32 (w : Word) : Word :=
  if isNaN w then 0
  else if signOf w then 0
  else BitVec.ofNat 32 (min (truncMag w) 0xFFFFFFFF)

/-- f32(decimal): the pattern nearest to the decimal ±n / d, ties to even (30_encoding.md R117). -/
def f32OfDecimal (neg : Bool) (n d : Nat) : Word := withSign neg (roundMag n d)

end Sys2Proof.Machine
end

