-- ==== Sys2Proof/Config.lean ====
section
/-! DEFINITION. What an implementation fixes: the OPEN parameters of 00_scope.md R20 to R25 as plain data, the
configuration TC1 of 95_test_vectors.md, and the free values (constants with no body). A `Config` is an argument of
the step relation (10_state.md R65): it is the field `cfg` of the state, which no step changes. -/

namespace Sys2Proof

/-- Ring-buffer backing, fixed when the block is built (00_scope.md R22). -/
inductive Backing where
  | fixed
  | small
deriving DecidableEq, Repr

/-- Which body the faster or the fastest tier has: the default formulas of 42_fastpow.md R174 to R177, or the
parameter that replaces them (00_scope.md R25). -/
inductive PowBody where
  | default
  | replaced
deriving DecidableEq, Repr

/-- The parameters of one instance (00_scope.md R20, R22 to R25). `L2` and `L4` are the lengths of the tables. -/
structure Config where
  h2        : List Word
  h4        : List Word
  backing   : Backing
  osLatency : Word
  osTail    : Word
  base      : Nat
  faster    : PowBody
  fastest   : PowBody
deriving DecidableEq, Repr

namespace Config

/-- Length of table H2 (00_scope.md R20). -/
def l2 (c : Config) : Nat := c.h2.length

/-- Length of table H4 (00_scope.md R20). -/
def l4 (c : Config) : Nat := c.h4.length

/-- Test configuration TC1 of 95_test_vectors.md, with the parameters no vector depends on set to 0.
DESIGN CHOICE (log entry 3): `State.reset` is the reset state of this instance. -/
def tc1 : Config where
  h2        := [0x3E000000, 0x3EC00000, 0x3EC00000, 0x3E000000]
  h4        := [0x3E800000, 0x3F000000, 0x3E800000, 0x00000000]
  backing   := .fixed
  osLatency := 0
  osTail    := 0
  base      := 0
  faster    := .default
  fastest   := .default

/-- TC1S of 95_test_vectors.md: TC1 with the SMALL backing. -/
def tc1s : Config := { tc1 with backing := .small }

/-- Parameter POW_FASTER (00_scope.md R25): the body that replaces tier 2, applied to x + ε and y. Free. -/
opaque powFaster : Word → Word → Word

/-- Parameter POW_FASTEST (00_scope.md R25): the body that replaces tier 3, applied to x + ε and y. Free. -/
opaque powFastest : Word → Word → Word

/-- What `cr_log2` gives on an argument below 0, outside the domain of 00_scope.md R17. Free (log entry 8). -/
opaque log2OutsideDomain : Word → Word

/-- What `pow_0` and `pow_1` give on a base below 0, outside the domain of 42_fastpow.md R178. Free (log entry 8). -/
opaque powOutsideDomain : Word → Word → Word

end Config

end Sys2Proof
end

