-- ==== Sys2Proof/Syntax.lean ====
section
/-! DEFINITION. The commands of the block: one constructor per row of spec/opcode_table.json (30_encoding.md R113),
and the buffer ids their BUF field names (43_ringbuffer.md R210). -/

namespace Sys2Proof

/-- The four sample buffers, ids 0 to 3 in this order (10_state.md R60, 43_ringbuffer.md R210). -/
inductive BufId where
  | upX2
  | upX4
  | downX4
  | downX2
deriving DecidableEq, Repr

/-- A command. Data operands come from A0 to A7, never from the word (30_encoding.md R111); `delay` is the unsigned
DELAY field as an integer. -/
inductive Instr where
  | nop
  | rst
  | init
  | clrerr
  | push (b : BufId)
  | tap (b : BufId) (delay : Nat)
  | brst (b : BufId)
  | up2x
  | up4x
  | dn4x
  | dn2x
  | os4
  | clip
  | clip4
  | powE
  | powF
  | powFR
  | powFT
  | pow4E
  | pow4F
  | pow4FR
  | pow4FT
  | dcb
deriving DecidableEq, Repr

end Sys2Proof
end

