-- ==== Sys2Proof/Machine/State.lean ====
section
/-! DEFINITION. The state of the block as plain data (10_state.md), the host's inputs to it (20_memory.md), the
reasons a step can stop, and the state after hardware reset (10_state.md R70). -/

namespace Sys2Proof.Machine

/-- The slots of one buffer: (index, word) pairs, indices strictly rising, no pair holding the word an unlisted slot
reads as. A slot space has 32-bit slots and no bytes (20_memory.md R80; log entry 10). -/
abbrev Memory := List (Nat × Word)

/-- What a slot no pair lists reads as: the reset contents, 0x00000000 (10_state.md R70, 20_memory.md R92). -/
def Memory.unlisted : Word := 0x00000000

/-- The canonical form: indices strictly rising, and no pair equal to what an unlisted slot reads as. -/
def Memory.wf : Memory → Bool
  | [] => true
  | (k, v) :: m => decide (v ≠ Memory.unlisted) && m.all (fun p => decide (k < p.1)) && Memory.wf m

/-- One circular sample buffer: its slots and its write head (10_state.md R60). -/
structure Buffer where
  slots : Memory
  head  : Nat
deriving DecidableEq, Repr

/-- A buffer after BufReset: every slot 0, head 0 (20_memory.md R92). -/
def Buffer.empty : Buffer := ⟨[], 0⟩

/-- Access sizes a host bus can issue: 1, 2, 4 and 8 bytes (20_memory.md R81, R84). -/
inductive Size where
  | byte
  | half
  | word
  | double
deriving DecidableEq, Repr

/-- What reaches the block from outside: a host read, a host write (of the low word, which is all an admitted write
carries), or the reset input asserted between two accesses (20_memory.md R81, R87; 70_reset_and_hazards.md R310). -/
inductive Input where
  | read (size : Size) (addr : Nat)
  | write (size : Size) (addr : Nat) (data : Word)
  | reset
deriving DecidableEq, Repr

/-- Why a step stops with a fault. It has no constructor: the spec gives the block no condition that stops it, every
error is latched and the next command runs (60_exceptions.md R284, R285). Nothing raises it; safe. -/
inductive Fault where
deriving DecidableEq, Repr

/-- Why a step is refused. -/
inductive Refusal where
  /-- A command without a meaning, by mnemonic. Raised by `exec` alone, for no command of this model; safe. -/
  | notModelled (mnemonic : String)
  /-- An access of 1, 2 or 8 bytes, or a misaligned one, that touches the window (20_memory.md R84,
  60_exceptions.md R297). Raised by `perform`; safe: the spec's model has no step for it either. -/
  | accessNotAdmitted
  /-- The state's configuration is outside 00_scope.md R20 and has no instance (60_exceptions.md R297). Raised by
  `step`; safe. -/
  | configurationNotAdmitted
deriving DecidableEq, Repr

/-- Cause codes of the error latch (60_exceptions.md R281). -/
inductive Cause where
  | illegalCmd
  | tapRange
  | powDomain
deriving DecidableEq, Repr

/-- The four pow implementations (42_fastpow.md R170). -/
inductive Tier where
  | exact
  | fast
  | faster
  | fastest
deriving DecidableEq, Repr

/-- Every piece of state the spec gives the block, its configuration (10_state.md R65), and the model's own two
fields: `inputs`, what the host and the platform have still to do, oldest first (log entry 1), and `answer`, the word
the last access answered (log entry 6). -/
structure State where
  cfg      : Config
  ctrl     : Word
  hardness : Word
  status   : Word
  errcmd   : Word
  a        : Vector Word 8
  r        : Vector Word 4
  upX2     : Buffer
  upX4     : Buffer
  downX4   : Buffer
  downX2   : Buffer
  xz1      : Word
  yz1      : Word
  inputs   : List Input
  answer   : Option Word
deriving DecidableEq, Repr

/-- An instance of configuration `c` right after hardware reset (10_state.md R70, 70_reset_and_hazards.md R310). -/
def State.resetOf (c : Config) : State where
  cfg      := c
  ctrl     := 0x00000000
  hardness := 0x00000000
  status   := 0x00000000
  errcmd   := 0x00000000
  a        := Vector.replicate 8 0x00000000
  r        := Vector.replicate 4 0x00000000
  upX2     := .empty
  upX4     := .empty
  downX4   := .empty
  downX2   := .empty
  xz1      := 0x00000000
  yz1      := 0x00000000
  inputs   := []
  answer   := none

/-- The machine right after reset. Its OPEN parameters are those of TC1: DESIGN CHOICE (log entry 3). -/
def State.reset : State := State.resetOf Config.tc1

end Sys2Proof.Machine
end

