-- ==== Sys2Proof/Machine/Flags.lean ====
section
/-! DEFINITION. The fields of STATUS, the only status bits of the block (10_state.md R44, R49), and what the error latch
makes of them (60_exceptions.md R281, R282). No arithmetic sets a flag. -/

namespace Sys2Proof.Machine

/-- STATUS.ERR, bit 0 (10_state.md R49). -/
def statusErr (st : Word) : Bool := st.getLsbD 0

/-- STATUS.OVF, bit 1 (10_state.md R49). -/
def statusOvf (st : Word) : Bool := st.getLsbD 1

/-- STATUS.CAUSE, bits 7:4 (10_state.md R49). -/
def statusCause (st : Word) : BitVec 4 := st.extractLsb' 4 4

/-- The code of a cause (60_exceptions.md R281). -/
def Cause.code : Cause → BitVec 4
  | .illegalCmd => 1
  | .tapRange => 2
  | .powDomain => 3

/-- STATUS with ERR set and CAUSE written; the other bits kept (60_exceptions.md R282). -/
def statusFirstError (st : Word) (c : Cause) : Word :=
  (st &&& 0xFFFFFF0E) ||| (c.code.setWidth 32 <<< 4) ||| 0x00000001

/-- STATUS with OVF set; the first cause kept (60_exceptions.md R282). -/
def statusLaterError (st : Word) : Word := st ||| 0x00000002

/-- STATUS after an error is raised (60_exceptions.md R282). -/
def statusAfterError (st : Word) (c : Cause) : Word :=
  if statusErr st then statusLaterError st else statusFirstError st c

/-- ERRCMD after the command word `w` raises an error: the first error's word is kept (60_exceptions.md R282). -/
def errcmdAfterError (st errcmd w : Word) : Word := if statusErr st then errcmd else w

end Sys2Proof.Machine
end

