-- ==== Sys2Proof/Machine/Ops.lean ====
section
/-! DEFINITION. The named operations over slots, buffers, result registers and the DC state, raising an error and
clearing the latch, and the two resets (20_memory.md R90 to R92; 60_exceptions.md R282; 46_control.md R271, R273;
70_reset_and_hazards.md R310). -/

namespace Sys2Proof.Machine

/-! ### Slots -/

/-- The word in slot `i`. -/
def Memory.read : Memory → Nat → Word
  | [], _ => Memory.unlisted
  | (k, v) :: m, i => if i = k then v else Memory.read m i

/-- Slot `i` holds `w`, in canonical form: the word an unlisted slot reads as is not listed. -/
def Memory.write : Memory → Nat → Word → Memory
  | [], i, w => if w = Memory.unlisted then [] else [(i, w)]
  | (k, v) :: m, i, w =>
    if i < k then (if w = Memory.unlisted then (k, v) :: m else (i, w) :: (k, v) :: m)
    else if i = k then (if w = Memory.unlisted then m else (i, w) :: m)
    else (k, v) :: Memory.write m i w

/-! ### Buffers -/

/-- cap_b (10_state.md R60). -/
def capacity (c : Config) (b : BufId) : Nat :=
  match c.backing with
  | .small => 256
  | .fixed =>
    match b with
    | .upX2 => c.l2 / 2 + 1
    | .upX4 => c.l4 / 2 + 1
    | .downX4 => c.l4 + 1
    | .downX2 => c.l2 + 1

/-- The head after one push: modulo cap_b under FIXED, `& 255` under SMALL (20_memory.md R90). -/
def nextHead (c : Config) (b : BufId) (head : Nat) : Nat :=
  match c.backing with
  | .fixed => (head + 1) % capacity c b
  | .small => (head + 1) % 256

/-- The number of legal delays: cap_b under FIXED, 255 under SMALL (20_memory.md R91, 90_conflicts.md C1). -/
def tapLimit (c : Config) (b : BufId) : Nat :=
  match c.backing with
  | .fixed => capacity c b
  | .small => 255

/-- The slot written `d` pushes ago: modulo cap_b under FIXED, the integer head − d masked with 255 under SMALL
(20_memory.md R91). -/
def tapIndex (c : Config) (b : BufId) (head d : Nat) : Nat :=
  match c.backing with
  | .fixed => (capacity c b + head - d) % capacity c b
  | .small => (((head : Int) - d) % 256).toNat

/-- The buffer with id b (10_state.md R60). -/
def State.buf (s : State) : BufId → Buffer
  | .upX2 => s.upX2
  | .upX4 => s.upX4
  | .downX4 => s.downX4
  | .downX2 => s.downX2

/-- The state with buffer b replaced. -/
def State.setBuf (s : State) (b : BufId) (v : Buffer) : State :=
  match b with
  | .upX2 => { s with upX2 := v }
  | .upX4 => { s with upX4 := v }
  | .downX4 => { s with downX4 := v }
  | .downX2 => { s with downX2 := v }

/-- A buffer after BufPush: the head advances, then its slot takes the word, bit for bit (20_memory.md R90). -/
def pushed (c : Config) (b : BufId) (buf : Buffer) (w : Word) : Buffer :=
  { slots := Memory.write buf.slots (nextHead c b buf.head) w, head := nextHead c b buf.head }

/-- BufPush(b, w) (20_memory.md R90). -/
def bufPush (b : BufId) (w : Word) (s : State) : State := s.setBuf b (pushed s.cfg b (s.buf b) w)

/-- The word at delay d, with no range check: what BufTap returns for a legal delay (20_memory.md R91). -/
def tapWord (s : State) (b : BufId) (d : Nat) : Word :=
  Memory.read (s.buf b).slots (tapIndex s.cfg b (s.buf b).head d)

/-- BufTap(b, d): none is TAP_RANGE (20_memory.md R91). -/
def bufTap (s : State) (b : BufId) (d : Nat) : Option Word :=
  if d < tapLimit s.cfg b then some (tapWord s b d) else none

/-- BufReset(b) (20_memory.md R92). -/
def bufReset (b : BufId) (s : State) : State := s.setBuf b .empty

/-! ### Result registers -/

/-- R[i] ← w (10_state.md R43). -/
def State.setR (s : State) (i : Fin 4) (w : Word) : State := { s with r := s.r.set i w }

/-- R0 and R1 written together. -/
def State.setR01 (s : State) (w0 w1 : Word) : State := (s.setR 0 w0).setR 1 w1

/-- R0 to R3 written together. -/
def State.setR0123 (s : State) (w0 w1 w2 w3 : Word) : State := { s with r := #v[w0, w1, w2, w3] }

/-! ### Errors -/

/-- raise Error(cause) in the command of word `w`: only the latch changes, and the next command runs normally
(60_exceptions.md R282, R285). The block has no other exception entry. -/
def raiseError (cause : Cause) (w : Word) (s : State) : State :=
  { s with status := statusAfterError s.status cause, errcmd := errcmdAfterError s.status s.errcmd w }

/-- The latch cleared: the only return from an error beside hardware reset (46_control.md R273, 60_exceptions.md R285). -/
def clearError (s : State) : State := { s with status := 0x00000000, errcmd := 0x00000000 }

/-! ### DC block -/

/-- The output of one DC step from the previous input and output (45_dcblock.md R261). -/
def dcOutput (x xz1 yz1 : Word) : Word := fadd (fsub x xz1) (fmul dcCoef yz1)

/-- The state after DcStep(x): the input word and the output (45_dcblock.md R261). -/
def dcStep (x : Word) (s : State) : State := { s with xz1 := x, yz1 := dcOutput x s.xz1 s.yz1 }

/-! ### Resets -/

/-- The reset of the signal state, RST: buffers, heads and DC state (46_control.md R271, 70_reset_and_hazards.md R311). -/
def signalReset (s : State) : State :=
  { bufReset .downX2 (bufReset .downX4 (bufReset .upX4 (bufReset .upX2 s))) with xz1 := 0x00000000, yz1 := 0x00000000 }

/-- Hardware reset: every register, buffer, head and the DC state; the configuration and what the host has still to do
are kept (70_reset_and_hazards.md R310; log entry 12). -/
def hardwareReset (s : State) : State := { State.resetOf s.cfg with inputs := s.inputs }

end Sys2Proof.Machine
end

