-- ==== Sys2Proof/Machine/Elementary.lean ====
section
/-! DEFINITION. The correctly rounded cr_log2, cr_exp2 and cr_pow (00_scope.md R17), exact for every operand. A real
power is compared with a rational by enclosures of log2 at rising working precisions and, where none of them decides,
by whole powers, which always do. A magnitude pattern is the rounded result when the exact value lies between its two
rounding midpoints (log entry 7). -/

namespace Sys2Proof.Machine

/-- Lower squaring chain: r / 2^p is at most the value whose log2 is sought; each squaring gives one more bit of the
logarithm. After `n` bits, 2^result is at most the 2^n-th power of the value. -/
def log2ChainLo (p : Nat) : Nat → Nat → Nat → Nat
  | 0, k, _ => k
  | n + 1, k, r =>
    if r * r < 2 ^ (2 * p + 1) then log2ChainLo p n (2 * k) (r * r / 2 ^ p)
    else log2ChainLo p n (2 * k + 1) (r * r / 2 ^ (p + 1))

/-- Upper squaring chain: as the lower one with every quotient rounded up; the result is one more than the bits, since
what is left is below 2. -/
def log2ChainHi (p : Nat) : Nat → Nat → Nat → Nat
  | 0, k, _ => k + 1
  | n + 1, k, r =>
    if r * r < 2 ^ (2 * p + 1) then log2ChainHi p n (2 * k) ((r * r + (2 ^ p - 1)) / 2 ^ p)
    else log2ChainHi p n (2 * k + 1) ((r * r + (2 ^ (p + 1) - 1)) / 2 ^ (p + 1))

/-- Guard bits of the squaring chains. -/
def guardBits : Nat := 40

/-- An enclosure of log2 x for a whole number x ≥ 1, both ends in units of 2^-n. It is a point for a power of two. -/
def log2Bounds (n x : Nat) : Nat × Nat :=
  let e := Nat.log2 x
  let p := n + guardBits
  if x = 2 ^ e then (e * 2 ^ n, e * 2 ^ n)
  else (log2ChainLo p n e (x * 2 ^ p / 2 ^ e), log2ChainHi p n e ((x * 2 ^ p + (2 ^ e - 1)) / 2 ^ e))

/-- An enclosure of log2 (x / 2^c), both ends in units of 2^-n. -/
def log2Scaled (n x c : Nat) : Int × Int :=
  let b := log2Bounds n x
  ((b.1 : Int) - c * 2 ^ n, (b.2 : Int) - c * 2 ^ n)

/-! ### Comparing a real power with a midpoint -/

/-- The working precisions, in bits of the logarithm. They decide how fast a comparison is, never what it answers. -/
def precisions : List Nat := [64, 128, 256, 512]

/-- (x · 2^-149)^(e/d) against m · 2^-150, by enclosures of both logarithms; none where they overlap. -/
def comparePowBounds (n d x m : Nat) (e : Int) : Option Ordering :=
  let lx := log2Scaled n x 149
  let lm := log2Scaled n m 150
  let lo := min (e * lx.1) (e * lx.2)
  let hi := max (e * lx.1) (e * lx.2)
  if hi < d * lm.1 then some .lt
  else if d * lm.2 < lo then some .gt
  else if lo = hi ∧ lm.1 = lm.2 ∧ lo = d * lm.1 then some .eq
  else none

/-- (x · 2^-149)^(e/d) against m · 2^-150, by whole powers: the d-th powers of both, cleared of their denominators. It
decides every case; for a great d the numbers are far too long to work out. -/
@[noinline] def compareWholePowers (d x m : Nat) (e : Int) : Ordering :=
  if 0 ≤ e then compare (x ^ e.toNat * 2 ^ (150 * d)) (m ^ d * 2 ^ (149 * e.toNat))
  else compare (2 ^ (149 * e.natAbs + 150 * d)) (m ^ d * x ^ e.natAbs)

/-- (x · 2^-149)^(e/d) against m · 2^-150, by the first precision that decides, or else by whole powers. -/
def compareRealPower (d x m : Nat) (e : Int) : Ordering :=
  match precisions.findSome? fun n => comparePowBounds n d x m e with
  | some o => o
  | none => compareWholePowers d x m e

/-- y = N / 8 for a whole N of at most 128 in size. Every exact tie of x^y that enclosures cannot decide lies here: the
odd part of a midpoint has at most 25 bits and that of x at most 24, so y = m / 2^k with k ≤ 3 and 0 < m ≤ 15, or x is
a power of two, whose logarithm is a point. -/
def eighths (y : Word) : Option Int :=
  let z := signedUnits y * 8
  if z % 2 ^ 149 = 0 ∧ z.natAbs ≤ 128 * 2 ^ 149 then some (z / 2 ^ 149) else none

/-- x^y against m · 2^-150, for positive finite x and finite y. -/
def comparePow (x y : Word) (m : Nat) : Ordering :=
  match eighths y with
  | some e => compareWholePowers 8 (unitsOf x) m e
  | none => compareRealPower (2 ^ 149) (unitsOf x) m (signedUnits y)

/-- |log2 v| against m · 2^-150, for positive finite v: v against 2^(±m · 2^-150). Here 2 is 2^150 units of 2^-149, and
v is twice its units in units of 2^-150. -/
def compareLog2 (v : Word) (m : Nat) : Ordering :=
  if unitsOf v < 2 ^ 149 then compareRealPower (2 ^ 150) (2 ^ 150) (2 * unitsOf v) (-(m : Int))
  else (compareRealPower (2 ^ 150) (2 ^ 150) (2 * unitsOf v) m).swap

/-! ### Rounding a real that is known by its comparisons

`cmp m` compares the nonnegative real to be rounded with m · 2^-150. -/

/-- The midpoint between the magnitude patterns g and g + 1, in units of 2^-150. -/
def midpointAbove (g : Nat) : Nat := unitsOfMag g + unitsOfMag (g + 1)

/-- The real is above the midpoint under the magnitude pattern g, or on it with g even; nothing lies under 0. -/
def aboveLower (cmp : Nat → Ordering) : Nat → Bool
  | 0 => true
  | g + 1 =>
    match cmp (midpointAbove g) with
    | .gt => true
    | .eq => g % 2 = 1
    | .lt => false

/-- The magnitude pattern g is the real rounded to nearest, ties to even: the real is above what lies under g, and not
above what lies under the next pattern; nothing lies over +∞. -/
def isNearest (cmp : Nat → Ordering) (g : Nat) : Bool :=
  decide (g ≤ infMag) && aboveLower cmp g && (decide (g = infMag) || !aboveLower cmp (g + 1))

/-- The magnitude pattern nearest to the real, its bits found from the top: of the low `k` bits above `g`, those are set
whose pattern the real is still above. -/
def searchNearest (cmp : Nat → Ordering) : Nat → Nat → Nat
  | 0, g => g
  | k + 1, g =>
    if decide (g + 2 ^ k ≤ infMag) && aboveLower cmp (g + 2 ^ k) then searchNearest cmp k (g + 2 ^ k)
    else searchNearest cmp k g

/-- The magnitude pattern nearest to the real: the proposed one or a neighbour if it is, or else the one searched for.
What is proposed decides how fast the answer comes, never what it is. -/
def nearestMag (cmp : Nat → Ordering) (proposed : Nat) : Nat :=
  match [proposed, proposed - 1, proposed + 1].find? (isNearest cmp) with
  | some g => g
  | none => searchNearest cmp 31 0

/-! ### The functions -/

/-- A proposal for |log2 v|. -/
def proposeLog2 (v : Word) : Nat := roundMag (log2Scaled 64 (unitsOf v) 149).1.natAbs (2 ^ 64)

/-- log2 v rounded, for positive finite v other than 1 (00_scope.md R17). -/
def crLog2Main (v : Word) : Word := withSign (decide (unitsOf v < 2 ^ 149)) (nearestMag (compareLog2 v) (proposeLog2 v))

/-- cr_log2 (00_scope.md R17). Below 0 it is outside its domain and free (log entry 8). -/
def crLog2 (v : Word) : Word :=
  if isNaN v then canonicalNaN
  else if isZero v then withSign true infMag
  else if signOf v then Config.log2OutsideDomain v
  else if isInf v then v
  else if v = fone then fzero
  else crLog2Main v

/-- 2^f in units of 2^-64, for f in units of 2^-64 below 1, by the power series of the exponential. It only serves a
proposal: no result rests on its accuracy. -/
def exp2Series (f : Nat) : Nat :=
  let t := f * 0xB17217F7D1CF79AC / 2 ^ 64
  (List.range 20).foldl (fun acc i => 2 ^ 64 + acc * t / ((20 - i) * 2 ^ 64)) (2 ^ 64)

/-- A proposal for x^y. -/
def proposePow (x y : Word) : Nat :=
  let z := signedUnits y * (log2Scaled 64 (unitsOf x) 149).1
  let e := z / 2 ^ 213
  let f := (z % 2 ^ 213).toNat / 2 ^ 149
  if 130 < e then infMag
  else if e < -160 then 0
  else if 0 ≤ e then roundMag (exp2Series f * 2 ^ e.toNat) (2 ^ 64)
  else roundMag (exp2Series f) (2 ^ (64 + e.natAbs))

/-- x^y rounded, for positive finite x other than 1 and finite nonzero y (00_scope.md R17, case 7). -/
def crPowMain (x y : Word) : Word := withSign false (nearestMag (comparePow x y) (proposePow x y))

/-- cr_pow, its special cases in the order of 00_scope.md R17, for x ≥ 0, −0 and NaN. Below 0 it is outside its domain
and free (log entry 8). -/
def crPow (x y : Word) : Word :=
  if isZero y then fone
  else if x = fone then fone
  else if isNaN x || isNaN y then canonicalNaN
  else if isZero x then (if signOf y then withSign false infMag else fzero)
  else if signOf x then Config.powOutsideDomain x y
  else if isInf x then (if signOf y then fzero else withSign false infMag)
  else if isInf y then (if flt x fone == signOf y then withSign false infMag else fzero)
  else crPowMain x y

/-- cr_exp2 (00_scope.md R17): 2^v is the power of 2.0. -/
def crExp2 (v : Word) : Word :=
  if isNaN v then canonicalNaN
  else if isInf v then (if signOf v then fzero else v)
  else if isZero v then fone
  else crPowMain ftwo v

end Sys2Proof.Machine
end

