-- ==== Sys2Proof/Machine/PowTiers.lean ====
section
/-! DEFINITION. The four pow tiers (42_fastpow.md R170 to R179): exact, fast, and the default or replaced bodies of
faster and fastest. -/

namespace Sys2Proof.Machine

/-- The tier of two bits, CTRL.POW_TIER or OP[1:0] (42_fastpow.md R170). -/
def Tier.ofBits (f : BitVec 2) : Tier :=
  if f = 0 then .exact else if f = 1 then .fast else if f = 2 then .faster else .fastest

/-- The ε offset: xe = x + POW_EPS, before every logarithm of tiers 1 to 3 (42_fastpow.md R171). -/
def addEps (x : Word) : Word := fadd x powEps

/-- Tier 0: the exact pow, with no ε (42_fastpow.md R178). -/
def powExact (x y : Word) : Word := crPow x y

/-- Tier 1: cr_exp2(y · cr_log2(x + ε)) (42_fastpow.md R172). Below 0 it is outside its domain and free (log entry 8). -/
def powFast (x y : Word) : Word :=
  if flt x fzero then Config.powOutsideDomain x y else crExp2 (fmul y (crLog2 (addEps x)))

/-- fastapprox constant C1 (42_fastpow.md R173). -/
def approxC1 : Word := 0x42F87377

/-- fastapprox constant C2 (42_fastpow.md R173). -/
def approxC2 : Word := 0x3FBFBF75

/-- fastapprox constant C3 (42_fastpow.md R173). -/
def approxC3 : Word := 0x3FDCE9A3

/-- fastapprox constant C4 (42_fastpow.md R173). -/
def approxC4 : Word := 0x3EB444F9

/-- fastapprox constant C5 (42_fastpow.md R173). -/
def approxC5 : Word := 0x42F28C51

/-- fastapprox constant C6 (42_fastpow.md R173). -/
def approxC6 : Word := 0x41DDD2FE

/-- fastapprox constant C7 (42_fastpow.md R173). -/
def approxC7 : Word := 0x409AF5F8

/-- fastapprox constant C8 (42_fastpow.md R173). -/
def approxC8 : Word := 0x3FBEBC8D

/-- fastapprox constant C9 (42_fastpow.md R173). -/
def approxC9 : Word := 0x42FDE2A9

/-- K23 = 2^-23 (42_fastpow.md R173). -/
def approxK23 : Word := 0x34000000

/-- K2P23 = 2^23 (42_fastpow.md R173). -/
def approxK2P23 : Word := 0x4B000000

/-- −126.0, the clip of the pow2 approximations (42_fastpow.md R175, R177). -/
def minusOneTwentySix : Word := 0xC2FC0000

/-- fastlog2 (42_fastpow.md R174). It reads only the bits of v. -/
def fastLog2 (v : Word) : Word :=
  let m := (v &&& 0x007FFFFF) ||| 0x3F000000
  let y := fmul (u32ToF32 v.toNat) approxK23
  fsub (fsub (fsub y approxC1) (fmul approxC2 m)) (fdiv approxC3 (fadd approxC4 m))

/-- The clipped argument of the pow2 approximations: a NaN is kept (42_fastpow.md R175, R177). -/
def clipPow2 (p : Word) : Word := if flt p minusOneTwentySix then minusOneTwentySix else p

/-- fastpow2 (42_fastpow.md R175): the word as built, not canonicalised. -/
def fastPow2 (p : Word) : Word :=
  let offset := if flt p fzero then fone else fzero
  let clipp := clipPow2 p
  let w := f32ToI32 clipp
  let z := fadd (fsub clipp (i32ToF32 w)) offset
  let v := fsub (fadd (fadd clipp approxC5) (fdiv approxC6 (fsub approxC7 z))) (fmul approxC8 z)
  f32ToU32 (fmul approxK2P23 v)

/-- fasterlog2 (42_fastpow.md R176). -/
def fasterLog2 (v : Word) : Word := fsub (fmul (u32ToF32 v.toNat) approxK23) approxC9

/-- fasterpow2 (42_fastpow.md R177): the word as built. -/
def fasterPow2 (p : Word) : Word := f32ToU32 (fmul approxK2P23 (fadd (clipPow2 p) approxC9))

/-- Tier 2: the default body (42_fastpow.md R173) or the parameter that replaces it, which also gets x + ε
(00_scope.md R25; log entry 9). -/
def powFaster (body : PowBody) (x y : Word) : Word :=
  match body with
  | .default => fastPow2 (fmul y (fastLog2 (addEps x)))
  | .replaced => Config.powFaster (addEps x) y

/-- Tier 3: the default body (42_fastpow.md R173) or the parameter that replaces it, which also gets x + ε
(00_scope.md R25; log entry 9). -/
def powFastest (body : PowBody) (x y : Word) : Word :=
  match body with
  | .default => fasterPow2 (fmul y (fasterLog2 (addEps x)))
  | .replaced => Config.powFastest (addEps x) y

/-- pow_t, without the domain check of the POW commands (42_fastpow.md R178). -/
def powTier (c : Config) (t : Tier) (x y : Word) : Word :=
  match t with
  | .exact => powExact x y
  | .fast => powFast x y
  | .faster => powFaster c.faster x y
  | .fastest => powFastest c.fastest x y

/-- negative(a): f32(a) < 0.0, so −0 and every NaN are not negative and −∞ is (42_fastpow.md R179). -/
def negativeOperand (a : Word) : Bool := flt a fzero

end Sys2Proof.Machine
end

