-- ==== Sys2Proof/Machine/Operands.lean ====
section
/-! DEFINITION. What a command reads when it starts: operand registers, lanes and controls (30_encoding.md R111;
10_state.md R42, R47, R48; 70_reset_and_hazards.md R320). -/

namespace Sys2Proof.Machine

/-- A[i] (10_state.md R42). -/
def operand (s : State) (i : Fin 8) : Word := s.a[i]

/-- Lane i's x operand of a 4-wide command, A[i] (41_waveshaper.md R144, 42_fastpow.md R184). -/
def laneX (s : State) (i : Fin 4) : Word := operand s ⟨i, by omega⟩

/-- Lane i's y operand of a POW4 command, A[4 + i] (42_fastpow.md R184). -/
def laneY (s : State) (i : Fin 4) : Word := operand s ⟨4 + i, by omega⟩

/-- CTRL.POW_TIER, bits 1:0 (10_state.md R47). -/
def ctrlTier (s : State) : Tier := .ofBits (s.ctrl.extractLsb' 0 2)

/-- CTRL.DCB_EN, bit 2 (10_state.md R47). -/
def ctrlDcbEn (s : State) : Bool := s.ctrl.getLsbD 2

/-- CTRL.INNER_SEL, bit 3 (10_state.md R47). -/
def ctrlInnerSel (s : State) : Bool := s.ctrl.getLsbD 3

/-- What a write to CTRL stores: bits 3:0 only (10_state.md R47, 20_memory.md R83). -/
def ctrlStored (w : Word) : Word := w &&& 0x0000000F

end Sys2Proof.Machine
end

