-- ==== Sys2Proof/Machine/Bus.lean ====
section
/-! DEFINITION. The register window: its map, and what a read and a plain write do (10_state.md R41 to R56;
20_memory.md R80 to R85). -/

namespace Sys2Proof.Machine

/-- The registers of the window (10_state.md R55). -/
inductive Reg where
  | id
  | geom
  | feat
  | ctrl
  | hardness
  | status
  | errcmd
  | cmd
  | a (i : Fin 8)
  | r (i : Fin 4)
  | latency
  | tail
  | dcx
  | dcy
  | head (b : BufId)
  | reserved
deriving DecidableEq, Repr

/-- The register at a word-aligned byte offset of the window (10_state.md R55). -/
def Reg.ofOffset (off : Nat) : Reg :=
  if off = 0x00 then .id
  else if off = 0x04 then .geom
  else if off = 0x08 then .feat
  else if off = 0x0C then .ctrl
  else if off = 0x10 then .hardness
  else if off = 0x14 then .status
  else if off = 0x18 then .errcmd
  else if off = 0x1C then .cmd
  else if off < 0x40 then .a (Fin.ofNat 8 ((off - 0x20) / 4))
  else if off < 0x50 then .r (Fin.ofNat 4 ((off - 0x40) / 4))
  else if off = 0x50 then .latency
  else if off = 0x54 then .tail
  else if off = 0x58 then .dcx
  else if off = 0x5C then .dcy
  else if off = 0x60 then .head .upX2
  else if off = 0x64 then .head .upX4
  else if off = 0x68 then .head .downX4
  else if off = 0x6C then .head .downX2
  else .reserved

/-- The byte offset of a register (10_state.md R55); the first reserved one for `reserved`. -/
def Reg.offset : Reg → Nat
  | .id => 0x00
  | .geom => 0x04
  | .feat => 0x08
  | .ctrl => 0x0C
  | .hardness => 0x10
  | .status => 0x14
  | .errcmd => 0x18
  | .cmd => 0x1C
  | .a i => 0x20 + 4 * i
  | .r i => 0x40 + 4 * i
  | .latency => 0x50
  | .tail => 0x54
  | .dcx => 0x58
  | .dcy => 0x5C
  | .head .upX2 => 0x60
  | .head .upX4 => 0x64
  | .head .downX4 => 0x68
  | .head .downX2 => 0x6C
  | .reserved => 0x70

/-- ID: hardwired (10_state.md R41). -/
def idWord : Word := 0x434C4950

/-- GEOM: L2 in bits 15:0, L4 in bits 31:16 (10_state.md R45). -/
def geomWord (c : Config) : Word := BitVec.ofNat 16 c.l4 ++ BitVec.ofNat 16 c.l2

/-- FEAT: BACKING in bit 0 (10_state.md R46). -/
def featWord (c : Config) : Word :=
  match c.backing with
  | .fixed => 0x00000000
  | .small => 0x00000001

/-- HEAD: the write head in bits 15:0, the rest 0 (10_state.md R54). -/
def headWord (buf : Buffer) : Word := BitVec.setWidth 32 (BitVec.ofNat 16 buf.head)

/-- The word a read of a register returns; CMD and reserved offsets read 0 (10_state.md R51, R55, R56; 20_memory.md R83). -/
def regRead (s : State) : Reg → Word
  | .id => idWord
  | .geom => geomWord s.cfg
  | .feat => featWord s.cfg
  | .ctrl => s.ctrl
  | .hardness => s.hardness
  | .status => s.status
  | .errcmd => s.errcmd
  | .cmd => 0x00000000
  | .a i => s.a[i]
  | .r i => s.r[i]
  | .latency => s.cfg.osLatency
  | .tail => s.cfg.osTail
  | .dcx => s.xz1
  | .dcy => s.yz1
  | .head b => headWord (s.buf b)
  | .reserved => 0x00000000

/-- A write to a register other than CMD: a RW register stores, CTRL its bits 3:0 only; a write to a RO register or a
reserved offset is ignored (20_memory.md R83). CMD itself holds no state (10_state.md R51). -/
def regWrite (s : State) (w : Word) : Reg → State
  | .ctrl => { s with ctrl := ctrlStored w }
  | .hardness => { s with hardness := w }
  | .a i => { s with a := s.a.set i w }
  | .id | .geom | .feat | .status | .errcmd | .cmd | .r _ | .latency | .tail | .dcx | .dcy | .head _ | .reserved => s

/-- The bytes an access of a size covers. -/
def Size.bytes : Size → Nat
  | .byte => 1
  | .half => 2
  | .word => 4
  | .double => 8

/-- The access touches the window BASE .. BASE + 0xFF; one that does not is no access to this block (20_memory.md R84). -/
def touchesWindow (c : Config) (size : Size) (addr : Nat) : Bool :=
  decide (c.base < addr + size.bytes) && decide (addr < c.base + 256)

/-- The access is admitted: 32 bits, at BASE + off with off a multiple of 4 from 0 to 0xFC (20_memory.md R81, R84). -/
def admittedAccess (c : Config) (size : Size) (addr : Nat) : Bool :=
  decide (size = .word) && decide (c.base ≤ addr) && decide (addr ≤ c.base + 0xFC) && decide ((addr - c.base) % 4 = 0)

/-- The register an admitted access reaches (20_memory.md R81). -/
def regAt (c : Config) (addr : Nat) : Reg := .ofOffset (addr - c.base)

end Sys2Proof.Machine
end

