-- ==== Sys2Proof/WellFormed.lean ====
section
/-! DEFINITION. Which commands a word can hold (30_encoding.md R111) and which configurations have an instance
(00_scope.md R20, R22, R24). -/

namespace Sys2Proof

/-- A command whose fields fit its word: the DELAY of TAP is an unsigned 16-bit integer (30_encoding.md R110, R111). -/
def Instr.wellFormed : Instr → Bool
  | .tap _ delay => decide (delay < 65536)
  | .nop | .rst | .init | .clrerr | .push _ | .brst _ | .up2x | .up4x | .dn4x | .dn2x | .os4 | .clip | .clip4
  | .powE | .powF | .powFR | .powFT | .pow4E | .pow4F | .pow4FR | .pow4FT | .dcb => true

/-- A finite binary32 pattern: the exponent bits are not all ones (00_scope.md R16, R20). -/
def finitePattern (w : Word) : Bool := decide (w.toNat % 0x80000000 < 0x7F800000)

/-- A table length of rule R20: even, from 2 to 65534, and at most 254 under SMALL (00_scope.md R20, R22). -/
def admittedLength (backing : Backing) (l : Nat) : Bool :=
  decide (l % 2 = 0) && decide (2 ≤ l) &&
    match backing with
    | .fixed => decide (l ≤ 65534)
    | .small => decide (l ≤ 254)

/-- An admitted configuration: the constraints of 00_scope.md R20 and R22 on the tables, and BASE a multiple of 256
(R24). A configuration outside them has no instance. -/
def Config.admitted (c : Config) : Bool :=
  admittedLength c.backing c.l2 && admittedLength c.backing c.l4 &&
    c.h2.all finitePattern && c.h4.all finitePattern && decide (c.base % 256 = 0)

end Sys2Proof
end

