-- ==== Sys2Proof/Decode.lean ====
section
/-! DEFINITION. Decoding of a command word, total on all 2^32 words and rejecting by name, and its encoder
(30_encoding.md R110 to R116). -/

namespace Sys2Proof

/-- Why a word is ILLEGAL (30_encoding.md R115): its OP is not in rule R113, or a field its class does not use is
nonzero. Both raise ILLEGAL_CMD. -/
inductive Illegal where
  | unlistedOp
  | nonzeroField
deriving DecidableEq, Repr

/-- The field classes of 30_encoding.md R112. -/
inductive FieldClass where
  | n
  | b
  | bd
deriving DecidableEq, Repr

/-- The mask of a class: the bits a word must share with its row's match (30_encoding.md R112). -/
def FieldClass.mask : FieldClass → Word
  | .n => 0xFFFFFFFF
  | .b => 0xFFFFFCFF
  | .bd => 0xF0000CFF

/-- A row of the opcode map: OP, class, and the command made of the fields BUF and DELAY (30_encoding.md R113). -/
structure OpRow where
  op    : BitVec 8
  cls   : FieldClass
  build : BufId → Nat → Instr

/-- The match value of a row is its OP, every other bit 0 (30_encoding.md R112). -/
def OpRow.matchWord (r : OpRow) : Word := r.op.setWidth 32

/-- A word selects a row exactly when it agrees with the match under the mask (30_encoding.md R112). -/
def OpRow.accepts (r : OpRow) (w : Word) : Bool := w &&& r.cls.mask == r.matchWord

/-- The complete opcode map, in the order of 30_encoding.md R113. -/
def opRows : List OpRow :=
  [ ⟨0x00, .n, fun _ _ => .nop⟩, ⟨0x01, .n, fun _ _ => .rst⟩, ⟨0x02, .n, fun _ _ => .init⟩,
    ⟨0x03, .n, fun _ _ => .clrerr⟩,
    ⟨0x10, .b, fun b _ => .push b⟩, ⟨0x11, .bd, fun b d => .tap b d⟩, ⟨0x12, .b, fun b _ => .brst b⟩,
    ⟨0x20, .n, fun _ _ => .up2x⟩, ⟨0x21, .n, fun _ _ => .up4x⟩, ⟨0x22, .n, fun _ _ => .dn4x⟩,
    ⟨0x23, .n, fun _ _ => .dn2x⟩, ⟨0x24, .n, fun _ _ => .os4⟩,
    ⟨0x30, .n, fun _ _ => .clip⟩, ⟨0x31, .n, fun _ _ => .clip4⟩,
    ⟨0x40, .n, fun _ _ => .powE⟩, ⟨0x41, .n, fun _ _ => .powF⟩, ⟨0x42, .n, fun _ _ => .powFR⟩,
    ⟨0x43, .n, fun _ _ => .powFT⟩,
    ⟨0x44, .n, fun _ _ => .pow4E⟩, ⟨0x45, .n, fun _ _ => .pow4F⟩, ⟨0x46, .n, fun _ _ => .pow4FR⟩,
    ⟨0x47, .n, fun _ _ => .pow4FT⟩,
    ⟨0x50, .n, fun _ _ => .dcb⟩ ]

/-- The buffer a BUF field names (30_encoding.md R111, 43_ringbuffer.md R210). -/
def BufId.ofField (f : BitVec 2) : BufId :=
  if f = 0 then .upX2 else if f = 1 then .upX4 else if f = 2 then .downX4 else .downX2

/-- The BUF field of a buffer. -/
def BufId.field : BufId → BitVec 2
  | .upX2 => 0
  | .upX4 => 1
  | .downX4 => 2
  | .downX2 => 3

/-- OP = w[7:0] (30_encoding.md R111). -/
def opField (w : Word) : BitVec 8 := w.extractLsb' 0 8

/-- BUF = w[9:8] (30_encoding.md R111). -/
def bufField (w : Word) : BitVec 2 := w.extractLsb' 8 2

/-- DELAY = zext(w[27:12]): unscaled and unsigned (30_encoding.md R111). -/
def delayField (w : Word) : Nat := (w.extractLsb' 12 16).toNat

/-- decode(w): the unique row that accepts w, else ILLEGAL, by name (30_encoding.md R114, R115). -/
def decode (w : Word) : Except Illegal Instr :=
  match opRows.find? (fun r => r.accepts w) with
  | some r => .ok (r.build (.ofField (bufField w)) (delayField w))
  | none => .error (if opRows.any (fun r => r.op == opField w) then .nonzeroField else .unlistedOp)

/-- A word from its four byte lanes, the lowest address first: little-endian (20_memory.md R82). -/
def wordOfLanes (b0 b1 b2 b3 : Byte) : Word := b3 ++ b2 ++ b1 ++ b0

/-- Byte lane k of a word: its bits [8k+7 : 8k] (20_memory.md R82). -/
def byteLane (w : Word) (k : Nat) : Byte := w.extractLsb' (8 * k) 8

/-- The command held in the four byte lanes of a write to CMD. Every command is exactly one 32-bit word
(30_encoding.md R116), so no other number of bytes holds one. -/
def decodeLanes : List Byte → Option Instr
  | [b0, b1, b2, b3] => (decode (wordOfLanes b0 b1 b2 b3)).toOption
  | _ => none

/-- The command that the decoder reads from the bits `w` of an opcode-table row of `nbits` bits (bits above `nbits`
are 0), laid out in the byte lanes of the bus. -/
def decodeTableWord (nbits w : Nat) : Option Instr :=
  let word : Word := BitVec.ofNat 32 (w % 2 ^ nbits)
  decodeLanes [byteLane word 0, byteLane word 1, byteLane word 2, byteLane word 3]

/-- The OP of a command (30_encoding.md R113). -/
def Instr.op : Instr → BitVec 8
  | .nop => 0x00
  | .rst => 0x01
  | .init => 0x02
  | .clrerr => 0x03
  | .push _ => 0x10
  | .tap _ _ => 0x11
  | .brst _ => 0x12
  | .up2x => 0x20
  | .up4x => 0x21
  | .dn4x => 0x22
  | .dn2x => 0x23
  | .os4 => 0x24
  | .clip => 0x30
  | .clip4 => 0x31
  | .powE => 0x40
  | .powF => 0x41
  | .powFR => 0x42
  | .powFT => 0x43
  | .pow4E => 0x44
  | .pow4F => 0x45
  | .pow4FR => 0x46
  | .pow4FT => 0x47
  | .dcb => 0x50

/-- The field class of a command (30_encoding.md R113). -/
def Instr.fieldClass : Instr → FieldClass
  | .push _ | .brst _ => .b
  | .tap _ _ => .bd
  | .nop | .rst | .init | .clrerr | .up2x | .up4x | .dn4x | .dn2x | .os4 | .clip | .clip4
  | .powE | .powF | .powFR | .powFT | .pow4E | .pow4F | .pow4FR | .pow4FT | .dcb => .n

/-- The one format of 30_encoding.md R110, most significant field first: Z2 = 0, DELAY, Z1 = 0, BUF, OP. -/
def commandWord (op : BitVec 8) (buf : BitVec 2) (delay : BitVec 16) : Word :=
  0#4 ++ delay ++ 0#2 ++ buf ++ op

/-- The BUF field of a command; 0 where its class does not use it (30_encoding.md R112, R113). -/
def Instr.bufBits : Instr → BitVec 2
  | .push b | .tap b _ | .brst b => b.field
  | .nop | .rst | .init | .clrerr | .up2x | .up4x | .dn4x | .dn2x | .os4 | .clip | .clip4
  | .powE | .powF | .powFR | .powFT | .pow4E | .pow4F | .pow4FR | .pow4FT | .dcb => 0

/-- The DELAY field of a command; 0 where its class does not use it (30_encoding.md R112, R113). -/
def Instr.delayBits : Instr → BitVec 16
  | .tap _ delay => BitVec.ofNat 16 delay
  | .nop | .rst | .init | .clrerr | .push _ | .brst _ | .up2x | .up4x | .dn4x | .dn2x | .os4 | .clip | .clip4
  | .powE | .powF | .powFR | .powFT | .pow4E | .pow4F | .pow4FR | .pow4FT | .dcb => 0

/-- The command word of a command (30_encoding.md R110 to R113). -/
def encode (i : Instr) : Word := commandWord i.op i.bufBits i.delayBits

end Sys2Proof
end

