-- ==== Sys2Proof/Machine/Control.lean ====
section
/-! DEFINITION. The control family: NOP, RST, INIT, CLRERR (46_control.md). -/

namespace Sys2Proof.Machine

/-- NOP: no state changes (46_control.md R270). -/
def execNop (s : State) : Host.Outcome State Fault Refusal := .next s

/-- RST: buffers, heads and DC state reset; no register changes (46_control.md R271). -/
def execRst (s : State) : Host.Outcome State Fault Refusal := .next (signalReset s)

/-- INIT: the configuration hook, a no-op (46_control.md R272). -/
def execInit (s : State) : Host.Outcome State Fault Refusal := .next s

/-- CLRERR: STATUS and ERRCMD cleared (46_control.md R273). -/
def execClrerr (s : State) : Host.Outcome State Fault Refusal := .next (clearError s)

end Sys2Proof.Machine
end

