-- ==== Sys2Proof/Machine/DcBlock.lean ====
section
/-! DEFINITION. The DC-block family: DCB (45_dcblock.md). -/

namespace Sys2Proof.Machine

/-- DCB: one DC step on A0, whatever CTRL.DCB_EN is (45_dcblock.md R262). -/
def execDcb (s : State) : Host.Outcome State Fault Refusal :=
  .next ((dcStep (operand s 0) s).setR 0 (dcOutput (operand s 0) s.xz1 s.yz1))

end Sys2Proof.Machine
end

