-- ==== Sys2Proof/Machine/FastPow.lean ====
section
/-! DEFINITION. The fast-pow family: POW.E, POW.F, POW.FR, POW.FT and their 4-wide forms (42_fastpow.md). -/

namespace Sys2Proof.Machine

/-- A scalar pow command `i` of tier t: the domain check on A0, then R0 takes pow_t(A0, A1) (42_fastpow.md R179 to R183). -/
def scalarPow (i : Instr) (t : Tier) (s : State) : State :=
  if negativeOperand (operand s 0) then raiseError .powDomain (encode i) s
  else s.setR 0 (powTier s.cfg t (operand s 0) (operand s 1))

/-- The result of lane i of a 4-wide pow (42_fastpow.md R184). -/
def lanePow (s : State) (t : Tier) (i : Fin 4) : Word := powTier s.cfg t (laneX s i) (laneY s i)

/-- Some lane's x operand is negative (42_fastpow.md R179, R184). -/
def anyLaneNegative (s : State) : Bool :=
  negativeOperand (laneX s 0) || negativeOperand (laneX s 1) || negativeOperand (laneX s 2) ||
    negativeOperand (laneX s 3)

/-- A 4-wide pow command `i` of tier t: all four lanes are checked before any is written (42_fastpow.md R184 to R187). -/
def vectorPow (i : Instr) (t : Tier) (s : State) : State :=
  if anyLaneNegative s then raiseError .powDomain (encode i) s
  else s.setR0123 (lanePow s t 0) (lanePow s t 1) (lanePow s t 2) (lanePow s t 3)

/-- POW.E (42_fastpow.md R180). -/
def execPowE (s : State) : Host.Outcome State Fault Refusal := .next (scalarPow .powE .exact s)

/-- POW.F (42_fastpow.md R181). -/
def execPowF (s : State) : Host.Outcome State Fault Refusal := .next (scalarPow .powF .fast s)

/-- POW.FR (42_fastpow.md R182). -/
def execPowFR (s : State) : Host.Outcome State Fault Refusal := .next (scalarPow .powFR .faster s)

/-- POW.FT (42_fastpow.md R183). -/
def execPowFT (s : State) : Host.Outcome State Fault Refusal := .next (scalarPow .powFT .fastest s)

/-- POW4.E (42_fastpow.md R184). -/
def execPow4E (s : State) : Host.Outcome State Fault Refusal := .next (vectorPow .pow4E .exact s)

/-- POW4.F (42_fastpow.md R185). -/
def execPow4F (s : State) : Host.Outcome State Fault Refusal := .next (vectorPow .pow4F .fast s)

/-- POW4.FR (42_fastpow.md R186). -/
def execPow4FR (s : State) : Host.Outcome State Fault Refusal := .next (vectorPow .pow4FR .faster s)

/-- POW4.FT (42_fastpow.md R187). -/
def execPow4FT (s : State) : Host.Outcome State Fault Refusal := .next (vectorPow .pow4FT .fastest s)

end Sys2Proof.Machine
end

