-- ==== Sys2Proof/Machine/Shaper.lean ====
section
/-! DEFINITION. VarHardClip (41_waveshaper.md R140 to R142), the function that CLIP, CLIP4 and the clip inner processor
of OS4 evaluate. -/

namespace Sys2Proof.Machine

/-- −STABILITY_RANGE. -/
def minusStabilityRange : Word := 0xC1800000

/-- −1.0. -/
def minusOne : Word := 0xBF800000

/-- Step 1: x clamped to [−16, 16] (41_waveshaper.md R141). -/
def shaperInput (x : Word) : Word := fclamp x minusStabilityRange stabilityRange

/-- Step 2: the crossfade weight of hardness h (41_waveshaper.md R141). -/
def shaperFade (h : Word) : Word := fdiv (fsub h (fminc h maxHardness)) oneMinusMax

/-- Step 3: softness = 0.5 − 0.5 · clamped hardness (41_waveshaper.md R141). -/
def shaperSoftness (h : Word) : Word := fsub fhalf (fmul fhalf (fminc h maxHardness))

/-- Step 4: the soft curve of the clamped input (41_waveshaper.md R141). Both pow calls use the one tier (R140). -/
def shaperAnalog (c : Config) (xc soft : Word) (t : Tier) : Word :=
  let p1 := powTier c t (fabs xc) (fdiv fone soft)
  fdiv xc (powTier c t (fadd fone p1) soft)

/-- Step 5: the hard clip of the clamped input (41_waveshaper.md R141). -/
def shaperDigital (xc : Word) : Word := fclamp xc minusOne fone

/-- VarHardClip(x, h, t): step 6 crossfades the soft curve and the hard clip (41_waveshaper.md R141). The hardness is
neither checked nor clamped below (R142). -/
def varHardClip (c : Config) (x h : Word) (t : Tier) : Word :=
  let xc := shaperInput x
  let fade := shaperFade h
  fadd (fmul (shaperAnalog c xc (shaperSoftness h) t) (fsub fone fade)) (fmul (shaperDigital xc) fade)

end Sys2Proof.Machine
end

