-- ==== Sys2Proof/Machine/Waveshaper.lean ====
section
/-! DEFINITION. The waveshaper family: CLIP, CLIP4 (41_waveshaper.md). -/

namespace Sys2Proof.Machine

/-- VarHardClip of x under the controls of the state, read once (41_waveshaper.md R140, R141). -/
def shapedBy (s : State) (x : Word) : Word := varHardClip s.cfg x s.hardness (ctrlTier s)

/-- CLIP: R0 takes VarHardClip of A0 (41_waveshaper.md R143). -/
def execClip (s : State) : Host.Outcome State Fault Refusal := .next (s.setR 0 (shapedBy s (operand s 0)))

/-- CLIP4: lane i of R0 to R3 takes VarHardClip of A[i], with the one hardness and tier (41_waveshaper.md R144). -/
def execClip4 (s : State) : Host.Outcome State Fault Refusal :=
  .next (s.setR0123 (shapedBy s (laneX s 0)) (shapedBy s (laneX s 1)) (shapedBy s (laneX s 2)) (shapedBy s (laneX s 3)))

end Sys2Proof.Machine
end

