-- ==== Sys2Proof/Machine/Multirate.lean ====
section
/-! DEFINITION. The multirate family: UP2X, UP4X, DN4X, DN2X and the cascade OS4 (44_multirate.md). -/

namespace Sys2Proof.Machine

/-- H[0], H[2], ...: the coefficients of the even phase (44_multirate.md R230). -/
def evenTaps : List Word → List Word
  | [] => []
  | [h] => [h]
  | h :: _ :: hs => h :: evenTaps hs

/-- H[1], H[3], ...: the coefficients of the odd phase (44_multirate.md R230). -/
def oddTaps : List Word → List Word
  | [] => []
  | [_] => []
  | _ :: h :: hs => h :: oddTaps hs

/-- A FIR sum from delay k on: one rounded product and one rounded sum per tap, ascending (44_multirate.md R230, R231;
00_scope.md R13). -/
def firFrom (s : State) (b : BufId) : List Word → Nat → Word → Word
  | [], _, acc => acc
  | h :: hs, k, acc => firFrom s b hs (k + 1) (fadd acc (fmul h (tapWord s b k)))

/-- A FIR sum over the taps of buffer b from +0 (44_multirate.md R230, R231). Its delays are legal in every admitted
configuration, so the taps carry no range check (R238; log entry 14). -/
def firSum (s : State) (b : BufId) (hs : List Word) : Word := firFrom s b hs 0 fzero

/-- The even output of the up stage after its push (44_multirate.md R230). -/
def upEven (s : State) (b : BufId) (h : List Word) : Word := fmul ftwo (firSum s b (evenTaps h))

/-- The odd output of the up stage after its push (44_multirate.md R230). -/
def upOdd (s : State) (b : BufId) (h : List Word) : Word := fmul ftwo (firSum s b (oddTaps h))

/-- UpStage(b, H, L, v): the state after the push, the even (earlier) and the odd output (44_multirate.md R230). -/
def upStage (b : BufId) (h : List Word) (v : Word) (s : State) : State × Word × Word :=
  let s' := bufPush b v s
  (s', upEven s' b h, upOdd s' b h)

/-- DownStage(b, H, L, v0, v1): the state after the two pushes, v0 first, and the output (44_multirate.md R231). -/
def downStage (b : BufId) (h : List Word) (v0 v1 : Word) (s : State) : State × Word :=
  let s' := bufPush b v1 (bufPush b v0 s)
  (s', firSum s' b h)

/-- UP2X (44_multirate.md R232). -/
def execUp2x (s : State) : Host.Outcome State Fault Refusal :=
  match upStage .upX2 s.cfg.h2 (operand s 0) s with
  | (s', e, o) => .next (s'.setR01 e o)

/-- UP4X (44_multirate.md R233). -/
def execUp4x (s : State) : Host.Outcome State Fault Refusal :=
  match upStage .upX4 s.cfg.h4 (operand s 0) s with
  | (s', e, o) => .next (s'.setR01 e o)

/-- DN4X: A0 the earlier sample, A1 the later (44_multirate.md R234). -/
def execDn4x (s : State) : Host.Outcome State Fault Refusal :=
  match downStage .downX4 s.cfg.h4 (operand s 0) (operand s 1) s with
  | (s', w) => .next (s'.setR 0 w)

/-- DN2X: A0 the earlier sample, A1 the later (44_multirate.md R235). -/
def execDn2x (s : State) : Host.Outcome State Fault Refusal :=
  match downStage .downX2 s.cfg.h2 (operand s 0) (operand s 1) s with
  | (s', w) => .next (s'.setR 0 w)

/-- The inner processor of the cascade: identity, or VarHardClip with HARDNESS and POW_TIER (44_multirate.md R240). -/
def inner (s : State) (y : Word) : Word := if ctrlInnerSel s then shapedBy s y else y

/-- The state in which the cascade runs: after the DC step when CTRL.DCB_EN = 1, else as it was (44_multirate.md R241,
45_dcblock.md R263). -/
def cascadeStart (s : State) : State := if ctrlDcbEn s then dcStep (operand s 0) s else s

/-- The sample the cascade takes: the DC step's output when CTRL.DCB_EN = 1, else A0 (44_multirate.md R241). -/
def cascadeInput (s : State) : Word := if ctrlDcbEn s then dcOutput (operand s 0) s.xz1 s.yz1 else operand s 0

/-- One sample through the 4× cascade: the state after all pushes, and the output (44_multirate.md R241, steps 1 to 5).
No stage changes CTRL or HARDNESS, so the inner processor reads them as they were when the command started. -/
def cascade (x : Word) (s : State) : State × Word :=
  match upStage .upX2 s.cfg.h2 x s with
  | (s1, e, o) =>
  match upStage .upX4 s.cfg.h4 e s1 with
  | (s2, y0, y1) =>
  match upStage .upX4 s.cfg.h4 o s2 with
  | (s3, y2, y3) =>
  match downStage .downX4 s.cfg.h4 (inner s y0) (inner s y1) s3 with
  | (s4, d0) =>
  match downStage .downX4 s.cfg.h4 (inner s y2) (inner s y3) s4 with
  | (s5, d1) => downStage .downX2 s.cfg.h2 d0 d1 s5

/-- OS4: R0 takes the output of the cascade; R1 to R3 keep their values (44_multirate.md R241). -/
def execOs4 (s : State) : Host.Outcome State Fault Refusal :=
  match cascade (cascadeInput s) (cascadeStart s) with
  | (s', out) => .next (s'.setR 0 out)

end Sys2Proof.Machine
end

