-- ==== Sys2Proof/Machine/RingBuffer.lean ====
section
/-! DEFINITION. The ring-buffer family: PUSH, TAP, BRST (43_ringbuffer.md). -/

namespace Sys2Proof.Machine

/-- PUSH b: A0 into buffer b, bit for bit (43_ringbuffer.md R211). -/
def execPush (b : BufId) (s : State) : Host.Outcome State Fault Refusal := .next (bufPush b (operand s 0) s)

/-- TAP b, d: R0 takes the word at delay d, or TAP_RANGE is raised (43_ringbuffer.md R212). ERRCMD takes the command's
one encoding (log entry 13). -/
def execTap (b : BufId) (delay : Nat) (s : State) : Host.Outcome State Fault Refusal :=
  match bufTap s b delay with
  | some w => .next (s.setR 0 w)
  | none => .next (raiseError .tapRange (encode (.tap b delay)) s)

/-- BRST b: buffer b reset (43_ringbuffer.md R213). -/
def execBrst (b : BufId) (s : State) : Host.Outcome State Fault Refusal := .next (bufReset b s)

end Sys2Proof.Machine
end

