-- ==== Sys2Proof/Machine/Dispatch.lean ====
section
/-! DEFINITION. One arm per command: the meaning of a decoded command (60_exceptions.md R280). -/

namespace Sys2Proof.Machine

def exec (i : Instr) (s : State) : Host.Outcome State Fault Refusal :=
  match i with
  | .nop => Sys2Proof.Machine.execNop s
  | .rst => Sys2Proof.Machine.execRst s
  | .init => Sys2Proof.Machine.execInit s
  | .clrerr => Sys2Proof.Machine.execClrerr s
  | .push b => Sys2Proof.Machine.execPush b s
  | .tap b delay => Sys2Proof.Machine.execTap b delay s
  | .brst b => Sys2Proof.Machine.execBrst b s
  | .up2x => Sys2Proof.Machine.execUp2x s
  | .up4x => Sys2Proof.Machine.execUp4x s
  | .dn4x => Sys2Proof.Machine.execDn4x s
  | .dn2x => Sys2Proof.Machine.execDn2x s
  | .os4 => Sys2Proof.Machine.execOs4 s
  | .clip => Sys2Proof.Machine.execClip s
  | .clip4 => Sys2Proof.Machine.execClip4 s
  | .powE => Sys2Proof.Machine.execPowE s
  | .powF => Sys2Proof.Machine.execPowF s
  | .powFR => Sys2Proof.Machine.execPowFR s
  | .powFT => Sys2Proof.Machine.execPowFT s
  | .pow4E => Sys2Proof.Machine.execPow4E s
  | .pow4F => Sys2Proof.Machine.execPow4F s
  | .pow4FR => Sys2Proof.Machine.execPow4FR s
  | .pow4FT => Sys2Proof.Machine.execPow4FT s
  | .dcb => Sys2Proof.Machine.execDcb s

end Sys2Proof.Machine
end

