-- ==== Sys2Proof/Machine/Command.lean ====
section
/-! DEFINITION. What one input does: a command through CMD, a plain register access, or the reset input
(60_exceptions.md R280; 20_memory.md R81 to R87; 70_reset_and_hazards.md R310). -/

namespace Sys2Proof.Machine

/-- Execution of a command word: an ILLEGAL word raises ILLEGAL_CMD, a legal one performs its rule (60_exceptions.md
R280). -/
def runCommand (w : Word) (s : State) : Host.Outcome State Fault Refusal :=
  match decode w with
  | .ok i => exec i s
  | .error _ => .next (raiseError .illegalCmd w s)

/-- An admitted write: to CMD it runs the command, which completes before the write does (20_memory.md R86). -/
def writeReg (reg : Reg) (w : Word) (s : State) : Host.Outcome State Fault Refusal :=
  if reg = .cmd then runCommand w s else .next (regWrite s w reg)

/-- An admitted read: the host gets the register's word, and nothing else changes (20_memory.md R85). -/
def readReg (reg : Reg) (s : State) : State := { s with answer := some (regRead s reg) }

/-- One input. An access outside the window is none to this block and leaves it as it is (20_memory.md R84; log entry
4); one that touches the window and is not admitted is refused (R84, 60_exceptions.md R297; log entry 5). -/
def perform (inp : Input) (s : State) : Host.Outcome State Fault Refusal :=
  match inp with
  | .reset => .next (hardwareReset s)
  | .read size addr =>
    if touchesWindow s.cfg size addr then
      if admittedAccess s.cfg size addr then .next (readReg (regAt s.cfg addr) s) else .refused .accessNotAdmitted
    else .next s
  | .write size addr w =>
    if touchesWindow s.cfg size addr then
      if admittedAccess s.cfg size addr then writeReg (regAt s.cfg addr) w s else .refused .accessNotAdmitted
    else .next s

/-- The next input taken from what the host has still to do; its answer starts empty (log entries 1 and 6). -/
def takeInput (rest : List Input) (s : State) : State := { s with inputs := rest, answer := none }

/-- One step: the oldest input of an admitted instance takes its whole effect; with none the block is idle and holds its
state (20_memory.md R87; 60_exceptions.md R294, R297). -/
def stepInput (s : State) : Host.Outcome State Fault Refusal :=
  if s.cfg.admitted then
    match s.inputs with
    | [] => .next s
    | inp :: rest => perform inp (takeInput rest s)
  else .refused .configurationNotAdmitted

/-- The host's write of command word `w` to CMD (10_state.md R51). -/
def commandWrite (c : Config) (w : Word) : Input := .write .word (c.base + Reg.cmd.offset) w

end Sys2Proof.Machine
end

