-- ==== Sys2Proof/Machine/Step.lean ====
section
/-! DEFINITION. The step of the machine, and the placing of a command where the next step takes it. -/

namespace Sys2Proof.Machine

/-- One step of the block: one input from outside, performed to completion (70_reset_and_hazards.md R330). -/
def step (s : State) : Host.Outcome State Fault Refusal := stepInput s

/-- The state whose next step runs the command of the table bits `w`: the host's write of that word to CMD stands first
among its inputs (10_state.md R40; log entry 2). -/
def State.withFetchWord (s : State) (nbits w : Nat) : State :=
  { s with inputs := commandWrite s.cfg (BitVec.ofNat 32 (w % 2 ^ nbits)) :: s.inputs }

end Sys2Proof.Machine
end

