-- ==== Sys2Proof/Safety.lean ====
section
/-! DEFINITION. What claims are stated in: the legal states of the block, the inputs a host may issue, and runs. -/

namespace Sys2Proof.Machine

/-- A buffer of capacity `cap`: its slots in canonical form and below the capacity, its head below it
(10_state.md R60). -/
def Buffer.wf (cap : Nat) (buf : Buffer) : Bool :=
  buf.slots.wf && buf.slots.all (fun p => decide (p.1 < cap)) && decide (buf.head < cap)

/-- A legal STATUS and ERRCMD: the reserved bits are 0; with ERR = 0 both words are 0; with ERR = 1 the cause is one
that is produced (10_state.md R49, R50; 60_exceptions.md R281). -/
def latchLegal (status errcmd : Word) : Bool :=
  status &&& 0xFFFFFF0C == 0 &&
    if statusErr status then
      statusCause status == Cause.illegalCmd.code || statusCause status == Cause.tapRange.code ||
        statusCause status == Cause.powDomain.code
    else status == 0 && errcmd == 0

/-- A legal state: an admitted configuration, CTRL without reserved bits, a legal error latch, and four well-formed
buffers (10_state.md R47, R49, R50, R60; 00_scope.md R20). -/
def State.wf (s : State) : Bool :=
  s.cfg.admitted && s.ctrl &&& 0xFFFFFFF0 == 0 && latchLegal s.status s.errcmd &&
    (s.upX2.wf (capacity s.cfg .upX2) && s.upX4.wf (capacity s.cfg .upX4) &&
      s.downX4.wf (capacity s.cfg .downX4) && s.downX2.wf (capacity s.cfg .downX2))

/-- An input a host may issue: the reset, an admitted access, or one that is none to this block
(20_memory.md R81, R84). -/
def inputAdmitted (c : Config) : Input → Bool
  | .reset => true
  | .read size addr => !touchesWindow c size addr || admittedAccess c size addr
  | .write size addr _ => !touchesWindow c size addr || admittedAccess c size addr

/-- The words pushed into buffer b, in order (20_memory.md R93). -/
def pushAll (b : BufId) (s : State) (ws : List Word) : State := ws.foldl (fun s w => bufPush b w s) s

/-- The state after a command that gives a next state; the state itself where it does not. -/
def after (i : Instr) (s : State) : State :=
  match exec i s with
  | .next t => t
  | .fault _ => s
  | .refused _ => s

/-- A host write of operand register i (10_state.md R42). -/
def withA (s : State) (i : Fin 8) (w : Word) : State := { s with a := s.a.set i w }

/-! ### Frames -/

/-- What no command writes: the configuration, the controls, the operands, and the model's own two fields. -/
def sameHostSide (s t : State) : Prop :=
  t.cfg = s.cfg ∧ t.ctrl = s.ctrl ∧ t.hardness = s.hardness ∧ t.a = s.a ∧ t.inputs = s.inputs ∧ t.answer = s.answer

/-- STATUS and ERRCMD as before. -/
def sameLatch (s t : State) : Prop := t.status = s.status ∧ t.errcmd = s.errcmd

/-- x_z1 and y_z1 as before. -/
def sameDc (s t : State) : Prop := t.xz1 = s.xz1 ∧ t.yz1 = s.yz1

/-- R[k], ..., R3 as before. -/
def resultsKeptFrom (k : Nat) (s t : State) : Prop := ∀ j : Fin 4, k ≤ j.val → t.r[j] = s.r[j]

/-- Every slot of buffer b reads as before, and its head is as before. -/
def bufferKept (s t : State) (b : BufId) : Prop :=
  (t.buf b).head = (s.buf b).head ∧ ∀ i, (t.buf b).slots.read i = (s.buf b).slots.read i

/-- `buf'` is `buf` of buffer b after one BufPush of `w`: the head advances modulo cap_b (FIXED) or 256 (SMALL), its
slot holds `w`, and every other slot reads as before (20_memory.md R90). -/
def slotPushed (c : Config) (b : BufId) (buf buf' : Buffer) (w : Word) : Prop :=
  (c.backing = .fixed → buf'.head = (buf.head + 1) % capacity c b) ∧
    (c.backing = .small → buf'.head = (buf.head + 1) % 256) ∧
    ∀ i, buf'.slots.read i = if i = buf'.head then w else buf.slots.read i

/-- `t` is `s` after an error of cause code `code` in the command word `w`: ERR, CAUSE and ERRCMD are written for the
first error, OVF alone for a later one, and nothing else changes (60_exceptions.md R282). -/
def errorLatched (s t : State) (code : BitVec 4) (w : Word) : Prop :=
  (statusErr s.status = false →
    statusErr t.status = true ∧ statusCause t.status = code ∧ statusOvf t.status = statusOvf s.status ∧ t.errcmd = w) ∧
  (statusErr s.status = true →
    statusErr t.status = true ∧ statusOvf t.status = true ∧ statusCause t.status = statusCause s.status ∧
      t.errcmd = s.errcmd) ∧
  t.status &&& 0xFFFFFF0C = s.status &&& 0xFFFFFF0C ∧ t = { s with status := t.status, errcmd := t.errcmd }

/-- A FIR sum as rules R230 and R231 write it: from +0, ascending in k, over BufTap(b, k) with its range check, with
coefficient `coef k` (44_multirate.md). -/
def firOver (s : State) (b : BufId) (coef : Nat → Word) (n : Nat) : Word :=
  (List.range n).foldl (fun acc k => fadd acc (fmul (coef k) ((bufTap s b k).getD 0))) fzero

/-! ### The cascade as a host sequence -/

/-- A command on the operands A0 and A1. -/
def afterOn2 (i : Instr) (s : State) (x y : Word) : State := after i (withA (withA s 0 x) 1 y)

/-- CLIP4 on the four samples when INNER_SEL = 1; the state as it is when it is 0 (44_multirate.md R243). -/
def hostInner (s : State) (y0 y1 y2 y3 : Word) : State × Word × Word × Word × Word :=
  if ctrlInnerSel s then
    let u := after .clip4 (withA (withA (withA (withA s 0 y0) 1 y1) 2 y2) 3 y3)
    (u, u.r[0], u.r[1], u.r[2], u.r[3])
  else (s, y0, y1, y2, y3)

/-- The host sequence that R243 puts beside OS4: DCB if DCB_EN = 1, UP2X, two UP4X, CLIP4 if INNER_SEL = 1, two DN4X,
DN2X, each on the results of those before it (44_multirate.md R243). -/
def hostCascade (s : State) : State :=
  let s0 := if ctrlDcbEn s then after .dcb s else s
  let x := if ctrlDcbEn s then s0.r[0] else operand s 0
  let s1 := after .up2x (withA s0 0 x)
  let s2 := after .up4x (withA s1 0 s1.r[0])
  let s3 := after .up4x (withA s2 0 s1.r[1])
  match hostInner s3 s2.r[0] s2.r[1] s3.r[0] s3.r[1] with
  | (u, z0, z1, z2, z3) =>
    let s4 := afterOn2 .dn4x u z0 z1
    let s5 := afterOn2 .dn4x s4 z2 z3
    afterOn2 .dn2x s5 s4.r[0] s5.r[0]

/-- How many words one OS4 pushes into each buffer (44_multirate.md R241, R242). -/
def os4Pushes : BufId → Nat
  | .upX2 => 1
  | .upX4 => 2
  | .downX4 => 4
  | .downX2 => 2

/-- One OS4 per sample, in order (44_multirate.md R245). -/
def os4Run (s : State) (xs : List Word) : State := xs.foldl (fun s x => after .os4 (withA s 0 x)) s

/-! ### Rounding -/

/-- The magnitude pattern `g` is the nonnegative real `r` rounded to nearest, ties to even: `r` lies between the
midpoints to the neighbours of `g`, on one of them only if `g` is even. Below the least pattern and above that of +∞
there is no neighbour, and the pattern of +∞ stands for 2^128 in the last midpoint (00_scope.md R11, R17). -/
def NearestEven (r : ℝ) (g : Nat) : Prop :=
  g ≤ infMag ∧
    (∀ h, g = h + 1 → (midpointAbove h : ℝ) / 2 ^ 150 < r ∨ ((midpointAbove h : ℝ) / 2 ^ 150 = r ∧ g % 2 = 0)) ∧
    (g < infMag → r < (midpointAbove g : ℝ) / 2 ^ 150 ∨ (r = (midpointAbove g : ℝ) / 2 ^ 150 ∧ g % 2 = 0))

end Sys2Proof.Machine
end

