-- ==== Sys2Proof/Certificates/Slice0/Obligations.lean ====
section
/-! DEFINITION. The statements for the provers, each a proposition over the definitions of the model and of Safety.lean.
A docstring says which rule of spec/ a statement formalises, or which log entry it rests on. -/

open Sys2Proof Sys2Proof.Machine

/-! ### Encoding -/

/-- Decode and encode agree: every well-formed command is what its own word decodes to (30_encoding.md R110 to R114). -/
def Obligations.DecodeOfEncodeIsTheCommand : Prop :=
  ∀ i : Instr, i.wellFormed = true → decode (encode i) = .ok i

/-- A word that decodes is the one word of its command (30_encoding.md R112 to R114). With it, ERRCMD is the command
word of a raising command (log entry 13). -/
def Obligations.EncodeOfDecodeIsTheWord : Prop :=
  ∀ (w : Word) (i : Instr), decode w = .ok i → i.wellFormed = true ∧ encode i = w

/-- decode is the unique row that accepts the word, ILLEGAL if none does (30_encoding.md R114). -/
def Obligations.DecodeIsTheUniqueAcceptingRow : Prop :=
  ∀ w : Word,
    (∀ r ∈ opRows, w &&& r.cls.mask = r.matchWord →
      decode w = .ok (r.build (BufId.ofField (bufField w)) (delayField w))) ∧
    ((∀ r ∈ opRows, w &&& r.cls.mask ≠ r.matchWord) → ∃ e, decode w = .error e) ∧
    (opRows.filter (fun r => r.accepts w)).length ≤ 1

/-- The ILLEGAL words are those of 30_encoding.md R115, and running one latches ILLEGAL_CMD and nothing else. -/
def Obligations.IllegalWordsLatchIllegalCmd : Prop :=
  ∀ w : Word,
    ((∃ e, decode w = .error e) ↔
      ¬ ((w.toNat % 256 ∈ [0x00, 0x01, 0x02, 0x03, 0x20, 0x21, 0x22, 0x23, 0x24, 0x30, 0x31, 0x40, 0x41, 0x42, 0x43,
            0x44, 0x45, 0x46, 0x47, 0x50] ∧ w.toNat / 2 ^ 8 = 0) ∨
          (w.toNat % 256 ∈ [0x10, 0x12] ∧ w.toNat / 2 ^ 10 = 0) ∨
          (w.toNat % 256 = 0x11 ∧ w.toNat / 2 ^ 28 = 0 ∧ w.toNat / 2 ^ 10 % 4 = 0))) ∧
    ((∃ e, decode w = .error e) → ∀ s, ∃ t, runCommand w s = .next t ∧ errorLatched s t 1 w)

/-- Words of each family and class, from the vectors of 95_test_vectors.md section 2.1 and 30_encoding.md R117. -/
def Obligations.SpecWordsDecode : Prop :=
  decode 0x00000000 = .ok .nop ∧ decode 0x00000003 = .ok .clrerr ∧ decode 0x00000310 = .ok (.push .downX2) ∧
    decode 0x00003211 = .ok (.tap .downX4 3) ∧ decode 0x0FFFF311 = .ok (.tap .downX2 65535) ∧
    decode 0x00000112 = .ok (.brst .upX4) ∧ decode 0x00000024 = .ok .os4 ∧ decode 0x00000031 = .ok .clip4 ∧
    decode 0x00000047 = .ok .pow4FT ∧ decode 0x00000050 = .ok .dcb ∧
    decode 0x00000100 = .error .nonzeroField ∧ decode 0x10000011 = .error .nonzeroField ∧
    decode 0x00000013 = .error .unlistedOp

/-! ### The step and the bus -/

/-- The step runs the decoded command: the host's write of a word to CMD that decodes to `i` is `exec i`, on the state
with that input taken and no answer (10_state.md R51, 60_exceptions.md R280; log entries 1 and 6). -/
def Obligations.StepRunsTheDecodedCommand : Prop :=
  ∀ (s : State) (w : Word) (rest : List Input) (i : Instr), s.cfg.admitted = true →
    s.inputs = .write .word (s.cfg.base + 0x1C) w :: rest → decode w = .ok i →
    step s = exec i { s with inputs := rest, answer := none }

/-- The step of an ILLEGAL word written to CMD latches ILLEGAL_CMD with that word; the write completes normally
(60_exceptions.md R280, R284; 30_encoding.md R115). That the input is taken and `answer` is emptied is the model's (log
entries 1 and 6). -/
def Obligations.StepLatchesAnIllegalCommand : Prop :=
  ∀ (s : State) (w : Word) (rest : List Input) (e : Illegal), s.cfg.admitted = true →
    s.inputs = .write .word (s.cfg.base + 0x1C) w :: rest → decode w = .error e →
    ∃ t, step s = .next t ∧ errorLatched { s with inputs := rest, answer := none } t 1 w

/-- What a host read of each offset answers, in a legal state, and that it changes nothing else (10_state.md R41 to R56;
20_memory.md R81, R85). That the input is taken and the word stands in `answer` is the model's (log entries 1 and
6). -/
def Obligations.ReadAnswersTheRegister : Prop :=
  ∀ (s : State) (off : Nat) (rest : List Input), s.wf = true → off % 4 = 0 → off ≤ 0xFC →
    s.inputs = .read .word (s.cfg.base + off) :: rest →
    ∃ v : Word, step s = .next { s with inputs := rest, answer := some v } ∧
      (off = 0x00 → v = 0x434C4950) ∧
      (off = 0x04 → v.toNat = s.cfg.h4.length * 65536 + s.cfg.h2.length) ∧
      (off = 0x08 → v = match s.cfg.backing with | .fixed => 0 | .small => 1) ∧
      (off = 0x0C → v = s.ctrl) ∧ (off = 0x10 → v = s.hardness) ∧ (off = 0x14 → v = s.status) ∧
      (off = 0x18 → v = s.errcmd) ∧ (off = 0x1C → v = 0) ∧
      (∀ i : Fin 8, off = 0x20 + 4 * i.val → v = s.a[i]) ∧ (∀ i : Fin 4, off = 0x40 + 4 * i.val → v = s.r[i]) ∧
      (off = 0x50 → v = s.cfg.osLatency) ∧ (off = 0x54 → v = s.cfg.osTail) ∧
      (off = 0x58 → v = s.xz1) ∧ (off = 0x5C → v = s.yz1) ∧
      (off = 0x60 → v.toNat = s.upX2.head) ∧ (off = 0x64 → v.toNat = s.upX4.head) ∧
      (off = 0x68 → v.toNat = s.downX4.head) ∧ (off = 0x6C → v.toNat = s.downX2.head) ∧ (0x70 ≤ off → v = 0)

/-- What a host write of each offset other than CMD does: RW registers store the word, CTRL its bits 3:0 only, every
other register and reserved offset ignores it (20_memory.md R83, 10_state.md R42, R47, R48, R56). That the input is
taken and `answer` is emptied is the model's (log entries 1 and 6). -/
def Obligations.WriteStoresByAccessKind : Prop :=
  ∀ (s : State) (off : Nat) (w : Word) (rest : List Input), s.cfg.admitted = true → off % 4 = 0 → off ≤ 0xFC →
    off ≠ 0x1C → s.inputs = .write .word (s.cfg.base + off) w :: rest →
    ∃ t, step s = .next t ∧
      t.ctrl = (if off = 0x0C then w &&& 0x0000000F else s.ctrl) ∧
      t.hardness = (if off = 0x10 then w else s.hardness) ∧
      (∀ j : Fin 8, t.a[j] = if off = 0x20 + 4 * j.val then w else s.a[j]) ∧
      t = { s with ctrl := t.ctrl, hardness := t.hardness, a := t.a, inputs := rest, answer := none }

/-- An access of 1, 2 or 8 bytes, or a misaligned one, that touches the window has no step and sets no status bit: it is
refused (20_memory.md R84, 60_exceptions.md R297). That one whose address lies outside the window and whose bytes reach
into it counts as touching it is the model's choice (log entry 5). -/
def Obligations.UnadmittedAccessIsRefused : Prop :=
  ∀ (s : State) (size : Size) (addr : Nat) (w : Word) (rest : List Input), s.cfg.admitted = true →
    s.cfg.base < addr + size.bytes → addr < s.cfg.base + 256 → (size ≠ .word ∨ addr % 4 ≠ 0) →
    (s.inputs = .read size addr :: rest ∨ s.inputs = .write size addr w :: rest) →
    step s = .refused .accessNotAdmitted

/-- An access outside the window is none to this block: it changes nothing and answers nothing. The model's reading of
20_memory.md R84 (log entry 4); that the input is taken and `answer` is emptied is the model's (log entries 1 and
6). -/
def Obligations.OutsideAccessChangesNothing : Prop :=
  ∀ (s : State) (size : Size) (addr : Nat) (w : Word) (rest : List Input), s.cfg.admitted = true →
    (addr + size.bytes ≤ s.cfg.base ∨ s.cfg.base + 256 ≤ addr) →
    (s.inputs = .read size addr :: rest ∨ s.inputs = .write size addr w :: rest) →
    step s = .next { s with inputs := rest, answer := none }

/-- Hardware reset: every register 0, every slot 0, every head 0, the DC state 0; the configuration is unchanged
(70_reset_and_hazards.md R310). That the reset is an input which the step takes, and that later inputs stay, is the
model's (log entries 1 and 12). -/
def Obligations.HardwareResetClearsTheState : Prop :=
  ∀ (s : State) (rest : List Input), s.cfg.admitted = true → s.inputs = .reset :: rest →
    ∃ t, step s = .next t ∧ t.cfg = s.cfg ∧ t.ctrl = 0 ∧ t.hardness = 0 ∧ t.status = 0 ∧ t.errcmd = 0 ∧
      (∀ i : Fin 8, t.a[i] = 0) ∧ (∀ i : Fin 4, t.r[i] = 0) ∧
      (∀ b, (t.buf b).head = 0 ∧ ∀ i, (t.buf b).slots.read i = 0) ∧ t.xz1 = 0 ∧ t.yz1 = 0 ∧ t.inputs = rest

/-- An invalid configuration has no instance: no step (60_exceptions.md R297, 00_scope.md R20, R22, R24). -/
def Obligations.UnadmittedConfigurationHasNoStep : Prop :=
  ∀ s : State,
    (s.cfg.h2.length % 2 = 1 ∨ s.cfg.h2.length < 2 ∨ 65534 < s.cfg.h2.length ∨
      s.cfg.h4.length % 2 = 1 ∨ s.cfg.h4.length < 2 ∨ 65534 < s.cfg.h4.length ∨
      (s.cfg.backing = .small ∧ (254 < s.cfg.h2.length ∨ 254 < s.cfg.h4.length)) ∨
      (∃ w ∈ s.cfg.h2 ++ s.cfg.h4, isFinite w = false) ∨ s.cfg.base % 256 ≠ 0) →
    step s = .refused .configurationNotAdmitted

/-! ### Reset -/

/-- The reset state of every configuration (10_state.md R70); the configuration itself is the instance's. -/
def Obligations.ResetStateIsZero : Prop :=
  ∀ c : Config,
    let s := State.resetOf c
    s.cfg = c ∧ s.ctrl = 0 ∧ s.hardness = 0 ∧ s.status = 0 ∧ s.errcmd = 0 ∧ (∀ i : Fin 8, s.a[i] = 0) ∧
      (∀ i : Fin 4, s.r[i] = 0) ∧ (∀ b, (s.buf b).head = 0 ∧ ∀ i, (s.buf b).slots.read i = 0) ∧ s.xz1 = 0 ∧ s.yz1 = 0

/-- The reset state of every admitted configuration is a legal state, `State.reset` among them. That `State.reset` has
configuration TC1 is the model's choice (log entry 3). -/
def Obligations.ResetStateIsLegal : Prop :=
  (∀ c : Config, c.admitted = true → (State.resetOf c).wf = true) ∧ State.reset.wf = true

/-! ### The control family -/

/-- NOP and INIT change no state (46_control.md R270, R272). -/
def Obligations.NopAndInitChangeNothing : Prop :=
  ∀ s : State, exec .nop s = .next s ∧ exec .init s = .next s

/-- RST resets the buffers, the heads and the DC state, and no register (46_control.md R271). -/
def Obligations.RstResetsTheSignalState : Prop :=
  ∀ s : State, ∃ t, exec .rst s = .next t ∧
    (∀ b, (t.buf b).head = 0 ∧ ∀ i, (t.buf b).slots.read i = 0) ∧ t.xz1 = 0 ∧ t.yz1 = 0 ∧
    sameHostSide s t ∧ sameLatch s t ∧ resultsKeptFrom 0 s t

/-- CLRERR clears STATUS and ERRCMD and nothing else (46_control.md R273). -/
def Obligations.ClrerrClearsTheLatch : Prop :=
  ∀ s : State, ∃ t, exec .clrerr s = .next t ∧ t.status = 0 ∧ t.errcmd = 0 ∧
    sameHostSide s t ∧ sameDc s t ∧ resultsKeptFrom 0 s t ∧ ∀ b, bufferKept s t b

/-! ### The ring-buffer family -/

/-- PUSH b advances head_b and writes A0 into its slot, bit for bit, and nothing else (43_ringbuffer.md R211,
20_memory.md R90). -/
def Obligations.PushWritesOneSlot : Prop :=
  ∀ (s : State) (b : BufId), (s.buf b).slots.wf = true →
    ∃ t, exec (.push b) s = .next t ∧ slotPushed s.cfg b (s.buf b) (t.buf b) s.a[0] ∧
      sameHostSide s t ∧ sameLatch s t ∧ sameDc s t ∧ resultsKeptFrom 0 s t ∧ ∀ b', b' ≠ b → bufferKept s t b'

/-- TAP b, d of a legal delay gives R0 the word of the slot that the head and the delay index, and changes nothing else
(43_ringbuffer.md R212, 20_memory.md R91). -/
def Obligations.TapReadsTheDelayedSlot : Prop :=
  ∀ (s : State) (b : BufId) (d : Nat),
    (match s.cfg.backing with | .fixed => d < capacity s.cfg b | .small => d < 255) →
    ∃ t, exec (.tap b d) s = .next t ∧
      t.r[0] = (s.buf b).slots.read (match s.cfg.backing with
        | .fixed => (capacity s.cfg b + (s.buf b).head - d) % capacity s.cfg b
        | .small => (((s.buf b).head : Int) - d).emod 256 |>.toNat) ∧
      sameHostSide s t ∧ sameLatch s t ∧ sameDc s t ∧ resultsKeptFrom 1 s t ∧ ∀ b', bufferKept s t b'

/-- TAP b, d of an illegal delay raises TAP_RANGE with its own word, and writes nothing else, R0 included
(43_ringbuffer.md R212, 60_exceptions.md R282). -/
def Obligations.TapOutOfRangeLatchesTapRange : Prop :=
  ∀ (s : State) (b : BufId) (d : Nat), d < 65536 →
    (match s.cfg.backing with | .fixed => capacity s.cfg b ≤ d | .small => 255 ≤ d) →
    ∃ t, exec (.tap b d) s = .next t ∧
      errorLatched s t 2 (BitVec.ofNat 32 (0x11 + b.field.toNat * 2 ^ 8 + d * 2 ^ 12))

/-- BRST b zeroes every slot and the head of buffer b and nothing else (43_ringbuffer.md R213, 20_memory.md R92). -/
def Obligations.BrstResetsOneBuffer : Prop :=
  ∀ (s : State) (b : BufId), ∃ t, exec (.brst b) s = .next t ∧ (t.buf b).head = 0 ∧
    (∀ i, (t.buf b).slots.read i = 0) ∧ sameHostSide s t ∧ sameLatch s t ∧ sameDc s t ∧ resultsKeptFrom 0 s t ∧
    ∀ b', b' ≠ b → bufferKept s t b'

/-- The delay-line law: after the pushes v_1 .. v_n into a reset buffer, a legal tap of delay d gives v_(n−d), or 0 for
d ≥ n; so both backings give the same word (20_memory.md R93). -/
def Obligations.DelayLineReturnsThePushedWord : Prop :=
  ∀ (s : State) (b : BufId) (ws : List Word) (d : Nat), s.buf b = Buffer.empty →
    (match s.cfg.backing with | .fixed => d < capacity s.cfg b | .small => d < 255) →
    bufTap (pushAll b s ws) b d = some (if d < ws.length then ws.getD (ws.length - 1 - d) 0 else 0)

/-! ### The multirate family -/

/-- The capacities are those of 10_state.md R60, and in an admitted configuration every delay the stage commands tap is
legal (44_multirate.md R238). -/
def Obligations.CapacitiesCoverTheFirTaps : Prop :=
  ∀ c : Config,
    (c.backing = .small → ∀ b, capacity c b = 256) ∧
    (c.backing = .fixed → capacity c .upX2 = c.h2.length / 2 + 1 ∧ capacity c .upX4 = c.h4.length / 2 + 1 ∧
      capacity c .downX4 = c.h4.length + 1 ∧ capacity c .downX2 = c.h2.length + 1) ∧
    (c.admitted = true → ∀ k,
      (k < c.h2.length / 2 → k < tapLimit c .upX2) ∧ (k < c.h4.length / 2 → k < tapLimit c .upX4) ∧
      (k < c.h4.length → k < tapLimit c .downX4) ∧ (k < c.h2.length → k < tapLimit c .downX2))

/-- UP2X and UP4X push A0 and give R0 and R1 twice the even and the odd polyphase sums over the checked taps
(44_multirate.md R230, R232, R233). -/
def Obligations.UpStagesGiveThePolyphaseSums : Prop :=
  ∀ s : State, s.cfg.admitted = true → (∀ b, (s.buf b).slots.wf = true) →
    (∃ t, exec .up2x s = .next t ∧ slotPushed s.cfg .upX2 s.upX2 t.upX2 s.a[0] ∧
      t.r[0] = fmul 0x40000000 (firOver t .upX2 (fun k => s.cfg.h2.getD (2 * k) 0) (s.cfg.h2.length / 2)) ∧
      t.r[1] = fmul 0x40000000 (firOver t .upX2 (fun k => s.cfg.h2.getD (2 * k + 1) 0) (s.cfg.h2.length / 2)) ∧
      sameHostSide s t ∧ sameLatch s t ∧ sameDc s t ∧ resultsKeptFrom 2 s t ∧ ∀ b, b ≠ .upX2 → bufferKept s t b) ∧
    (∃ t, exec .up4x s = .next t ∧ slotPushed s.cfg .upX4 s.upX4 t.upX4 s.a[0] ∧
      t.r[0] = fmul 0x40000000 (firOver t .upX4 (fun k => s.cfg.h4.getD (2 * k) 0) (s.cfg.h4.length / 2)) ∧
      t.r[1] = fmul 0x40000000 (firOver t .upX4 (fun k => s.cfg.h4.getD (2 * k + 1) 0) (s.cfg.h4.length / 2)) ∧
      sameHostSide s t ∧ sameLatch s t ∧ sameDc s t ∧ resultsKeptFrom 2 s t ∧ ∀ b, b ≠ .upX4 → bufferKept s t b)

/-- DN4X and DN2X push A0 and then A1 and give R0 the sum over all taps (44_multirate.md R231, R234, R235). -/
def Obligations.DownStagesGiveTheFirSum : Prop :=
  ∀ s : State, s.cfg.admitted = true → (∀ b, (s.buf b).slots.wf = true) →
    (∃ t mid, exec .dn4x s = .next t ∧ slotPushed s.cfg .downX4 s.downX4 mid s.a[0] ∧
      slotPushed s.cfg .downX4 mid t.downX4 s.a[1] ∧
      t.r[0] = firOver t .downX4 (fun k => s.cfg.h4.getD k 0) s.cfg.h4.length ∧
      sameHostSide s t ∧ sameLatch s t ∧ sameDc s t ∧ resultsKeptFrom 1 s t ∧ ∀ b, b ≠ .downX4 → bufferKept s t b) ∧
    (∃ t mid, exec .dn2x s = .next t ∧ slotPushed s.cfg .downX2 s.downX2 mid s.a[0] ∧
      slotPushed s.cfg .downX2 mid t.downX2 s.a[1] ∧
      t.r[0] = firOver t .downX2 (fun k => s.cfg.h2.getD k 0) s.cfg.h2.length ∧
      sameHostSide s t ∧ sameLatch s t ∧ sameDc s t ∧ resultsKeptFrom 1 s t ∧ ∀ b, b ≠ .downX2 → bufferKept s t b)

/-- OS4 is the host sequence of R243, from every state and for both values of DCB_EN and INNER_SEL: the same R0, and the
same state but for A0 to A7 and R1 to R3, which OS4 keeps (44_multirate.md R243, R241). -/
def Obligations.Os4IsItsDecomposition : Prop :=
  ∀ s : State, ∃ t, exec .os4 s = .next t ∧ t.r[0] = (hostCascade s).r[0] ∧
    t = { hostCascade s with a := s.a, r := t.r } ∧ sameHostSide s t ∧ sameLatch s t ∧ resultsKeptFrom 1 s t

/-- OS4 with DCB_EN = 0 leaves the DC state alone; with DCB_EN = 1 it takes one DC step of A0 (45_dcblock.md R263, R261;
44_multirate.md R241). -/
def Obligations.Os4TouchesDcStateOnlyWhenEnabled : Prop :=
  ∀ s : State, ∃ t, exec .os4 s = .next t ∧
    (s.ctrl.getLsbD 2 = false → sameDc s t) ∧
    (s.ctrl.getLsbD 2 = true →
      t.xz1 = s.a[0] ∧ t.yz1 = fadd (fsub s.a[0] s.xz1) (fmul 0x3F7F5C29 s.yz1))

/-- The frame of OS4 on the buffers: it pushes 1, 2, 4 and 2 words, so each head advances that many times and every slot
other than those the head passes reads as before (44_multirate.md R241, R242). -/
def Obligations.Os4StoresOnlyWhereTheHeadsPass : Prop :=
  ∀ (s : State), (∀ b, (s.buf b).slots.wf = true) →
    ∃ t, exec .os4 s = .next t ∧ ∀ b,
      (t.buf b).head = (nextHead s.cfg b)^[os4Pushes b] (s.buf b).head ∧
      ∀ i, (∀ j < os4Pushes b, i ≠ (nextHead s.cfg b)^[j + 1] (s.buf b).head) →
        (t.buf b).slots.read i = (s.buf b).slots.read i

/-- The lock-step invariant: from heads at 0, after k OS4 commands alone the heads are k, 2k, 4k and 2k modulo the
capacities (44_multirate.md R242). -/
def Obligations.HeadsStayInLockStep : Prop :=
  ∀ (s : State) (xs : List Word), (∀ b, (s.buf b).head = 0) →
    ((os4Run s xs).upX2.head = xs.length % capacity s.cfg .upX2) ∧
    ((os4Run s xs).upX4.head = 2 * xs.length % capacity s.cfg .upX4) ∧
    ((os4Run s xs).downX4.head = 4 * xs.length % capacity s.cfg .downX4) ∧
    ((os4Run s xs).downX2.head = 2 * xs.length % capacity s.cfg .downX2)

/-- What makes the whole FIR sum the canonical NaN (44_multirate.md R239): a NaN among the tapped words, through any
coefficient; an infinity among them, through a zero coefficient; two infinities whose products have opposite signs, as
those of coefficients of both signs have. A sum with one infinite product is left to R230 and R231 (log entry 21). -/
def Obligations.NanSampleMakesTheFirSumNan : Prop :=
  ∀ (s : State) (b : BufId) (coef : Nat → Word) (n k : Nat) (w : Word), k < n → bufTap s b k = some w →
    (isNaN w = true → firOver s b coef n = 0x7FC00000) ∧
    (isInf w = true → isZero (coef k) = true → firOver s b coef n = 0x7FC00000) ∧
    (∀ (j : Nat) (v : Word), j < n → bufTap s b j = some v → isInf w = true → isInf v = true →
      isZero (coef k) = false → isZero (coef j) = false →
      (signOf (coef k) != signOf w) ≠ (signOf (coef j) != signOf v) → firOver s b coef n = 0x7FC00000)

/-! ### The waveshaper family -/

/-- VarHardClip line by line (41_waveshaper.md R141). -/
def Obligations.VarHardClipFollowsItsLines : Prop :=
  ∀ (c : Config) (x h : Word) (t : Tier),
    let xc := fclamp x 0xC1800000 0x41800000
    let hc := fminc h 0x3F6F5C29
    let fade := fdiv (fsub h hc) 0x3D851EB8
    let soft := fsub 0x3F000000 (fmul 0x3F000000 hc)
    let inv := fdiv 0x3F800000 soft
    let p1 := powTier c t (fabs xc) inv
    let s1 := fadd 0x3F800000 p1
    let p2 := powTier c t s1 soft
    let analog := fdiv xc p2
    let digital := fclamp xc 0xBF800000 0x3F800000
    varHardClip c x h t = fadd (fmul analog (fsub 0x3F800000 fade)) (fmul digital fade)

/-- CLIP writes VarHardClip of A0, under HARDNESS and POW_TIER, to R0 and nothing else (41_waveshaper.md R143). -/
def Obligations.ClipWritesOnlyItsResult : Prop :=
  ∀ s : State, ∃ t, exec .clip s = .next t ∧
    t.r[0] = varHardClip s.cfg s.a[0] s.hardness (Tier.ofBits (s.ctrl.extractLsb' 0 2)) ∧
    sameHostSide s t ∧ sameLatch s t ∧ sameDc s t ∧ resultsKeptFrom 1 s t ∧ ∀ b, bufferKept s t b

/-- Each lane of CLIP4 is what CLIP gives with A0 = A[i], and CLIP4 writes R0 to R3 alone (41_waveshaper.md R144). -/
def Obligations.Clip4LanesAreClips : Prop :=
  ∀ s : State, ∃ t, exec .clip4 s = .next t ∧
    (∀ i : Fin 4, ∃ u, exec .clip (withA s 0 (laneX s i)) = .next u ∧ t.r[i] = u.r[0]) ∧
    sameHostSide s t ∧ sameLatch s t ∧ sameDc s t ∧ ∀ b, bufferKept s t b

/-- The plateau: every x ≥ 16 gives the result of 16, every x ≤ −16 that of −16 (41_waveshaper.md R145 (c)). -/
def Obligations.ShaperIsFlatBeyondSixteen : Prop :=
  ∀ (c : Config) (x h : Word) (t : Tier),
    (flt x 0x41800000 = false → isNaN x = false → varHardClip c x h t = varHardClip c 0x41800000 h t) ∧
    (fgt x 0xC1800000 = false → isNaN x = false → varHardClip c x h t = varHardClip c 0xC1800000 h t)

/-- A NaN input, a NaN hardness and a hardness of −∞ give the canonical NaN, and so does a hardness of +∞: in tiers
exact and fast always, in the other two, whose words are as built, where the soft curve has the sign of the clamped
input (41_waveshaper.md R142, R143). -/
def Obligations.ShaperNanRules : Prop :=
  (∀ (c : Config) (x h : Word) (t : Tier), (isNaN x = true ∨ isNaN h = true ∨ h = 0xFF800000) →
    varHardClip c x h t = 0x7FC00000) ∧
  (∀ (c : Config) (x : Word) (t : Tier),
    (t = .exact ∨ t = .fast ∨
      signOf (shaperAnalog c (shaperInput x) (shaperSoftness 0x7F800000) t) = signOf (shaperInput x)) →
    varHardClip c x 0x7F800000 t = 0x7FC00000)

/-- The hard clip at h = 1: for a nonzero x whose soft curve is finite, the result is x clamped to [−1, 1], bit for bit;
+0 and −0 give themselves in every tier that has its default body (41_waveshaper.md R145 (b), R143). -/
def Obligations.ShaperIsAHardClipAtOne : Prop :=
  (∀ (c : Config) (x : Word) (t : Tier), isNaN x = false → isZero x = false →
    isFinite (shaperAnalog c (shaperInput x) (shaperSoftness 0x3F800000) t) = true →
    varHardClip c x 0x3F800000 t = fclamp x 0xBF800000 0x3F800000) ∧
  (∀ (c : Config) (t : Tier), (t = .faster → c.faster = .default) → (t = .fastest → c.fastest = .default) →
    varHardClip c 0x00000000 0x3F800000 t = 0x00000000 ∧ varHardClip c 0x80000000 0x3F800000 t = 0x80000000)

/-! ### The fast-pow family -/

/-- POW.E, POW.F, POW.FR and POW.FT with A0 not below 0 write the tier's pow of A0 and A1 to R0 and nothing else
(42_fastpow.md R180 to R183, R178). The tiers are: cr_pow; R172 on x + ε (R171); the default bodies of R173 on the
lines of R174 and R175, and of R176 and R177. That a replaced body also gets x + ε is the model's (log entry 9). -/
def Obligations.ScalarPowWritesOnlyItsResult : Prop :=
  (∀ s : State, flt s.a[0] 0 = false → ∀ p ∈ [(Instr.powE, Tier.exact), (.powF, .fast), (.powFR, .faster),
      (.powFT, .fastest)],
    ∃ t, exec p.1 s = .next t ∧ t.r[0] = powTier s.cfg p.2 s.a[0] s.a[1] ∧
      sameHostSide s t ∧ sameLatch s t ∧ sameDc s t ∧ resultsKeptFrom 1 s t ∧ ∀ b, bufferKept s t b) ∧
  (∀ (c : Config) (x y : Word),
    let xe := fadd x 0x0DA24260
    powTier c .exact x y = crPow x y ∧
    (flt x 0 = false → powTier c .fast x y = crExp2 (fmul y (crLog2 xe))) ∧
    (c.faster = .default → powTier c .faster x y =
      let m := (xe &&& 0x007FFFFF) ||| 0x3F000000
      let l := fmul (u32ToF32 xe.toNat) 0x34000000
      let log2 := fsub (fsub (fsub l 0x42F87377) (fmul 0x3FBFBF75 m)) (fdiv 0x3FDCE9A3 (fadd 0x3EB444F9 m))
      let p := fmul y log2
      let offset := if flt p 0 = true then 0x3F800000 else 0
      let clipp := if flt p 0xC2FC0000 = true then 0xC2FC0000 else p
      let z := fadd (fsub clipp (i32ToF32 (f32ToI32 clipp))) offset
      let v := fsub (fadd (fadd clipp 0x42F28C51) (fdiv 0x41DDD2FE (fsub 0x409AF5F8 z))) (fmul 0x3FBEBC8D z)
      f32ToU32 (fmul 0x4B000000 v)) ∧
    (c.fastest = .default → powTier c .fastest x y =
      let p := fmul y (fsub (fmul (u32ToF32 xe.toNat) 0x34000000) 0x42FDE2A9)
      let clipp := if flt p 0xC2FC0000 = true then 0xC2FC0000 else p
      f32ToU32 (fmul 0x4B000000 (fadd clipp 0x42FDE2A9))) ∧
    (c.faster = .replaced → powTier c .faster x y = Config.powFaster xe y) ∧
    (c.fastest = .replaced → powTier c .fastest x y = Config.powFastest xe y))

/-- Each lane of a POW4 command is what the scalar command of its tier gives with A0 = A[i] and A1 = A[4+i], when no
lane's base is below 0; R0 to R3 alone are written (42_fastpow.md R184 to R187). -/
def Obligations.Pow4LanesAreScalarPows : Prop :=
  ∀ s : State, (∀ i : Fin 4, flt (laneX s i) 0 = false) →
    ∀ p ∈ [(Instr.pow4E, Instr.powE), (.pow4F, .powF), (.pow4FR, .powFR), (.pow4FT, .powFT)],
      ∃ t, exec p.1 s = .next t ∧
        (∀ i : Fin 4, ∃ u, exec p.2 (withA (withA s 0 (laneX s i)) 1 (laneY s i)) = .next u ∧ t.r[i] = u.r[0]) ∧
        sameHostSide s t ∧ sameLatch s t ∧ sameDc s t ∧ ∀ b, bufferKept s t b

/-- A base below 0 in A0 (scalar) or in any of A0 to A3 (4-wide) raises POW_DOMAIN, and nothing else changes, every lane
included. A pattern is below 0 exactly from the smallest negative subnormal up to −∞: −0 and every NaN are not
(42_fastpow.md R179, 60_exceptions.md R282). -/
def Obligations.NegativeBaseLatchesPowDomain : Prop :=
  ∀ s : State,
    (0x80000000 < s.a[0].toNat → s.a[0].toNat ≤ 0xFF800000 → ∀ p ∈ [(Instr.powE, (0x40 : Word)), (.powF, 0x41),
      (.powFR, 0x42), (.powFT, 0x43)], ∃ t, exec p.1 s = .next t ∧ errorLatched s t 3 p.2) ∧
    ((∃ i : Fin 4, 0x80000000 < (laneX s i).toNat ∧ (laneX s i).toNat ≤ 0xFF800000) →
      ∀ p ∈ [(Instr.pow4E, (0x44 : Word)), (.pow4F, 0x45), (.pow4FR, 0x46), (.pow4FT, 0x47)],
        ∃ t, exec p.1 s = .next t ∧ errorLatched s t 3 p.2) ∧
    (∀ w : Word, negativeOperand w = true ↔ 0x80000000 < w.toNat ∧ w.toNat ≤ 0xFF800000)

/-- The special cases of cr_pow, in their order (00_scope.md R17, cases 1 to 6), and those of cr_exp2. -/
def Obligations.CrPowSpecialCases : Prop :=
  ∀ x y : Word,
    (isZero y = true → crPow x y = 0x3F800000) ∧ crPow 0x3F800000 y = 0x3F800000 ∧
    (isZero y = false → x ≠ 0x3F800000 → (isNaN x = true ∨ isNaN y = true) → crPow x y = 0x7FC00000) ∧
    (isNaN y = false → isZero x = true →
      (fgt y 0 = true → crPow x y = 0) ∧ (flt y 0 = true → crPow x y = 0x7F800000)) ∧
    (isNaN y = false →
      (fgt y 0 = true → crPow 0x7F800000 y = 0x7F800000) ∧ (flt y 0 = true → crPow 0x7F800000 y = 0)) ∧
    (isFinite x = true → fgt x 0 = true →
      (flt x 0x3F800000 = true → crPow x 0x7F800000 = 0 ∧ crPow x 0xFF800000 = 0x7F800000) ∧
      (fgt x 0x3F800000 = true → crPow x 0x7F800000 = 0x7F800000 ∧ crPow x 0xFF800000 = 0)) ∧
    (isNaN x = true → crExp2 x = 0x7FC00000) ∧ crExp2 0xFF800000 = 0 ∧ crExp2 0x7F800000 = 0x7F800000

/-- Case 7 of cr_pow: x^y rounded once to nearest even, over the reals, for positive finite x other than 1 and finite
nonzero y; and cr_exp2 of every finite v is 2^v so rounded (00_scope.md R17). The magnitude pattern of +∞ is the rounded
value from the last midpoint on. -/
def Obligations.CrPowIsCorrectlyRounded : Prop :=
  (∀ x y : Word, isFinite x = true → isFinite y = true → signOf x = false → isZero x = false → isZero y = false →
    x ≠ 0x3F800000 →
    ∃ g, crPow x y = BitVec.ofNat 32 g ∧
      NearestEven (((unitsOf x : ℝ) / 2 ^ 149) ^ ((signedUnits y : ℝ) / 2 ^ 149)) g) ∧
  (∀ v : Word, isFinite v = true →
    ∃ g, crExp2 v = BitVec.ofNat 32 g ∧ NearestEven ((2 : ℝ) ^ ((signedUnits v : ℝ) / 2 ^ 149)) g)

/-- cr_log2 of a positive finite value other than 1 is the real logarithm rounded once to nearest even; its special
cases are those of 00_scope.md R17. -/
def Obligations.CrLog2IsCorrectlyRounded : Prop :=
  (∀ v : Word, isFinite v = true → signOf v = false → isZero v = false → v ≠ 0x3F800000 →
    ∃ neg g, crLog2 v = withSign neg g ∧ NearestEven |Real.logb 2 ((unitsOf v : ℝ) / 2 ^ 149)| g ∧
      (neg = true ↔ Real.logb 2 ((unitsOf v : ℝ) / 2 ^ 149) < 0)) ∧
  (∀ v : Word, (isNaN v = true → crLog2 v = 0x7FC00000) ∧ (isZero v = true → crLog2 v = 0xFF800000)) ∧
  crLog2 0x7F800000 = 0x7F800000 ∧ crLog2 0x3F800000 = 0

/-! ### Arithmetic -/

/-- The rounding is to nearest, ties to even, of every nonnegative rational (00_scope.md R11). -/
def Obligations.RoundingIsToNearestEven : Prop :=
  ∀ n d : Nat, 0 < d → NearestEven ((n : ℝ) / d) (roundMag n d)

/-- Addition, subtraction, multiplication and division of finite values are the exact results rounded once
(00_scope.md R11). That a zero product or quotient takes the exclusive-or of the signs is PRESUMED (log entry 11); the
sign of a zero sum or difference is left open. -/
def Obligations.ArithmeticIsCorrectlyRounded : Prop :=
  ∀ a b : Word, isFinite a = true → isFinite b = true →
    let va : ℝ := (signedUnits a : ℝ) / 2 ^ 149
    let vb : ℝ := (signedUnits b : ℝ) / 2 ^ 149
    (∃ neg g, fadd a b = withSign neg g ∧ NearestEven |va + vb| g ∧ (va + vb < 0 → neg = true) ∧
      (0 < va + vb → neg = false)) ∧
    (∃ neg g, fsub a b = withSign neg g ∧ NearestEven |va - vb| g ∧ (va - vb < 0 → neg = true) ∧
      (0 < va - vb → neg = false)) ∧
    (∃ g, fmul a b = withSign (signOf a != signOf b) g ∧ NearestEven |va * vb| g) ∧
    (isZero b = false → ∃ g, fdiv a b = withSign (signOf a != signOf b) g ∧ NearestEven |va / vb| g)

/-- The invalid operations and divisions by zero of 00_scope.md R11. -/
def Obligations.InvalidOperationsGiveTheCanonicalNan : Prop :=
  ∀ a b : Word,
    ((isNaN a = true ∨ isNaN b = true) → fadd a b = 0x7FC00000 ∧ fsub a b = 0x7FC00000 ∧ fmul a b = 0x7FC00000 ∧
      fdiv a b = 0x7FC00000) ∧
    (isInf a = true → isInf b = true → signOf a ≠ signOf b → fadd a b = 0x7FC00000) ∧
    (isInf a = true → isInf b = true → signOf a = signOf b → fsub a b = 0x7FC00000) ∧
    (isZero a = true → isInf b = true → fmul a b = 0x7FC00000 ∧ fmul b a = 0x7FC00000) ∧
    (isZero a = true → isZero b = true → fdiv a b = 0x7FC00000) ∧
    (isInf a = true → isInf b = true → fdiv a b = 0x7FC00000) ∧
    (isFinite a = true → isZero a = false → isZero b = true →
      fdiv a b = withSign (signOf a != signOf b) 0x7F800000)

/-- Every NaN that arithmetic, a clamp, VarHardClip or the DC block produces is the canonical one (00_scope.md R12). -/
def Obligations.ProducedNansAreCanonical : Prop :=
  (∀ a b : Word, (isNaN (fadd a b) = true → fadd a b = 0x7FC00000) ∧ (isNaN (fsub a b) = true → fsub a b = 0x7FC00000) ∧
    (isNaN (fmul a b) = true → fmul a b = 0x7FC00000) ∧ (isNaN (fdiv a b) = true → fdiv a b = 0x7FC00000)) ∧
  (∀ v lo hi : Word, isNaN lo = false → isNaN hi = false →
    (isNaN (fclamp v lo hi) = true → fclamp v lo hi = 0x7FC00000) ∧
    (isNaN (fminc v hi) = true → fminc v hi = 0x7FC00000)) ∧
  (∀ (c : Config) (x h : Word) (t : Tier), isNaN (varHardClip c x h t) = true → varHardClip c x h t = 0x7FC00000) ∧
  (∀ x xz1 yz1 : Word, isNaN (dcOutput x xz1 yz1) = true → dcOutput x xz1 yz1 = 0x7FC00000)

/-- The ordered comparison of finite values is that of the values, and false with a NaN (00_scope.md R16). -/
def Obligations.ComparisonsOrderTheValues : Prop :=
  ∀ a b : Word,
    (isFinite a = true → isFinite b = true → (flt a b = true ↔ signedUnits a < signedUnits b)) ∧
    (isFinite a = true → isFinite b = true → (feq a b = true ↔ signedUnits a = signedUnits b)) ∧
    ((isNaN a = true ∨ isNaN b = true) → flt a b = false ∧ fgt a b = false ∧ feq a b = false)

/-- The integer conversions (00_scope.md R18): nearest even from integers; truncation, saturation, and NaN to 0 back.
The last clause, on infinities, is the model's inference (log entry 22). -/
def Obligations.ConversionsFollowTheirRules : Prop :=
  (∀ n : Nat, n < 2 ^ 32 → ∃ g, u32ToF32 n = withSign false g ∧ NearestEven n g) ∧
  (∀ z : Int, -2 ^ 31 ≤ z → z < 2 ^ 31 → ∃ g, i32ToF32 z = withSign (decide (z < 0)) g ∧ NearestEven |(z : ℝ)| g) ∧
  (∀ w : Word, isNaN w = true → f32ToI32 w = 0 ∧ f32ToU32 w = 0) ∧
  (∀ w : Word, isFinite w = true →
    f32ToI32 w = max (-2 ^ 31) (min (2 ^ 31 - 1) ((signedUnits w).tdiv (2 ^ 149))) ∧
    ((f32ToU32 w).toNat : Int) = max 0 (min (2 ^ 32 - 1) ((signedUnits w).tdiv (2 ^ 149)))) ∧
  (f32ToI32 0x7F800000 = 2 ^ 31 - 1 ∧ f32ToI32 0xFF800000 = -2 ^ 31 ∧ f32ToU32 0x7F800000 = 0xFFFFFFFF ∧
    f32ToU32 0xFF800000 = 0)

/-! ### The DC-block family -/

/-- DCB writes the one-pole output to R0, the input word to x_z1 and the output to y_z1, and nothing else, whatever
CTRL is (45_dcblock.md R261, R262). -/
def Obligations.DcbTakesOneStep : Prop :=
  ∀ s : State, ∃ t, exec .dcb s = .next t ∧
    t.r[0] = fadd (fsub s.a[0] s.xz1) (fmul 0x3F7F5C29 s.yz1) ∧ t.xz1 = s.a[0] ∧ t.yz1 = t.r[0] ∧
    sameHostSide s t ∧ sameLatch s t ∧ resultsKeptFrom 1 s t ∧ ∀ b, bufferKept s t b

/-- The NaN is sticky: once y_z1 is a NaN, every later DCB gives the canonical NaN, whatever the inputs
(45_dcblock.md R262). -/
def Obligations.DcNanIsSticky : Prop :=
  ∀ (s : State) (xs : List Word) (x : Word), isNaN s.yz1 = true →
    (after .dcb (withA (xs.foldl (fun s x => after .dcb (withA s 0 x)) s) 0 x)).r[0] = 0x7FC00000

/-! ### Errors and the whole machine -/

/-- The error latch: ERR, CAUSE and ERRCMD for the first error, OVF for a later one, nothing else
(60_exceptions.md R282). -/
def Obligations.RaisedErrorChangesOnlyTheLatch : Prop :=
  ∀ (s : State) (w : Word),
    errorLatched s (raiseError .illegalCmd w s) 1 w ∧ errorLatched s (raiseError .tapRange w s) 2 w ∧
      errorLatched s (raiseError .powDomain w s) 3 w

/-- Every command gives a next state in every state: no command stops the block (60_exceptions.md R285;
70_reset_and_hazards.md R331). -/
def Obligations.EveryCommandCompletes : Prop :=
  ∀ (i : Instr) (s : State), ∃ t, exec i s = .next t

/-- A command changes the latch only as CLRERR, or by its one execution-time error: TAP_RANGE of TAP, POW_DOMAIN of the
POW commands, with its own word (60_exceptions.md R281, R283, R284). -/
def Obligations.CommandsRaiseOnlyTheirOwnError : Prop :=
  ∀ (i : Instr) (s t : State), exec i s = .next t →
    sameLatch s t ∨ i = .clrerr ∨
      (∃ b d, i = .tap b d ∧ tapLimit s.cfg b ≤ d ∧ errorLatched s t 2 (encode i)) ∨
      (i ∈ [.powE, .powF, .powFR, .powFT] ∧ flt s.a[0] 0 = true ∧ errorLatched s t 3 (encode i)) ∨
      (i ∈ [.pow4E, .pow4F, .pow4FR, .pow4FT] ∧ (∃ l : Fin 4, flt (laneX s l) 0 = true) ∧ errorLatched s t 3 (encode i))

/-- No command writes the operands, the controls or the configuration (10_state.md R42, R65). -/
def Obligations.CommandsKeepTheHostSide : Prop :=
  ∀ (i : Instr) (s t : State), exec i s = .next t → sameHostSide s t

/-- A command changes a buffer only if it is one of those R61 lists for it (10_state.md R61). -/
def Obligations.OnlyListedCommandsChangeBuffers : Prop :=
  ∀ (i : Instr) (s t : State) (b : BufId), exec i s = .next t → t.buf b ≠ s.buf b →
    i ∈ [.push b, .brst b, .os4, .rst, match b with | .upX2 => .up2x | .upX4 => .up4x | .downX4 => .dn4x | .downX2 => .dn2x]

/-- A command changes the DC state only if it is DCB, RST, or OS4 with DCB_EN = 1 (10_state.md R62). -/
def Obligations.OnlyListedCommandsChangeDcState : Prop :=
  ∀ (i : Instr) (s t : State), exec i s = .next t → ¬ sameDc s t →
    i = .dcb ∨ i = .rst ∨ (i = .os4 ∧ s.ctrl.getLsbD 2 = true)

/-- The configuration is constant for the life of the instance (10_state.md R65). -/
def Obligations.ConfigurationIsConstant : Prop :=
  ∀ s t : State, step s = .next t → t.cfg = s.cfg

/-- Every step keeps the legal states: heads below the capacities, slots canonical and below them, CTRL and STATUS
without reserved bits, ERRCMD 0 while ERR is 0, a produced cause while it is 1 (10_state.md R47, R49, R50, R60). -/
def Obligations.StepKeepsLegalStates : Prop :=
  ∀ s t : State, s.wf = true → step s = .next t → t.wf = true

/-- A host that issues only admitted accesses and accesses to other devices is never stopped, however long it runs
(20_memory.md R81, R84; 60_exceptions.md R284). That an access outside the window has a step, which changes nothing, is
the model's reading (log entry 4), and so is the list of inputs that the steps take (log entry 1). -/
def Obligations.AdmittedHostIsNeverStopped : Prop :=
  ∀ (s : State) (k : Nat), s.cfg.admitted = true → (∀ inp ∈ s.inputs, inputAdmitted s.cfg inp = true) →
    ∃ t, Host.Core.run Sys2Proof.core k s = .next t
end

