-- ==== Sys2Proof/Laws/Binary32.lean ====
section
/-! SUPPORT. Patterns taken apart and put together, the order of the magnitudes, one rounded quotient, and what the
primitives do with a NaN. -/

namespace Sys2Proof.Machine

/-! ### Patterns -/

theorem magOf_lt (w : Word) : magOf w < 0x80000000 := Nat.mod_lt _ (by decide)

theorem signOf_iff (w : Word) : signOf w = true ↔ 0x80000000 ≤ w.toNat := by
  simp [signOf, BitVec.msb_eq_decide]

/-- A pattern is its sign and its magnitude. -/
theorem withSign_signOf_magOf (w : Word) : withSign (signOf w) (magOf w) = w := by
  have h := signOf_iff w
  have hw := w.isLt
  apply BitVec.eq_of_toNat_eq
  simp only [withSign, magOf, BitVec.toNat_ofNat]
  cases hs : signOf w
  · have : ¬ 0x80000000 ≤ w.toNat := fun hc => by simp [h.2 hc] at hs
    simp only [Bool.false_eq_true, if_false]; omega
  · have := h.1 hs
    simp only [if_true]; omega

theorem toNat_withSign {neg : Bool} {m : Nat} (h : m < 0x80000000) :
    (withSign neg m).toNat = if neg then 0x80000000 + m else m := by
  simp only [withSign, BitVec.toNat_ofNat]
  split <;> omega

@[simp] theorem magOf_withSign {neg : Bool} {m : Nat} (h : m < 0x80000000) : magOf (withSign neg m) = m := by
  rw [magOf, toNat_withSign h]
  split <;> omega

@[simp] theorem signOf_withSign {neg : Bool} {m : Nat} (h : m < 0x80000000) : signOf (withSign neg m) = neg := by
  have hs := signOf_iff (withSign neg m)
  rw [toNat_withSign h] at hs
  cases neg
  · simp only [Bool.false_eq_true, if_false] at hs
    exact Bool.eq_false_iff.2 fun hc => by have := hs.1 hc; omega
  · exact hs.2 (by simp)

/-- A magnitude up to that of ∞ is no NaN, whatever its sign. -/
theorem isNaN_withSign {neg : Bool} {m : Nat} (h : m ≤ infMag) : isNaN (withSign neg m) = false := by
  have : infMag < 0x80000000 := by decide
  rw [isNaN, magOf_withSign (by omega)]
  simpa using h

theorem roundMag_le (n d : Nat) : roundMag n d ≤ infMag := Nat.min_le_right _ _

theorem isNaN_roundSigned (z : Int) (d : Nat) : isNaN (roundSigned z d) = false := isNaN_withSign (roundMag_le _ _)

@[simp] theorem isNaN_canonicalNaN : isNaN canonicalNaN = true := by decide

/-! ### Negation -/

theorem magOf_fneg (w : Word) : magOf (fneg w) = magOf w := by
  have h : magOf w = (w.setWidth 31).toNat := by simp [magOf]
  have h' : magOf (fneg w) = ((fneg w).setWidth 31).toNat := by simp [magOf]
  rw [h, h']
  congr 1
  ext i hi
  have : i ≠ 31 := by omega
  simp only [fneg, BitVec.getElem_setWidth, BitVec.getLsbD_xor]
  rw [show (0x80000000 : Word).getLsbD i = decide (i = 31) from by
    rw [show (0x80000000 : Word) = BitVec.twoPow 32 31 from rfl, BitVec.getLsbD_twoPow]
    simp [eq_comm]]
  simp [this]

@[simp] theorem signOf_fneg (w : Word) : signOf (fneg w) = !signOf w := by
  rw [signOf, fneg, BitVec.msb_xor, show (0x80000000 : Word).msb = true from by decide, Bool.xor_true, signOf]

@[simp] theorem isNaN_fneg (w : Word) : isNaN (fneg w) = isNaN w := by simp [isNaN, magOf_fneg]

@[simp] theorem isInf_fneg (w : Word) : isInf (fneg w) = isInf w := by simp [isInf, magOf_fneg]

@[simp] theorem isFinite_fneg (w : Word) : isFinite (fneg w) = isFinite w := by simp [isFinite, magOf_fneg]

theorem signedUnits_fneg (w : Word) : signedUnits (fneg w) = -signedUnits w := by
  simp only [signedUnits, unitsOf, magOf_fneg, signOf_fneg]
  cases signOf w <;> simp

/-! ### The order of the magnitudes -/

/-- The next magnitude pattern holds a greater value. -/
theorem unitsOfMag_lt_succ (m : Nat) : unitsOfMag m < unitsOfMag (m + 1) := by
  unfold unitsOfMag
  split
  · split
    · omega
    · next h1 h2 =>
      have : m + 1 = 0x800000 := by omega
      rw [this]; norm_num; omega
  · next h =>
    rw [if_neg (by omega)]
    obtain ⟨q, r, hr, hm⟩ : ∃ q r, r < 0x800000 ∧ m = 0x800000 * (q + 1) + r :=
      ⟨m / 0x800000 - 1, m % 0x800000, Nat.mod_lt _ (by decide), by omega⟩
    have hp : 0 < 2 ^ q := Nat.two_pow_pos q
    rw [show m % 0x800000 = r by omega, show m / 0x800000 - 1 = q by omega]
    by_cases hc : r + 1 < 0x800000
    · rw [show (m + 1) % 0x800000 = r + 1 by omega, show (m + 1) / 0x800000 - 1 = q by omega]
      exact Nat.mul_lt_mul_of_pos_right (by omega) hp
    · rw [show (m + 1) % 0x800000 = 0 by omega, show (m + 1) / 0x800000 - 1 = q + 1 by omega, Nat.pow_succ]
      nlinarith

/-- Magnitude patterns order as their values do. -/
theorem unitsOfMag_strictMono : StrictMono unitsOfMag := strictMono_nat_of_lt_succ unitsOfMag_lt_succ

/-! ### One rounded quotient -/

/-- The quotient is at most half away, and exactly half away only when it is even. -/
theorem divNearestEven_spec (a : Nat) {b : Nat} (hb : 0 < b) :
    2 * a ≤ (2 * divNearestEven a b + 1) * b ∧ (2 * divNearestEven a b) * b ≤ 2 * a + b ∧
      (2 * a = (2 * divNearestEven a b + 1) * b → divNearestEven a b % 2 = 0) ∧
      ((2 * divNearestEven a b) * b = 2 * a + b → divNearestEven a b % 2 = 0) := by
  have h := Nat.div_add_mod a b
  have hr := Nat.mod_lt a hb
  simp only [divNearestEven]
  generalize a / b = q at *
  generalize a % b = r at *
  subst h
  have e1 : (2 * q + 1) * b = 2 * (b * q) + b := by ring
  have e2 : 2 * q * b = 2 * (b * q) := by ring
  have e3 : (2 * (q + 1) + 1) * b = 2 * (b * q) + 3 * b := by ring
  have e4 : 2 * (q + 1) * b = 2 * (b * q) + 2 * b := by ring
  split
  · rw [e3, e4]; omega
  · rw [e1, e2]; omega

/-! ### NaN operands -/

theorem fadd_of_isNaN {a b : Word} (h : isNaN a = true ∨ isNaN b = true) : fadd a b = canonicalNaN := by
  rcases h with h | h <;> simp [fadd, h]

theorem fsub_of_isNaN {a b : Word} (h : isNaN a = true ∨ isNaN b = true) : fsub a b = canonicalNaN :=
  fadd_of_isNaN (by simpa using h)

theorem fmul_of_isNaN {a b : Word} (h : isNaN a = true ∨ isNaN b = true) : fmul a b = canonicalNaN := by
  rcases h with h | h <;> simp [fmul, h]

theorem fdiv_of_isNaN {a b : Word} (h : isNaN a = true ∨ isNaN b = true) : fdiv a b = canonicalNaN := by
  rcases h with h | h <;> simp [fdiv, h]

theorem flt_of_isNaN {a b : Word} (h : isNaN a = true ∨ isNaN b = true) : flt a b = false := by
  rcases h with h | h <;> simp [flt, h]

end Sys2Proof.Machine
end

