-- ==== Sys2Proof/Laws/State.lean ====
section
/-! SUPPORT. What each update of the state does to each field, once, for simp. -/

namespace Sys2Proof.Machine

/-! ### A buffer replaced -/

@[simp] theorem setBuf_cfg (s : State) (b : BufId) (v : Buffer) : (s.setBuf b v).cfg = s.cfg := by cases b <;> rfl

@[simp] theorem setBuf_ctrl (s : State) (b : BufId) (v : Buffer) : (s.setBuf b v).ctrl = s.ctrl := by cases b <;> rfl

@[simp] theorem setBuf_hardness (s : State) (b : BufId) (v : Buffer) : (s.setBuf b v).hardness = s.hardness := by cases b <;> rfl

@[simp] theorem setBuf_status (s : State) (b : BufId) (v : Buffer) : (s.setBuf b v).status = s.status := by cases b <;> rfl

@[simp] theorem setBuf_errcmd (s : State) (b : BufId) (v : Buffer) : (s.setBuf b v).errcmd = s.errcmd := by cases b <;> rfl

@[simp] theorem setBuf_a (s : State) (b : BufId) (v : Buffer) : (s.setBuf b v).a = s.a := by cases b <;> rfl

@[simp] theorem setBuf_r (s : State) (b : BufId) (v : Buffer) : (s.setBuf b v).r = s.r := by cases b <;> rfl

@[simp] theorem setBuf_xz1 (s : State) (b : BufId) (v : Buffer) : (s.setBuf b v).xz1 = s.xz1 := by cases b <;> rfl

@[simp] theorem setBuf_yz1 (s : State) (b : BufId) (v : Buffer) : (s.setBuf b v).yz1 = s.yz1 := by cases b <;> rfl

@[simp] theorem setBuf_inputs (s : State) (b : BufId) (v : Buffer) : (s.setBuf b v).inputs = s.inputs := by cases b <;> rfl

@[simp] theorem setBuf_answer (s : State) (b : BufId) (v : Buffer) : (s.setBuf b v).answer = s.answer := by cases b <;> rfl

@[simp] theorem setBuf_buf_self (s : State) (b : BufId) (v : Buffer) : (s.setBuf b v).buf b = v := by cases b <;> rfl

theorem setBuf_buf_of_ne (s : State) {b b' : BufId} (v : Buffer) (h : b' ≠ b) : (s.setBuf b v).buf b' = s.buf b' := by
  cases b <;> cases b' <;> first | rfl | exact absurd rfl h

theorem setBuf_buf (s : State) (b b' : BufId) (v : Buffer) :
    (s.setBuf b v).buf b' = if b' = b then v else s.buf b' := by
  split
  · next h => subst h; simp
  · next h => exact setBuf_buf_of_ne s v h

theorem buf_upX2 (s : State) : s.buf .upX2 = s.upX2 := rfl

theorem buf_upX4 (s : State) : s.buf .upX4 = s.upX4 := rfl

theorem buf_downX4 (s : State) : s.buf .downX4 = s.downX4 := rfl

theorem buf_downX2 (s : State) : s.buf .downX2 = s.downX2 := rfl

/-- A state is its registers and its four buffers. -/
theorem state_ext_buf {s t : State} (hc : s.cfg = t.cfg) (h1 : s.ctrl = t.ctrl) (h2 : s.hardness = t.hardness)
    (h3 : s.status = t.status) (h4 : s.errcmd = t.errcmd) (ha : s.a = t.a) (hr : s.r = t.r) (hx : s.xz1 = t.xz1)
    (hy : s.yz1 = t.yz1) (hi : s.inputs = t.inputs) (hn : s.answer = t.answer) (hb : ∀ b, s.buf b = t.buf b) :
    s = t := by
  have b0 : s.upX2 = t.upX2 := hb .upX2
  have b1 : s.upX4 = t.upX4 := hb .upX4
  have b2 : s.downX4 = t.downX4 := hb .downX4
  have b3 : s.downX2 = t.downX2 := hb .downX2
  cases s; cases t
  simp only [State.mk.injEq]
  exact ⟨hc, h1, h2, h3, h4, ha, hr, b0, b1, b2, b3, hx, hy, hi, hn⟩

/-! ### A result register written -/

@[simp] theorem setR_cfg (s : State) (i : Fin 4) (w : Word) : (s.setR i w).cfg = s.cfg := rfl

@[simp] theorem setR_ctrl (s : State) (i : Fin 4) (w : Word) : (s.setR i w).ctrl = s.ctrl := rfl

@[simp] theorem setR_hardness (s : State) (i : Fin 4) (w : Word) : (s.setR i w).hardness = s.hardness := rfl

@[simp] theorem setR_status (s : State) (i : Fin 4) (w : Word) : (s.setR i w).status = s.status := rfl

@[simp] theorem setR_errcmd (s : State) (i : Fin 4) (w : Word) : (s.setR i w).errcmd = s.errcmd := rfl

@[simp] theorem setR_a (s : State) (i : Fin 4) (w : Word) : (s.setR i w).a = s.a := rfl

theorem setR_r (s : State) (i : Fin 4) (w : Word) : (s.setR i w).r = s.r.set i w := rfl

@[simp] theorem setR_xz1 (s : State) (i : Fin 4) (w : Word) : (s.setR i w).xz1 = s.xz1 := rfl

@[simp] theorem setR_yz1 (s : State) (i : Fin 4) (w : Word) : (s.setR i w).yz1 = s.yz1 := rfl

@[simp] theorem setR_inputs (s : State) (i : Fin 4) (w : Word) : (s.setR i w).inputs = s.inputs := rfl

@[simp] theorem setR_answer (s : State) (i : Fin 4) (w : Word) : (s.setR i w).answer = s.answer := rfl

@[simp] theorem setR_buf (s : State) (i : Fin 4) (w : Word) (b : BufId) : (s.setR i w).buf b = s.buf b := by cases b <;> rfl

@[simp] theorem setR_upX2 (s : State) (i : Fin 4) (w : Word) : (s.setR i w).upX2 = s.upX2 := rfl

@[simp] theorem setR_upX4 (s : State) (i : Fin 4) (w : Word) : (s.setR i w).upX4 = s.upX4 := rfl

@[simp] theorem setR_downX4 (s : State) (i : Fin 4) (w : Word) : (s.setR i w).downX4 = s.downX4 := rfl

@[simp] theorem setR_downX2 (s : State) (i : Fin 4) (w : Word) : (s.setR i w).downX2 = s.downX2 := rfl

/-! ### R0 and R1 written -/

@[simp] theorem setR01_cfg (s : State) (w0 w1 : Word) : (s.setR01 w0 w1).cfg = s.cfg := rfl

@[simp] theorem setR01_ctrl (s : State) (w0 w1 : Word) : (s.setR01 w0 w1).ctrl = s.ctrl := rfl

@[simp] theorem setR01_hardness (s : State) (w0 w1 : Word) : (s.setR01 w0 w1).hardness = s.hardness := rfl

@[simp] theorem setR01_status (s : State) (w0 w1 : Word) : (s.setR01 w0 w1).status = s.status := rfl

@[simp] theorem setR01_errcmd (s : State) (w0 w1 : Word) : (s.setR01 w0 w1).errcmd = s.errcmd := rfl

@[simp] theorem setR01_a (s : State) (w0 w1 : Word) : (s.setR01 w0 w1).a = s.a := rfl

theorem setR01_r (s : State) (w0 w1 : Word) : (s.setR01 w0 w1).r = (s.r.set 0 w0).set 1 w1 := rfl

@[simp] theorem setR01_xz1 (s : State) (w0 w1 : Word) : (s.setR01 w0 w1).xz1 = s.xz1 := rfl

@[simp] theorem setR01_yz1 (s : State) (w0 w1 : Word) : (s.setR01 w0 w1).yz1 = s.yz1 := rfl

@[simp] theorem setR01_inputs (s : State) (w0 w1 : Word) : (s.setR01 w0 w1).inputs = s.inputs := rfl

@[simp] theorem setR01_answer (s : State) (w0 w1 : Word) : (s.setR01 w0 w1).answer = s.answer := rfl

@[simp] theorem setR01_buf (s : State) (w0 w1 : Word) (b : BufId) : (s.setR01 w0 w1).buf b = s.buf b := by cases b <;> rfl

@[simp] theorem setR01_upX2 (s : State) (w0 w1 : Word) : (s.setR01 w0 w1).upX2 = s.upX2 := rfl

@[simp] theorem setR01_upX4 (s : State) (w0 w1 : Word) : (s.setR01 w0 w1).upX4 = s.upX4 := rfl

@[simp] theorem setR01_downX4 (s : State) (w0 w1 : Word) : (s.setR01 w0 w1).downX4 = s.downX4 := rfl

@[simp] theorem setR01_downX2 (s : State) (w0 w1 : Word) : (s.setR01 w0 w1).downX2 = s.downX2 := rfl

/-! ### R0 to R3 written -/

@[simp] theorem setR0123_cfg (s : State) (w0 w1 w2 w3 : Word) : (s.setR0123 w0 w1 w2 w3).cfg = s.cfg := rfl

@[simp] theorem setR0123_ctrl (s : State) (w0 w1 w2 w3 : Word) : (s.setR0123 w0 w1 w2 w3).ctrl = s.ctrl := rfl

@[simp] theorem setR0123_hardness (s : State) (w0 w1 w2 w3 : Word) : (s.setR0123 w0 w1 w2 w3).hardness = s.hardness := rfl

@[simp] theorem setR0123_status (s : State) (w0 w1 w2 w3 : Word) : (s.setR0123 w0 w1 w2 w3).status = s.status := rfl

@[simp] theorem setR0123_errcmd (s : State) (w0 w1 w2 w3 : Word) : (s.setR0123 w0 w1 w2 w3).errcmd = s.errcmd := rfl

@[simp] theorem setR0123_a (s : State) (w0 w1 w2 w3 : Word) : (s.setR0123 w0 w1 w2 w3).a = s.a := rfl

theorem setR0123_r (s : State) (w0 w1 w2 w3 : Word) : (s.setR0123 w0 w1 w2 w3).r = #v[w0, w1, w2, w3] := rfl

@[simp] theorem setR0123_xz1 (s : State) (w0 w1 w2 w3 : Word) : (s.setR0123 w0 w1 w2 w3).xz1 = s.xz1 := rfl

@[simp] theorem setR0123_yz1 (s : State) (w0 w1 w2 w3 : Word) : (s.setR0123 w0 w1 w2 w3).yz1 = s.yz1 := rfl

@[simp] theorem setR0123_inputs (s : State) (w0 w1 w2 w3 : Word) : (s.setR0123 w0 w1 w2 w3).inputs = s.inputs := rfl

@[simp] theorem setR0123_answer (s : State) (w0 w1 w2 w3 : Word) : (s.setR0123 w0 w1 w2 w3).answer = s.answer := rfl

@[simp] theorem setR0123_buf (s : State) (w0 w1 w2 w3 : Word) (b : BufId) : (s.setR0123 w0 w1 w2 w3).buf b = s.buf b := by cases b <;> rfl

@[simp] theorem setR0123_upX2 (s : State) (w0 w1 w2 w3 : Word) : (s.setR0123 w0 w1 w2 w3).upX2 = s.upX2 := rfl

@[simp] theorem setR0123_upX4 (s : State) (w0 w1 w2 w3 : Word) : (s.setR0123 w0 w1 w2 w3).upX4 = s.upX4 := rfl

@[simp] theorem setR0123_downX4 (s : State) (w0 w1 w2 w3 : Word) : (s.setR0123 w0 w1 w2 w3).downX4 = s.downX4 := rfl

@[simp] theorem setR0123_downX2 (s : State) (w0 w1 w2 w3 : Word) : (s.setR0123 w0 w1 w2 w3).downX2 = s.downX2 := rfl

/-! ### An error raised -/

@[simp] theorem raiseError_cfg (s : State) (c : Cause) (w : Word) : (raiseError c w s).cfg = s.cfg := rfl

@[simp] theorem raiseError_ctrl (s : State) (c : Cause) (w : Word) : (raiseError c w s).ctrl = s.ctrl := rfl

@[simp] theorem raiseError_hardness (s : State) (c : Cause) (w : Word) : (raiseError c w s).hardness = s.hardness := rfl

@[simp] theorem raiseError_status (s : State) (c : Cause) (w : Word) : (raiseError c w s).status = statusAfterError s.status c := rfl

@[simp] theorem raiseError_errcmd (s : State) (c : Cause) (w : Word) : (raiseError c w s).errcmd = errcmdAfterError s.status s.errcmd w := rfl

@[simp] theorem raiseError_a (s : State) (c : Cause) (w : Word) : (raiseError c w s).a = s.a := rfl

@[simp] theorem raiseError_r (s : State) (c : Cause) (w : Word) : (raiseError c w s).r = s.r := rfl

@[simp] theorem raiseError_xz1 (s : State) (c : Cause) (w : Word) : (raiseError c w s).xz1 = s.xz1 := rfl

@[simp] theorem raiseError_yz1 (s : State) (c : Cause) (w : Word) : (raiseError c w s).yz1 = s.yz1 := rfl

@[simp] theorem raiseError_inputs (s : State) (c : Cause) (w : Word) : (raiseError c w s).inputs = s.inputs := rfl

@[simp] theorem raiseError_answer (s : State) (c : Cause) (w : Word) : (raiseError c w s).answer = s.answer := rfl

@[simp] theorem raiseError_buf (s : State) (c : Cause) (w : Word) (b : BufId) : (raiseError c w s).buf b = s.buf b := by cases b <;> rfl

@[simp] theorem raiseError_upX2 (s : State) (c : Cause) (w : Word) : (raiseError c w s).upX2 = s.upX2 := rfl

@[simp] theorem raiseError_upX4 (s : State) (c : Cause) (w : Word) : (raiseError c w s).upX4 = s.upX4 := rfl

@[simp] theorem raiseError_downX4 (s : State) (c : Cause) (w : Word) : (raiseError c w s).downX4 = s.downX4 := rfl

@[simp] theorem raiseError_downX2 (s : State) (c : Cause) (w : Word) : (raiseError c w s).downX2 = s.downX2 := rfl

/-! ### The latch cleared -/

@[simp] theorem clearError_cfg (s : State) : (clearError s).cfg = s.cfg := rfl

@[simp] theorem clearError_ctrl (s : State) : (clearError s).ctrl = s.ctrl := rfl

@[simp] theorem clearError_hardness (s : State) : (clearError s).hardness = s.hardness := rfl

@[simp] theorem clearError_status (s : State) : (clearError s).status = 0 := rfl

@[simp] theorem clearError_errcmd (s : State) : (clearError s).errcmd = 0 := rfl

@[simp] theorem clearError_a (s : State) : (clearError s).a = s.a := rfl

@[simp] theorem clearError_r (s : State) : (clearError s).r = s.r := rfl

@[simp] theorem clearError_xz1 (s : State) : (clearError s).xz1 = s.xz1 := rfl

@[simp] theorem clearError_yz1 (s : State) : (clearError s).yz1 = s.yz1 := rfl

@[simp] theorem clearError_inputs (s : State) : (clearError s).inputs = s.inputs := rfl

@[simp] theorem clearError_answer (s : State) : (clearError s).answer = s.answer := rfl

@[simp] theorem clearError_buf (s : State) (b : BufId) : (clearError s).buf b = s.buf b := by cases b <;> rfl

@[simp] theorem clearError_upX2 (s : State) : (clearError s).upX2 = s.upX2 := rfl

@[simp] theorem clearError_upX4 (s : State) : (clearError s).upX4 = s.upX4 := rfl

@[simp] theorem clearError_downX4 (s : State) : (clearError s).downX4 = s.downX4 := rfl

@[simp] theorem clearError_downX2 (s : State) : (clearError s).downX2 = s.downX2 := rfl

/-! ### A DC step -/

@[simp] theorem dcStep_cfg (s : State) (x : Word) : (dcStep x s).cfg = s.cfg := rfl

@[simp] theorem dcStep_ctrl (s : State) (x : Word) : (dcStep x s).ctrl = s.ctrl := rfl

@[simp] theorem dcStep_hardness (s : State) (x : Word) : (dcStep x s).hardness = s.hardness := rfl

@[simp] theorem dcStep_status (s : State) (x : Word) : (dcStep x s).status = s.status := rfl

@[simp] theorem dcStep_errcmd (s : State) (x : Word) : (dcStep x s).errcmd = s.errcmd := rfl

@[simp] theorem dcStep_a (s : State) (x : Word) : (dcStep x s).a = s.a := rfl

@[simp] theorem dcStep_r (s : State) (x : Word) : (dcStep x s).r = s.r := rfl

@[simp] theorem dcStep_xz1 (s : State) (x : Word) : (dcStep x s).xz1 = x := rfl

@[simp] theorem dcStep_yz1 (s : State) (x : Word) : (dcStep x s).yz1 = dcOutput x s.xz1 s.yz1 := rfl

@[simp] theorem dcStep_inputs (s : State) (x : Word) : (dcStep x s).inputs = s.inputs := rfl

@[simp] theorem dcStep_answer (s : State) (x : Word) : (dcStep x s).answer = s.answer := rfl

@[simp] theorem dcStep_buf (s : State) (x : Word) (b : BufId) : (dcStep x s).buf b = s.buf b := by cases b <;> rfl

@[simp] theorem dcStep_upX2 (s : State) (x : Word) : (dcStep x s).upX2 = s.upX2 := rfl

@[simp] theorem dcStep_upX4 (s : State) (x : Word) : (dcStep x s).upX4 = s.upX4 := rfl

@[simp] theorem dcStep_downX4 (s : State) (x : Word) : (dcStep x s).downX4 = s.downX4 := rfl

@[simp] theorem dcStep_downX2 (s : State) (x : Word) : (dcStep x s).downX2 = s.downX2 := rfl

/-! ### An input taken -/

@[simp] theorem takeInput_cfg (s : State) (rest : List Input) : (takeInput rest s).cfg = s.cfg := rfl

@[simp] theorem takeInput_ctrl (s : State) (rest : List Input) : (takeInput rest s).ctrl = s.ctrl := rfl

@[simp] theorem takeInput_hardness (s : State) (rest : List Input) : (takeInput rest s).hardness = s.hardness := rfl

@[simp] theorem takeInput_status (s : State) (rest : List Input) : (takeInput rest s).status = s.status := rfl

@[simp] theorem takeInput_errcmd (s : State) (rest : List Input) : (takeInput rest s).errcmd = s.errcmd := rfl

@[simp] theorem takeInput_a (s : State) (rest : List Input) : (takeInput rest s).a = s.a := rfl

@[simp] theorem takeInput_r (s : State) (rest : List Input) : (takeInput rest s).r = s.r := rfl

@[simp] theorem takeInput_xz1 (s : State) (rest : List Input) : (takeInput rest s).xz1 = s.xz1 := rfl

@[simp] theorem takeInput_yz1 (s : State) (rest : List Input) : (takeInput rest s).yz1 = s.yz1 := rfl

@[simp] theorem takeInput_inputs (s : State) (rest : List Input) : (takeInput rest s).inputs = rest := rfl

@[simp] theorem takeInput_answer (s : State) (rest : List Input) : (takeInput rest s).answer = none := rfl

@[simp] theorem takeInput_buf (s : State) (rest : List Input) (b : BufId) : (takeInput rest s).buf b = s.buf b := by cases b <;> rfl

@[simp] theorem takeInput_upX2 (s : State) (rest : List Input) : (takeInput rest s).upX2 = s.upX2 := rfl

@[simp] theorem takeInput_upX4 (s : State) (rest : List Input) : (takeInput rest s).upX4 = s.upX4 := rfl

@[simp] theorem takeInput_downX4 (s : State) (rest : List Input) : (takeInput rest s).downX4 = s.downX4 := rfl

@[simp] theorem takeInput_downX2 (s : State) (rest : List Input) : (takeInput rest s).downX2 = s.downX2 := rfl

/-! ### A register read -/

@[simp] theorem readReg_cfg (s : State) (reg : Reg) : (readReg reg s).cfg = s.cfg := rfl

@[simp] theorem readReg_ctrl (s : State) (reg : Reg) : (readReg reg s).ctrl = s.ctrl := rfl

@[simp] theorem readReg_hardness (s : State) (reg : Reg) : (readReg reg s).hardness = s.hardness := rfl

@[simp] theorem readReg_status (s : State) (reg : Reg) : (readReg reg s).status = s.status := rfl

@[simp] theorem readReg_errcmd (s : State) (reg : Reg) : (readReg reg s).errcmd = s.errcmd := rfl

@[simp] theorem readReg_a (s : State) (reg : Reg) : (readReg reg s).a = s.a := rfl

@[simp] theorem readReg_r (s : State) (reg : Reg) : (readReg reg s).r = s.r := rfl

@[simp] theorem readReg_xz1 (s : State) (reg : Reg) : (readReg reg s).xz1 = s.xz1 := rfl

@[simp] theorem readReg_yz1 (s : State) (reg : Reg) : (readReg reg s).yz1 = s.yz1 := rfl

@[simp] theorem readReg_inputs (s : State) (reg : Reg) : (readReg reg s).inputs = s.inputs := rfl

@[simp] theorem readReg_answer (s : State) (reg : Reg) : (readReg reg s).answer = some (regRead s reg) := rfl

@[simp] theorem readReg_buf (s : State) (reg : Reg) (b : BufId) : (readReg reg s).buf b = s.buf b := by cases b <;> rfl

@[simp] theorem readReg_upX2 (s : State) (reg : Reg) : (readReg reg s).upX2 = s.upX2 := rfl

@[simp] theorem readReg_upX4 (s : State) (reg : Reg) : (readReg reg s).upX4 = s.upX4 := rfl

@[simp] theorem readReg_downX4 (s : State) (reg : Reg) : (readReg reg s).downX4 = s.downX4 := rfl

@[simp] theorem readReg_downX2 (s : State) (reg : Reg) : (readReg reg s).downX2 = s.downX2 := rfl

/-! ### An operand register written -/

@[simp] theorem withA_cfg (s : State) (i : Fin 8) (w : Word) : (withA s i w).cfg = s.cfg := rfl

@[simp] theorem withA_ctrl (s : State) (i : Fin 8) (w : Word) : (withA s i w).ctrl = s.ctrl := rfl

@[simp] theorem withA_hardness (s : State) (i : Fin 8) (w : Word) : (withA s i w).hardness = s.hardness := rfl

@[simp] theorem withA_status (s : State) (i : Fin 8) (w : Word) : (withA s i w).status = s.status := rfl

@[simp] theorem withA_errcmd (s : State) (i : Fin 8) (w : Word) : (withA s i w).errcmd = s.errcmd := rfl

theorem withA_a (s : State) (i : Fin 8) (w : Word) : (withA s i w).a = s.a.set i w := rfl

@[simp] theorem withA_r (s : State) (i : Fin 8) (w : Word) : (withA s i w).r = s.r := rfl

@[simp] theorem withA_xz1 (s : State) (i : Fin 8) (w : Word) : (withA s i w).xz1 = s.xz1 := rfl

@[simp] theorem withA_yz1 (s : State) (i : Fin 8) (w : Word) : (withA s i w).yz1 = s.yz1 := rfl

@[simp] theorem withA_inputs (s : State) (i : Fin 8) (w : Word) : (withA s i w).inputs = s.inputs := rfl

@[simp] theorem withA_answer (s : State) (i : Fin 8) (w : Word) : (withA s i w).answer = s.answer := rfl

@[simp] theorem withA_buf (s : State) (i : Fin 8) (w : Word) (b : BufId) : (withA s i w).buf b = s.buf b := by cases b <;> rfl

@[simp] theorem withA_upX2 (s : State) (i : Fin 8) (w : Word) : (withA s i w).upX2 = s.upX2 := rfl

@[simp] theorem withA_upX4 (s : State) (i : Fin 8) (w : Word) : (withA s i w).upX4 = s.upX4 := rfl

@[simp] theorem withA_downX4 (s : State) (i : Fin 8) (w : Word) : (withA s i w).downX4 = s.downX4 := rfl

@[simp] theorem withA_downX2 (s : State) (i : Fin 8) (w : Word) : (withA s i w).downX2 = s.downX2 := rfl

/-! ### BufPush -/

@[simp] theorem bufPush_cfg (s : State) (b : BufId) (w : Word) : (bufPush b w s).cfg = s.cfg := by simp [bufPush]

@[simp] theorem bufPush_ctrl (s : State) (b : BufId) (w : Word) : (bufPush b w s).ctrl = s.ctrl := by simp [bufPush]

@[simp] theorem bufPush_hardness (s : State) (b : BufId) (w : Word) : (bufPush b w s).hardness = s.hardness := by simp [bufPush]

@[simp] theorem bufPush_status (s : State) (b : BufId) (w : Word) : (bufPush b w s).status = s.status := by simp [bufPush]

@[simp] theorem bufPush_errcmd (s : State) (b : BufId) (w : Word) : (bufPush b w s).errcmd = s.errcmd := by simp [bufPush]

@[simp] theorem bufPush_a (s : State) (b : BufId) (w : Word) : (bufPush b w s).a = s.a := by simp [bufPush]

@[simp] theorem bufPush_r (s : State) (b : BufId) (w : Word) : (bufPush b w s).r = s.r := by simp [bufPush]

@[simp] theorem bufPush_xz1 (s : State) (b : BufId) (w : Word) : (bufPush b w s).xz1 = s.xz1 := by simp [bufPush]

@[simp] theorem bufPush_yz1 (s : State) (b : BufId) (w : Word) : (bufPush b w s).yz1 = s.yz1 := by simp [bufPush]

@[simp] theorem bufPush_inputs (s : State) (b : BufId) (w : Word) : (bufPush b w s).inputs = s.inputs := by simp [bufPush]

@[simp] theorem bufPush_answer (s : State) (b : BufId) (w : Word) : (bufPush b w s).answer = s.answer := by simp [bufPush]

@[simp] theorem bufPush_buf_self (s : State) (b : BufId) (w : Word) : (bufPush b w s).buf b = pushed s.cfg b (s.buf b) w := by simp [bufPush]

theorem bufPush_buf_of_ne (s : State) (b : BufId) (w : Word) (b' : BufId) (h : b' ≠ b) : (bufPush b w s).buf b' = s.buf b' := by
  simp [bufPush, setBuf_buf_of_ne _ _ h]

/-! ### BufReset -/

@[simp] theorem bufReset_cfg (s : State) (b : BufId) : (bufReset b s).cfg = s.cfg := by simp [bufReset]

@[simp] theorem bufReset_ctrl (s : State) (b : BufId) : (bufReset b s).ctrl = s.ctrl := by simp [bufReset]

@[simp] theorem bufReset_hardness (s : State) (b : BufId) : (bufReset b s).hardness = s.hardness := by simp [bufReset]

@[simp] theorem bufReset_status (s : State) (b : BufId) : (bufReset b s).status = s.status := by simp [bufReset]

@[simp] theorem bufReset_errcmd (s : State) (b : BufId) : (bufReset b s).errcmd = s.errcmd := by simp [bufReset]

@[simp] theorem bufReset_a (s : State) (b : BufId) : (bufReset b s).a = s.a := by simp [bufReset]

@[simp] theorem bufReset_r (s : State) (b : BufId) : (bufReset b s).r = s.r := by simp [bufReset]

@[simp] theorem bufReset_xz1 (s : State) (b : BufId) : (bufReset b s).xz1 = s.xz1 := by simp [bufReset]

@[simp] theorem bufReset_yz1 (s : State) (b : BufId) : (bufReset b s).yz1 = s.yz1 := by simp [bufReset]

@[simp] theorem bufReset_inputs (s : State) (b : BufId) : (bufReset b s).inputs = s.inputs := by simp [bufReset]

@[simp] theorem bufReset_answer (s : State) (b : BufId) : (bufReset b s).answer = s.answer := by simp [bufReset]

@[simp] theorem bufReset_buf_self (s : State) (b : BufId) : (bufReset b s).buf b = Buffer.empty := by simp [bufReset]

theorem bufReset_buf_of_ne (s : State) (b : BufId) (b' : BufId) (h : b' ≠ b) : (bufReset b s).buf b' = s.buf b' := by
  simp [bufReset, setBuf_buf_of_ne _ _ h]

/-! ### The resets -/

@[simp] theorem signalReset_cfg (s : State) : (signalReset s).cfg = s.cfg := by simp [signalReset]

@[simp] theorem signalReset_ctrl (s : State) : (signalReset s).ctrl = s.ctrl := by simp [signalReset]

@[simp] theorem signalReset_hardness (s : State) : (signalReset s).hardness = s.hardness := by simp [signalReset]

@[simp] theorem signalReset_status (s : State) : (signalReset s).status = s.status := by simp [signalReset]

@[simp] theorem signalReset_errcmd (s : State) : (signalReset s).errcmd = s.errcmd := by simp [signalReset]

@[simp] theorem signalReset_a (s : State) : (signalReset s).a = s.a := by simp [signalReset]

@[simp] theorem signalReset_r (s : State) : (signalReset s).r = s.r := by simp [signalReset]

@[simp] theorem signalReset_xz1 (s : State) : (signalReset s).xz1 = 0 := rfl

@[simp] theorem signalReset_yz1 (s : State) : (signalReset s).yz1 = 0 := rfl

@[simp] theorem signalReset_inputs (s : State) : (signalReset s).inputs = s.inputs := by simp [signalReset]

@[simp] theorem signalReset_answer (s : State) : (signalReset s).answer = s.answer := by simp [signalReset]

@[simp] theorem signalReset_buf (s : State) (b : BufId) : (signalReset s).buf b = Buffer.empty := by cases b <;> rfl

@[simp] theorem hardwareReset_cfg (s : State) : (hardwareReset s).cfg = s.cfg := rfl

@[simp] theorem hardwareReset_ctrl (s : State) : (hardwareReset s).ctrl = 0 := rfl

@[simp] theorem hardwareReset_hardness (s : State) : (hardwareReset s).hardness = 0 := rfl

@[simp] theorem hardwareReset_status (s : State) : (hardwareReset s).status = 0 := rfl

@[simp] theorem hardwareReset_errcmd (s : State) : (hardwareReset s).errcmd = 0 := rfl

@[simp] theorem hardwareReset_a (s : State) : (hardwareReset s).a = Vector.replicate 8 0 := rfl

@[simp] theorem hardwareReset_r (s : State) : (hardwareReset s).r = Vector.replicate 4 0 := rfl

@[simp] theorem hardwareReset_xz1 (s : State) : (hardwareReset s).xz1 = 0 := rfl

@[simp] theorem hardwareReset_yz1 (s : State) : (hardwareReset s).yz1 = 0 := rfl

@[simp] theorem hardwareReset_inputs (s : State) : (hardwareReset s).inputs = s.inputs := rfl

@[simp] theorem hardwareReset_answer (s : State) : (hardwareReset s).answer = none := rfl

@[simp] theorem hardwareReset_buf (s : State) (b : BufId) : (hardwareReset s).buf b = Buffer.empty := by cases b <;> rfl

@[simp] theorem resetOf_cfg (c : Config) : (State.resetOf c).cfg = c := rfl

@[simp] theorem resetOf_ctrl (c : Config) : (State.resetOf c).ctrl = 0 := rfl

@[simp] theorem resetOf_hardness (c : Config) : (State.resetOf c).hardness = 0 := rfl

@[simp] theorem resetOf_status (c : Config) : (State.resetOf c).status = 0 := rfl

@[simp] theorem resetOf_errcmd (c : Config) : (State.resetOf c).errcmd = 0 := rfl

@[simp] theorem resetOf_a (c : Config) : (State.resetOf c).a = Vector.replicate 8 0 := rfl

@[simp] theorem resetOf_r (c : Config) : (State.resetOf c).r = Vector.replicate 4 0 := rfl

@[simp] theorem resetOf_xz1 (c : Config) : (State.resetOf c).xz1 = 0 := rfl

@[simp] theorem resetOf_yz1 (c : Config) : (State.resetOf c).yz1 = 0 := rfl

@[simp] theorem resetOf_inputs (c : Config) : (State.resetOf c).inputs = [] := rfl

@[simp] theorem resetOf_answer (c : Config) : (State.resetOf c).answer = none := rfl

@[simp] theorem resetOf_buf (c : Config) (b : BufId) : (State.resetOf c).buf b = Buffer.empty := by cases b <;> rfl

/-! ### Result registers read back -/

@[simp] theorem setR_r_get (s : State) (i : Fin 4) (w : Word) (j : Nat) (h : j < 4) :
    (s.setR i w).r[j] = if i.val = j then w else s.r[j] := by
  simp [State.setR, Vector.getElem_set]

@[simp] theorem setR01_r_get (s : State) (w0 w1 : Word) (j : Nat) (h : j < 4) :
    (s.setR01 w0 w1).r[j] = if j = 0 then w0 else if j = 1 then w1 else s.r[j] := by
  have : j = 0 ∨ j = 1 ∨ j = 2 ∨ j = 3 := by omega
  rcases this with rfl | rfl | rfl | rfl <;> simp [State.setR01]

@[simp] theorem setR0123_r_get (s : State) (w0 w1 w2 w3 : Word) (j : Nat) (h : j < 4) :
    (s.setR0123 w0 w1 w2 w3).r[j] = if j = 0 then w0 else if j = 1 then w1 else if j = 2 then w2 else w3 := by
  have : j = 0 ∨ j = 1 ∨ j = 2 ∨ j = 3 := by omega
  rcases this with rfl | rfl | rfl | rfl <;> rfl

@[simp] theorem withA_a_get (s : State) (i : Fin 8) (w : Word) (j : Nat) (h : j < 8) :
    (withA s i w).a[j] = if i.val = j then w else s.a[j] := by
  simp [withA, Vector.getElem_set]

end Sys2Proof.Machine
end

