-- ==== Sys2Proof/Laws/Bus.lean ====
section
/-! SUPPORT. What the step does with each kind of input, once: an admitted read, an admitted write, a command, an access
outside the window, one that is not admitted, and the reset input. -/

namespace Sys2Proof.Machine

theorem touchesWindow_iff {c : Config} {size : Size} {addr : Nat} :
    touchesWindow c size addr = true ↔ c.base < addr + size.bytes ∧ addr < c.base + 256 := by
  simp [touchesWindow]

theorem admittedAccess_iff {c : Config} {size : Size} {addr : Nat} :
    admittedAccess c size addr = true ↔
      size = .word ∧ ∃ off, addr = c.base + off ∧ off ≤ 0xFC ∧ off % 4 = 0 := by
  simp only [admittedAccess, Bool.and_eq_true, decide_eq_true_eq, and_assoc]
  constructor
  · rintro ⟨h1, h2, h3, h4⟩
    exact ⟨h1, addr - c.base, by omega, by omega, h4⟩
  · rintro ⟨h1, off, rfl, h3, h4⟩
    exact ⟨h1, by omega, by omega, by rw [Nat.add_sub_cancel_left]; exact h4⟩

theorem touchesWindow_of_admitted {c : Config} {size : Size} {addr : Nat} (h : admittedAccess c size addr = true) :
    touchesWindow c size addr = true := by
  obtain ⟨rfl, off, rfl, h1, _⟩ := admittedAccess_iff.1 h
  exact touchesWindow_iff.2 ⟨by simp only [Size.bytes]; omega, by omega⟩

@[simp] theorem regAt_base_add (c : Config) (off : Nat) : regAt c (c.base + off) = .ofOffset off := by
  simp [regAt]

/-- A step with no input is the idle block. -/
theorem step_nil {s : State} (hc : s.cfg.admitted = true) (hi : s.inputs = []) : step s = .next s := by
  simp [step, stepInput, hc, hi]

/-- A step takes the oldest input. -/
theorem step_cons {s : State} {inp : Input} {rest : List Input} (hc : s.cfg.admitted = true)
    (hi : s.inputs = inp :: rest) : step s = perform inp (takeInput rest s) := by
  simp [step, stepInput, hc, hi]

theorem step_of_not_admitted {s : State} (hc : s.cfg.admitted = false) :
    step s = .refused .configurationNotAdmitted := by
  simp [step, stepInput, hc]

/-- An admitted read answers the register's word. -/
theorem perform_read {s : State} {off : Nat} (h : off % 4 = 0) (h' : off ≤ 0xFC) :
    perform (.read .word (s.cfg.base + off)) s = .next (readReg (.ofOffset off) s) := by
  have ha : admittedAccess s.cfg .word (s.cfg.base + off) = true := admittedAccess_iff.2 ⟨rfl, off, rfl, h', h⟩
  simp [perform, ha, touchesWindow_of_admitted ha]

/-- An admitted write reaches its register. -/
theorem perform_write {s : State} {off : Nat} (h : off % 4 = 0) (h' : off ≤ 0xFC) (w : Word) :
    perform (.write .word (s.cfg.base + off) w) s = writeReg (.ofOffset off) w s := by
  have ha : admittedAccess s.cfg .word (s.cfg.base + off) = true := admittedAccess_iff.2 ⟨rfl, off, rfl, h', h⟩
  simp [perform, ha, touchesWindow_of_admitted ha]

/-- A write to CMD runs the command word. -/
theorem perform_command (s : State) (w : Word) : perform (commandWrite s.cfg w) s = runCommand w s :=
  (perform_write (off := 0x1C) (by decide) (by decide) w).trans rfl

/-- A write to any other register is a plain one. -/
theorem writeReg_of_ne {reg : Reg} (h : reg ≠ .cmd) (w : Word) (s : State) :
    writeReg reg w s = .next (regWrite s w reg) := if_neg h

/-- An offset reaches CMD only at 0x1C. -/
theorem ofOffset_eq_cmd {off : Nat} : Reg.ofOffset off = .cmd ↔ off = 0x1C := by
  refine ⟨fun h => ?_, fun h => by rw [h]; rfl⟩
  unfold Reg.ofOffset at h
  simp only [ite_eq_iff, reduceCtorEq, and_false, false_or, and_true] at h
  exact h.2.2.2.2.2.2.2.resolve_right (by simp)

end Sys2Proof.Machine
end

