-- ==== Sys2Proof/Laws/Config.lean ====
section
/-! SUPPORT. What an admitted configuration is, part by part. -/

namespace Sys2Proof.Machine

theorem finitePattern_eq (w : Word) : finitePattern w = isFinite w := rfl

theorem admittedLength_iff {backing : Backing} {l : Nat} :
    admittedLength backing l = true ↔ l % 2 = 0 ∧ 2 ≤ l ∧ l ≤ 65534 ∧ (backing = .small → l ≤ 254) := by
  cases backing with
  | fixed => simp [admittedLength, and_assoc]
  | small => simp [admittedLength, and_assoc]; omega

theorem admitted_iff {c : Config} :
    c.admitted = true ↔
      (c.h2.length % 2 = 0 ∧ 2 ≤ c.h2.length ∧ c.h2.length ≤ 65534 ∧ (c.backing = .small → c.h2.length ≤ 254)) ∧
      (c.h4.length % 2 = 0 ∧ 2 ≤ c.h4.length ∧ c.h4.length ≤ 65534 ∧ (c.backing = .small → c.h4.length ≤ 254)) ∧
      (∀ w ∈ c.h2, isFinite w = true) ∧ (∀ w ∈ c.h4, isFinite w = true) ∧ c.base % 256 = 0 := by
  simp only [Config.admitted, Bool.and_eq_true, admittedLength_iff, Config.l2, Config.l4, List.all_eq_true,
    finitePattern_eq, decide_eq_true_eq]
  tauto

end Sys2Proof.Machine
end

