-- ==== Sys2Proof/Laws/Decode.lean ====
section
/-! SUPPORT. The bits and fields of a command word, so that no proof unfolds the concatenation. -/

namespace Sys2Proof

/-- Bit i of a command word lies in one field (30_encoding.md R110). -/
theorem commandWord_getLsbD (op : BitVec 8) (buf : BitVec 2) (delay : BitVec 16) (i : Nat) :
    (commandWord op buf delay).getLsbD i =
      if i < 8 then op.getLsbD i else if i < 10 then buf.getLsbD (i - 8)
      else if i < 12 then false else if i < 28 then delay.getLsbD (i - 12) else false := by
  show BitVec.getLsbD (w := 4 + 16 + 2 + 2 + 8) (0#4 ++ delay ++ 0#2 ++ buf ++ op) i = _
  simp only [BitVec.getLsbD_append, BitVec.getLsbD_zero, Nat.sub_sub]
  split_ifs <;> first | rfl | omega

@[simp] theorem opField_commandWord (op : BitVec 8) (buf : BitVec 2) (delay : BitVec 16) :
    opField (commandWord op buf delay) = op := by
  apply BitVec.eq_of_getLsbD_eq
  intro i hi
  rw [opField, BitVec.getLsbD_extractLsb', commandWord_getLsbD]
  simp [hi]

@[simp] theorem bufField_commandWord (op : BitVec 8) (buf : BitVec 2) (delay : BitVec 16) :
    bufField (commandWord op buf delay) = buf := by
  apply BitVec.eq_of_getLsbD_eq
  intro i hi
  rw [bufField, BitVec.getLsbD_extractLsb', commandWord_getLsbD, if_neg (by omega), if_pos (by omega)]
  simp [hi]

@[simp] theorem delayField_commandWord (op : BitVec 8) (buf : BitVec 2) (delay : BitVec 16) :
    delayField (commandWord op buf delay) = delay.toNat := by
  unfold delayField
  congr 1
  apply BitVec.eq_of_getLsbD_eq
  intro i hi
  rw [BitVec.getLsbD_extractLsb', commandWord_getLsbD, if_neg (by omega), if_neg (by omega), if_neg (by omega),
    if_pos (by omega)]
  simp [hi]

@[simp] theorem bufId_ofField_field (b : BufId) : BufId.ofField b.field = b := by cases b <;> rfl

/-- Every word is OP, BUF, DELAY and the two fields that must be 0. -/
theorem word_eq_commandWord {w : Word} (h : w &&& 0xF0000C00 = 0) :
    w = commandWord (opField w) (bufField w) (BitVec.ofNat 16 (delayField w)) := by
  apply BitVec.eq_of_getLsbD_eq
  intro i hi
  have hb : (w.getLsbD i && BitVec.getLsbD (0xF0000C00 : Word) i) = BitVec.getLsbD (0 : Word) i := by
    rw [← BitVec.getLsbD_and, h]
  simp only [delayField, BitVec.ofNat_toNat, BitVec.setWidth_eq, commandWord_getLsbD, opField, bufField,
    BitVec.getLsbD_extractLsb']
  interval_cases i <;> first | rfl | exact (Bool.and_true _).symm.trans hb

end Sys2Proof
end

