-- ==== Sys2Proof/Laws/Elementary.lean ====
section
/-! SUPPORT. The squaring chains enclose the real logarithm, the comparisons of x^y and of log2 v with a midpoint are
those of the reals, and `nearestMag` is the nearest pattern, ties to even, of any real that it is given the comparisons
of. A correctly rounded result rests on these and on nothing else: no precision and no proposal is trusted. -/

namespace Sys2Proof.Machine

/-- The lower chain stays below: 2^k · r / 2^p is what is left of the value at each squaring. -/
theorem two_pow_log2ChainLo_le (p n : Nat) : ∀ (k r : Nat), 2 ^ p ≤ r →
    (2 : ℝ) ^ log2ChainLo p n k r ≤ ((2 : ℝ) ^ k * r / 2 ^ p) ^ 2 ^ n := by
  induction n with
  | zero =>
    intro k r hr
    have hr' : (2 : ℝ) ^ p ≤ r := by exact_mod_cast hr
    simp only [log2ChainLo, pow_zero, pow_one]
    rw [le_div_iff₀ (by positivity)]
    gcongr
  | succ n ih =>
    intro k r hr
    have hsq : 2 ^ (2 * p) ≤ r * r := by
      calc 2 ^ (2 * p) = 2 ^ p * 2 ^ p := by rw [← pow_add]; congr 1; omega
        _ ≤ r * r := Nat.mul_le_mul hr hr
    have hpow : ((2 : ℝ) ^ k * r / 2 ^ p) ^ 2 ^ (n + 1) = ((2 : ℝ) ^ (2 * k) * (r * r) / 2 ^ (2 * p)) ^ 2 ^ n := by
      rw [pow_succ' 2 n, pow_mul]; congr 1; rw [mul_comm 2 k, pow_mul _ k 2, mul_comm 2 p, pow_mul _ p 2]; ring
    rw [hpow]
    simp only [log2ChainLo]
    split
    · refine (ih _ _ ?_).trans ?_
      · rw [Nat.le_div_iff_mul_le (by positivity)]
        calc 2 ^ p * 2 ^ p = 2 ^ (2 * p) := by rw [← pow_add]; congr 1; omega
          _ ≤ r * r := hsq
      · gcongr ?_ ^ _
        have : ((r * r / 2 ^ p : ℕ) : ℝ) ≤ (r * r : ℝ) / 2 ^ p := by exact_mod_cast Nat.cast_div_le
        calc (2 : ℝ) ^ (2 * k) * ((r * r / 2 ^ p : ℕ) : ℝ) / 2 ^ p
            ≤ (2 : ℝ) ^ (2 * k) * ((r * r : ℝ) / 2 ^ p) / 2 ^ p := by gcongr
          _ = (2 : ℝ) ^ (2 * k) * (r * r) / 2 ^ (2 * p) := by rw [mul_comm 2 p, pow_mul _ p 2]; field_simp
    · next hge =>
      refine (ih _ _ ?_).trans ?_
      · rw [Nat.le_div_iff_mul_le (by positivity)]
        calc 2 ^ p * 2 ^ (p + 1) = 2 ^ (2 * p + 1) := by rw [← pow_add]; congr 1; omega
          _ ≤ r * r := by omega
      · gcongr ?_ ^ _
        have : ((r * r / 2 ^ (p + 1) : ℕ) : ℝ) ≤ (r * r : ℝ) / 2 ^ (p + 1) := by exact_mod_cast Nat.cast_div_le
        calc (2 : ℝ) ^ (2 * k + 1) * ((r * r / 2 ^ (p + 1) : ℕ) : ℝ) / 2 ^ p
            ≤ (2 : ℝ) ^ (2 * k + 1) * ((r * r : ℝ) / 2 ^ (p + 1)) / 2 ^ p := by gcongr
          _ = (2 : ℝ) ^ (2 * k) * (r * r) / 2 ^ (2 * p) := by
            rw [mul_comm 2 p, pow_mul _ p 2, pow_succ, pow_succ]; field_simp

/-- A rounded-up quotient is at least the quotient. -/
theorem le_divCeil (a b : Nat) (hb : 0 < b) : (a : ℝ) / b ≤ ((a + (b - 1)) / b : ℕ) := by
  rw [div_le_iff₀ (by exact_mod_cast hb)]
  have h1 := Nat.div_add_mod (a + (b - 1)) b
  have h2 := Nat.mod_lt (a + (b - 1)) hb
  have : a ≤ (a + (b - 1)) / b * b := by rw [Nat.mul_comm]; omega
  exact_mod_cast this

/-- A rounded-up quotient is within a whole bound of the quotient. -/
theorem divCeil_le {a b c : Nat} (hb : 0 < b) (h : a ≤ c * b) : (a + (b - 1)) / b ≤ c := by
  rw [← Nat.lt_succ_iff, Nat.div_lt_iff_lt_mul hb, Nat.succ_mul]; omega

/-- The upper chain stays above. -/
theorem le_two_pow_log2ChainHi (p n : Nat) : ∀ (k r : Nat), r ≤ 2 ^ (p + 1) →
    ((2 : ℝ) ^ k * r / 2 ^ p) ^ 2 ^ n ≤ (2 : ℝ) ^ log2ChainHi p n k r := by
  induction n with
  | zero =>
    intro k r hr
    have hr' : (r : ℝ) ≤ 2 ^ (p + 1) := by exact_mod_cast hr
    simp only [log2ChainHi, pow_zero, pow_one]
    rw [div_le_iff₀ (by positivity)]
    calc (2 : ℝ) ^ k * r ≤ 2 ^ k * 2 ^ (p + 1) := by gcongr
      _ = 2 ^ (k + 1) * 2 ^ p := by ring
  | succ n ih =>
    intro k r hr
    have hpow : ((2 : ℝ) ^ k * r / 2 ^ p) ^ 2 ^ (n + 1) = ((2 : ℝ) ^ (2 * k) * (r * r) / 2 ^ (2 * p)) ^ 2 ^ n := by
      rw [pow_succ' 2 n, pow_mul]; congr 1; rw [mul_comm 2 k, pow_mul _ k 2, mul_comm 2 p, pow_mul _ p 2]; ring
    rw [hpow]
    simp only [log2ChainHi]
    split
    · next hlt =>
      refine le_trans ?_ (ih _ _ (divCeil_le (by positivity) ?_))
      · gcongr ?_ ^ _
        have h := le_divCeil (r * r) (2 ^ p) (by positivity)
        push_cast at h
        calc (2 : ℝ) ^ (2 * k) * (r * r) / 2 ^ (2 * p)
            = (2 : ℝ) ^ (2 * k) * ((r * r : ℝ) / 2 ^ p) / 2 ^ p := by rw [mul_comm 2 p, pow_mul _ p 2]; field_simp
          _ ≤ _ := by gcongr
      · calc r * r ≤ 2 ^ (2 * p + 1) := hlt.le
          _ = 2 ^ (p + 1) * 2 ^ p := by rw [← pow_add]; congr 1; omega
    · refine le_trans ?_ (ih _ _ (divCeil_le (by positivity) ?_))
      · gcongr ?_ ^ _
        have h := le_divCeil (r * r) (2 ^ (p + 1)) (by positivity)
        push_cast at h
        calc (2 : ℝ) ^ (2 * k) * (r * r) / 2 ^ (2 * p)
            = (2 : ℝ) ^ (2 * k + 1) * ((r * r : ℝ) / 2 ^ (p + 1)) / 2 ^ p := by
              rw [mul_comm 2 p, pow_mul _ p 2, pow_succ, pow_succ]; field_simp; ring
          _ ≤ _ := by gcongr
      · calc r * r ≤ 2 ^ (p + 1) * 2 ^ (p + 1) := Nat.mul_le_mul hr hr

/-- log2 of a natural number from a power of it that is at least a power of two. -/
theorem le_logb_of_two_pow_le {x : ℝ} {k n : Nat} (h : (2 : ℝ) ^ k ≤ x ^ 2 ^ n) :
    (k : ℝ) ≤ 2 ^ n * Real.logb 2 x := by
  have := Real.logb_le_logb_of_le (b := 2) (by norm_num) (by positivity) h
  rw [Real.logb_pow, Real.logb_pow, Real.logb_self_eq_one (by norm_num)] at this
  simpa using this

/-- log2 of a natural number from a power of it that is at most a power of two. -/
theorem logb_le_of_le_two_pow {x : ℝ} (hx : 0 < x) {k n : Nat} (h : x ^ 2 ^ n ≤ (2 : ℝ) ^ k) :
    2 ^ n * Real.logb 2 x ≤ (k : ℝ) := by
  have := Real.logb_le_logb_of_le (b := 2) (by norm_num) (by positivity) h
  rw [Real.logb_pow, Real.logb_pow, Real.logb_self_eq_one (by norm_num)] at this
  simpa using this

/-- `log2Bounds` encloses log2 x, in units of 2^-n. -/
theorem log2Bounds_encloses (n : Nat) {x : Nat} (hx : 0 < x) :
    ((log2Bounds n x).1 : ℝ) ≤ 2 ^ n * Real.logb 2 x ∧ 2 ^ n * Real.logb 2 x ≤ ((log2Bounds n x).2 : ℝ) := by
  have hx' : (0 : ℝ) < x := by exact_mod_cast hx
  have hlo : 2 ^ Nat.log2 x ≤ x := Nat.log2_self_le (by omega)
  have hhi : x < 2 ^ (Nat.log2 x + 1) := Nat.lt_log2_self
  simp only [log2Bounds]
  generalize hpe : n + guardBits = p
  split
  · next heq =>
    have hl : Real.logb 2 x = Nat.log2 x := by
      conv_lhs => rw [heq]
      push_cast
      rw [Real.logb_pow, Real.logb_self_eq_one (by norm_num), mul_one]
    rw [hl]
    push_cast
    constructor <;> linarith [mul_comm (2 ^ n : ℝ) (Nat.log2 x)]
  · generalize Nat.log2 x = e at *
    have hpe' : (0 : ℝ) < 2 ^ e := by positivity
    constructor
    · refine le_logb_of_two_pow_le ((two_pow_log2ChainLo_le p n e _ ?_).trans ?_)
      · rw [Nat.le_div_iff_mul_le (by positivity), mul_comm]
        exact Nat.mul_le_mul_right _ hlo
      · gcongr
        rw [div_le_iff₀ (by positivity)]
        have : ((x * 2 ^ p / 2 ^ e : ℕ) : ℝ) ≤ (x * 2 ^ p : ℝ) / 2 ^ e := by exact_mod_cast Nat.cast_div_le
        calc (2 : ℝ) ^ e * ((x * 2 ^ p / 2 ^ e : ℕ) : ℝ) ≤ 2 ^ e * ((x * 2 ^ p : ℝ) / 2 ^ e) := by gcongr
          _ = x * 2 ^ p := by field_simp
    · refine logb_le_of_le_two_pow hx' (le_trans ?_ (le_two_pow_log2ChainHi p n e _ (divCeil_le (by positivity) ?_)))
      · gcongr
        rw [le_div_iff₀ (by positivity)]
        have h := le_divCeil (x * 2 ^ p) (2 ^ e) (by positivity)
        push_cast at h
        calc (x : ℝ) * 2 ^ p = 2 ^ e * ((x * 2 ^ p : ℝ) / 2 ^ e) := by field_simp
          _ ≤ _ := by gcongr
      · calc x * 2 ^ p ≤ 2 ^ (e + 1) * 2 ^ p := Nat.mul_le_mul_right _ hhi.le
          _ = 2 ^ (p + 1) * 2 ^ e := by rw [← pow_add, ← pow_add]; congr 1; omega

/-- `log2Scaled` encloses log2 (x / 2^c), in units of 2^-n. -/
theorem log2Scaled_encloses (n c : Nat) {x : Nat} (hx : 0 < x) :
    ((log2Scaled n x c).1 : ℝ) ≤ 2 ^ n * Real.logb 2 ((x : ℝ) / 2 ^ c) ∧
      2 ^ n * Real.logb 2 ((x : ℝ) / 2 ^ c) ≤ ((log2Scaled n x c).2 : ℝ) := by
  have hx' : (x : ℝ) ≠ 0 := by positivity
  have hl : Real.logb 2 ((x : ℝ) / 2 ^ c) = Real.logb 2 x - c := by
    rw [Real.logb_div hx' (by positivity), Real.logb_pow, Real.logb_self_eq_one (by norm_num), mul_one]
  obtain ⟨h1, h2⟩ := log2Bounds_encloses n hx
  rw [hl]
  simp only [log2Scaled]
  push_cast
  constructor <;> nlinarith

/-! ### Comparing a real power with a midpoint -/

/-- The comparison by enclosures is that of the reals. -/
theorem comparePowBounds_sound {n d x m : Nat} {y : Int} {o : Ordering} (hd : 0 < d) (hx : 0 < x) (hm : 0 < m)
    (h : comparePowBounds n d x m y = some o) :
    cmp (((x : ℝ) / 2 ^ 149) ^ ((y : ℝ) / d)) ((m : ℝ) / 2 ^ 150) = o := by
  have hd' : (0 : ℝ) < d := by exact_mod_cast hd
  obtain ⟨hx1, hx2⟩ := log2Scaled_encloses n 149 hx
  obtain ⟨hm1, hm2⟩ := log2Scaled_encloses n 150 hm
  have hX : (0 : ℝ) < (x : ℝ) / 2 ^ 149 := by positivity
  have hM : (0 : ℝ) < (m : ℝ) / 2 ^ 150 := by positivity
  have hP : (0 : ℝ) < ((x : ℝ) / 2 ^ 149) ^ ((y : ℝ) / d) := Real.rpow_pos_of_pos hX _
  have hlog : Real.logb 2 (((x : ℝ) / 2 ^ 149) ^ ((y : ℝ) / d)) =
      (y : ℝ) / d * Real.logb 2 ((x : ℝ) / 2 ^ 149) := Real.logb_rpow_eq_mul_logb_of_pos hX
  generalize (x : ℝ) / 2 ^ 149 = X at *
  generalize (m : ℝ) / 2 ^ 150 = M at *
  simp only [comparePowBounds] at h
  generalize log2Scaled n x 149 = lx at *
  generalize log2Scaled n m 150 = lm at *
  have hn : (0 : ℝ) < 2 ^ n := by positivity
  -- y · log2 X lies between the ends of the product
  have hlo : ((min (y * lx.1) (y * lx.2) : ℤ) : ℝ) ≤ y * (2 ^ n * Real.logb 2 X) := by
    push_cast
    rcases le_total (0 : ℝ) y with hy | hy
    · exact (min_le_left _ _).trans (mul_le_mul_of_nonneg_left hx1 hy)
    · exact (min_le_right _ _).trans (mul_le_mul_of_nonpos_left hx2 hy)
  have hhi : y * (2 ^ n * Real.logb 2 X) ≤ ((max (y * lx.1) (y * lx.2) : ℤ) : ℝ) := by
    push_cast
    rcases le_total (0 : ℝ) y with hy | hy
    · exact (mul_le_mul_of_nonneg_left hx2 hy).trans (le_max_right _ _)
    · exact (mul_le_mul_of_nonpos_left hx1 hy).trans (le_max_left _ _)
  generalize min (y * lx.1) (y * lx.2) = lo at *
  generalize max (y * lx.1) (y * lx.2) = hi at *
  split at h
  · next hlt =>
    obtain rfl := Option.some.inj h
    have hlt' : (hi : ℝ) < d * (lm.1 : ℝ) := by exact_mod_cast hlt
    rw [cmp_eq_lt_iff, ← Real.logb_lt_logb_iff (b := 2) (by norm_num) hP hM, hlog, div_mul_eq_mul_div,
      div_lt_iff₀ (by positivity)]
    have : 2 ^ n * (y * Real.logb 2 X) < 2 ^ n * (Real.logb 2 M * d) := by nlinarith
    exact lt_of_mul_lt_mul_left this hn.le
  · split at h
    · next hgt =>
      obtain rfl := Option.some.inj h
      have hgt' : d * (lm.2 : ℝ) < (lo : ℝ) := by exact_mod_cast hgt
      rw [cmp_eq_gt_iff, ← Real.logb_lt_logb_iff (b := 2) (by norm_num) hM hP, hlog, div_mul_eq_mul_div,
        lt_div_iff₀ (by positivity)]
      have : 2 ^ n * (Real.logb 2 M * d) < 2 ^ n * (y * Real.logb 2 X) := by nlinarith
      exact lt_of_mul_lt_mul_left this hn.le
    · split at h
      · next heq =>
        obtain rfl := Option.some.inj h
        obtain ⟨e1, e2, e3⟩ := heq
        have e1' : (lo : ℝ) = hi := by exact_mod_cast e1
        have e2' : (lm.1 : ℝ) = lm.2 := by exact_mod_cast e2
        have e3' : (lo : ℝ) = d * (lm.1 : ℝ) := by exact_mod_cast e3
        rw [cmp_eq_eq_iff]
        refine Real.logb_injOn_pos (b := 2) (by norm_num) hP hM ?_
        rw [hlog, div_mul_eq_mul_div, div_eq_iff (by positivity)]
        have : 2 ^ n * (y * Real.logb 2 X) = 2 ^ n * (Real.logb 2 M * d) := by nlinarith
        exact mul_left_cancel₀ hn.ne' this
      · exact absurd h (by simp)

/-- Two positive reals compare as the whole numbers that are their d-th powers, scaled alike. -/
theorem cmp_of_powers {P M c : ℝ} {a b d : Nat} (hd : 0 < d) (hP : 0 < P) (hM : 0 < M) (hc : 0 < c)
    (ha : P ^ d * c = a) (hb : M ^ d * c = b) : cmp P M = compare a b := by
  have key : ∀ {u v : ℝ} {i j : Nat}, 0 < u → u < v → u ^ d * c = i → v ^ d * c = j → i < j := by
    intro u v i j hu h hi hj
    have : (i : ℝ) < j := by rw [← hi, ← hj]; exact mul_lt_mul_of_pos_right (pow_lt_pow_left₀ h hu.le hd.ne') hc
    exact_mod_cast this
  rcases lt_trichotomy P M with h | h | h
  · rw [(cmp_eq_lt_iff _ _).2 h, Nat.compare_eq_lt.2 (key hP h ha hb)]
  · subst h
    have : a = b := by have := ha.symm.trans hb; exact_mod_cast this
    rw [cmp_self_eq_eq, Nat.compare_eq_eq.2 this]
  · rw [(cmp_eq_gt_iff _ _).2 h, Nat.compare_eq_gt.2 (key hM h hb ha)]

/-- The comparison by whole powers is that of the reals. -/
theorem compareWholePowers_sound {d x m : Nat} (hd : 0 < d) (hx : 0 < x) (hm : 0 < m) (e : Int) :
    cmp (((x : ℝ) / 2 ^ 149) ^ ((e : ℝ) / d)) ((m : ℝ) / 2 ^ 150) = compareWholePowers d x m e := by
  have hX : (0 : ℝ) < (x : ℝ) / 2 ^ 149 := by positivity
  have hM : (0 : ℝ) < (m : ℝ) / 2 ^ 150 := by positivity
  have hpow : (((x : ℝ) / 2 ^ 149) ^ ((e : ℝ) / d)) ^ d = ((x : ℝ) / 2 ^ 149) ^ e := by
    rw [← Real.rpow_natCast, ← Real.rpow_mul hX.le, ← Real.rpow_intCast]
    congr 1
    field_simp
  unfold compareWholePowers
  split
  · next h =>
    obtain ⟨k, rfl⟩ := Int.eq_ofNat_of_zero_le h
    refine cmp_of_powers (c := 2 ^ (150 * d + 149 * k)) hd (Real.rpow_pos_of_pos hX _) hM (by positivity) ?_ ?_
    · rw [hpow]
      simp only [Nat.cast_mul, Nat.cast_pow, Nat.cast_ofNat, Int.toNat_natCast, zpow_natCast, div_pow, ← pow_mul, pow_add]
      field_simp
    · simp only [Nat.cast_mul, Nat.cast_pow, Nat.cast_ofNat, Int.toNat_natCast, div_pow, ← pow_mul, pow_add]
      field_simp
  · next h =>
    obtain ⟨k, rfl⟩ : ∃ k : Nat, e = -(k : Int) := ⟨e.natAbs, by omega⟩
    refine cmp_of_powers (c := 2 ^ (150 * d) * (x : ℝ) ^ k) hd (Real.rpow_pos_of_pos hX _) hM (by positivity) ?_ ?_
    · rw [hpow]
      push_cast
      simp only [Int.natAbs_neg, Int.natAbs_natCast, zpow_neg, zpow_natCast, div_pow, ← pow_mul, pow_add]
      field_simp
    · simp only [Nat.cast_mul, Nat.cast_pow, Int.natAbs_neg, Int.natAbs_natCast, div_pow, ← pow_mul]
      field_simp

/-- The comparison of a real power with a midpoint is that of the reals, whatever the precisions. -/
theorem compareRealPower_sound {d x m : Nat} (hd : 0 < d) (hx : 0 < x) (hm : 0 < m) (e : Int) :
    cmp (((x : ℝ) / 2 ^ 149) ^ ((e : ℝ) / d)) ((m : ℝ) / 2 ^ 150) = compareRealPower d x m e := by
  unfold compareRealPower
  split
  · next o ho =>
    obtain ⟨n, -, hn⟩ := List.exists_of_findSome?_eq_some ho
    exact comparePowBounds_sound hd hx hm hn
  · exact compareWholePowers_sound hd hx hm e

/-- An exponent taken as eighths is a whole number of eighths. -/
theorem eighths_sound {y : Word} {e : Int} (h : eighths y = some e) : (signedUnits y : ℝ) / 2 ^ 149 = (e : ℝ) / 8 := by
  simp only [eighths] at h
  split at h
  · next hz =>
    obtain rfl := Option.some.inj h
    have hd := Int.emod_add_mul_ediv (signedUnits y * 8) (2 ^ 149)
    rw [hz.1, zero_add] at hd
    have hd' : (2 : ℝ) ^ 149 * ((signedUnits y * 8 / 2 ^ 149 : ℤ) : ℝ) = (signedUnits y : ℝ) * 8 := by exact_mod_cast hd
    rw [div_eq_div_iff (by positivity) (by norm_num), mul_comm _ ((2 : ℝ) ^ 149), hd']
  · exact absurd h (by simp)

/-- The comparison of x^y with a midpoint is that of the reals. -/
theorem comparePow_sound {m : Nat} {x : Word} (y : Word) (hx : 0 < unitsOf x) (hm : 0 < m) :
    cmp (((unitsOf x : ℝ) / 2 ^ 149) ^ ((signedUnits y : ℝ) / 2 ^ 149)) ((m : ℝ) / 2 ^ 150) = comparePow x y m := by
  unfold comparePow
  split
  · next e he =>
    rw [eighths_sound he]
    exact_mod_cast compareWholePowers_sound (d := 8) (by norm_num) hx hm e
  · have h := compareRealPower_sound (d := 2 ^ 149) (by positivity) hx hm (signedUnits y)
    rw [Nat.cast_pow, Nat.cast_ofNat] at h
    exact h

/-- 2^t against v, t in units of 2^-150 and v in units of 2^-149: t against log2 v. -/
theorem compareRealPower_two {u : Nat} (hu : 0 < u) (t : Int) :
    compareRealPower (2 ^ 150) (2 ^ 150) (2 * u) t = cmp ((t : ℝ) / 2 ^ 150) (Real.logb 2 ((u : ℝ) / 2 ^ 149)) := by
  have h := compareRealPower_sound (d := 2 ^ 150) (x := 2 ^ 150) (m := 2 * u) (by positivity) (by positivity) (by omega) t
  rw [← h]
  have e1 : ((2 ^ 150 : ℕ) : ℝ) / 2 ^ 149 = 2 := by rw [Nat.cast_pow, Nat.cast_ofNat, pow_succ (2 : ℝ) 149]; field_simp
  have e2 : ((2 * u : ℕ) : ℝ) / 2 ^ 150 = (u : ℝ) / 2 ^ 149 := by
    rw [Nat.cast_mul, Nat.cast_ofNat, pow_succ' (2 : ℝ) 149, mul_div_mul_left _ _ (by norm_num)]
  rw [e1, e2, Nat.cast_pow, Nat.cast_ofNat]
  generalize (t : ℝ) / 2 ^ 150 = r
  have hU : (0 : ℝ) < (u : ℝ) / 2 ^ 149 := by positivity
  generalize (u : ℝ) / 2 ^ 149 = U at *
  have hr : Real.logb 2 ((2 : ℝ) ^ r) = r := Real.logb_rpow (by norm_num) (by norm_num)
  have hP : (0 : ℝ) < 2 ^ r := Real.rpow_pos_of_pos (by norm_num) r
  rcases lt_trichotomy ((2 : ℝ) ^ r) U with h | h | h
  · have := (Real.logb_lt_logb_iff (b := 2) (by norm_num) hP hU).2 h
    rw [hr] at this
    rw [(cmp_eq_lt_iff _ _).2 h, (cmp_eq_lt_iff _ _).2 this]
  · rw [← h, hr, cmp_self_eq_eq, cmp_self_eq_eq]
  · have := (Real.logb_lt_logb_iff (b := 2) (by norm_num) hU hP).2 h
    rw [hr] at this
    rw [(cmp_eq_gt_iff _ _).2 h, (cmp_eq_gt_iff _ _).2 this]

/-- log2 v is below 0 exactly for v below 1. -/
theorem logb_units_neg_iff {u : Nat} (hu : 0 < u) : Real.logb 2 ((u : ℝ) / 2 ^ 149) < 0 ↔ u < 2 ^ 149 := by
  rw [Real.logb_neg_iff (by norm_num) (by positivity), div_lt_one (by positivity)]
  exact_mod_cast Iff.rfl

/-- The comparison of |log2 v| with a midpoint is that of the reals. -/
theorem compareLog2_sound {v : Word} (hv : 0 < unitsOf v) (m : Nat) :
    cmp |Real.logb 2 ((unitsOf v : ℝ) / 2 ^ 149)| ((m : ℝ) / 2 ^ 150) = compareLog2 v m := by
  have hneg := logb_units_neg_iff hv
  unfold compareLog2
  split
  · next h =>
    rw [compareRealPower_two hv, abs_of_neg (hneg.2 h), Int.cast_neg, Int.cast_natCast, neg_div]
    generalize Real.logb 2 ((unitsOf v : ℝ) / 2 ^ 149) = L
    generalize (m : ℝ) / 2 ^ 150 = M
    rcases lt_trichotomy (-L) M with h | h | h
    · rw [(cmp_eq_lt_iff _ _).2 h, (cmp_eq_lt_iff _ _).2 (by linarith)]
    · rw [(cmp_eq_eq_iff _ _).2 h, (cmp_eq_eq_iff _ _).2 (by linarith)]
    · rw [(cmp_eq_gt_iff _ _).2 h, (cmp_eq_gt_iff _ _).2 (by linarith)]
  · next h =>
    rw [compareRealPower_two hv, abs_of_nonneg (not_lt.1 fun hc => h (hneg.1 hc)), Int.cast_natCast, cmp_swap]

/-! ### Rounding a real that is known by its comparisons -/

theorem midpointAbove_pos (g : Nat) : 0 < midpointAbove g := by
  have := unitsOfMag_lt_succ g
  unfold midpointAbove
  omega

/-- The search ends on the nearest pattern: the real stays above what lies under `g`, and never gets above what lies
under `g + 2^k`. -/
theorem isNearest_searchNearest (c : Nat → Ordering) (k : Nat) : ∀ g, g ≤ infMag → aboveLower c g = true →
    (infMag < g + 2 ^ k ∨ aboveLower c (g + 2 ^ k) = false) → isNearest c (searchNearest c k g) = true := by
  induction k with
  | zero =>
    intro g hg ha hb
    rw [pow_zero] at hb
    have hb : g = infMag ∨ aboveLower c (g + 1) = false := hb.imp (fun h => by omega) id
    show isNearest c g = true
    simpa [isNearest, hg, ha] using hb
  | succ k ih =>
    intro g hg ha hb
    have e : g + 2 ^ (k + 1) = g + 2 ^ k + 2 ^ k := by rw [pow_succ]; omega
    rw [e] at hb
    simp only [searchNearest]
    split
    · next h =>
      simp only [Bool.and_eq_true, decide_eq_true_eq] at h
      exact ih _ h.1 h.2 hb
    · next h =>
      simp only [Bool.and_eq_true, decide_eq_true_eq, not_and, Bool.not_eq_true] at h
      exact ih _ hg ha ((Nat.lt_or_ge infMag (g + 2 ^ k)).imp id h)

/-- `nearestMag` answers a pattern that passes the test of the nearest, whatever is proposed. -/
theorem isNearest_nearestMag (c : Nat → Ordering) (p : Nat) : isNearest c (nearestMag c p) = true := by
  unfold nearestMag
  split
  · next g hg => exact List.find?_some hg
  · exact isNearest_searchNearest c 31 0 (by decide) rfl (.inl (by decide))

/-- A pattern that passes the test is the real rounded to nearest, ties to even. -/
theorem nearestEven_of_isNearest {r : ℝ} {c : Nat → Ordering} {g : Nat}
    (hc : ∀ m : Nat, 0 < m → cmp r ((m : ℝ) / 2 ^ 150) = c m) (h : isNearest c g = true) : NearestEven r g := by
  simp only [isNearest, Bool.and_eq_true, Bool.or_eq_true, decide_eq_true_eq, Bool.not_eq_true'] at h
  obtain ⟨⟨h1, h2⟩, h3⟩ := h
  refine ⟨h1, ?_, fun hg => ?_⟩
  · rintro k rfl
    have hk := hc _ (midpointAbove_pos k)
    simp only [aboveLower] at h2
    split at h2
    · next e => rw [e, cmp_eq_gt_iff] at hk; exact .inl hk
    · next e => rw [e, cmp_eq_eq_iff] at hk; exact .inr ⟨hk.symm, by simp at h2; omega⟩
    · simp at h2
  · have hk := hc _ (midpointAbove_pos g)
    have h3 := h3.resolve_left (by omega)
    simp only [aboveLower] at h3
    split at h3
    · simp at h3
    · next e => rw [e, cmp_eq_eq_iff] at hk; exact .inr ⟨hk, by simp at h3; omega⟩
    · next e => rw [e, cmp_eq_lt_iff] at hk; exact .inl hk

/-- `nearestMag` rounds to nearest, ties to even, the real that it is given the comparisons of. -/
theorem nearestEven_nearestMag {r : ℝ} {c : Nat → Ordering}
    (hc : ∀ m : Nat, 0 < m → cmp r ((m : ℝ) / 2 ^ 150) = c m) (p : Nat) : NearestEven r (nearestMag c p) :=
  nearestEven_of_isNearest hc (isNearest_nearestMag c p)

end Sys2Proof.Machine
end

