-- ==== Sys2Proof/Laws/Flags.lean ====
section
/-! SUPPORT. The fields of STATUS after an error is raised, and that the error latch stays legal. -/

namespace Sys2Proof.Machine

@[simp] theorem statusErr_firstError (st : Word) (c : Cause) : statusErr (statusFirstError st c) = true := by
  simp [statusErr, statusFirstError]

@[simp] theorem statusOvf_firstError (st : Word) (c : Cause) : statusOvf (statusFirstError st c) = statusOvf st := by
  cases c <;> simp [statusOvf, statusFirstError, Cause.code]

@[simp] theorem statusCause_firstError (st : Word) (c : Cause) : statusCause (statusFirstError st c) = c.code := by
  simp only [statusCause, statusFirstError]
  ext i hi
  have : i = 0 ∨ i = 1 ∨ i = 2 ∨ i = 3 := by omega
  rcases this with rfl | rfl | rfl | rfl <;> cases c <;> simp [Cause.code]

@[simp] theorem statusErr_laterError (st : Word) : statusErr (statusLaterError st) = statusErr st := by
  simp [statusErr, statusLaterError]

@[simp] theorem statusOvf_laterError (st : Word) : statusOvf (statusLaterError st) = true := by
  simp [statusOvf, statusLaterError]

@[simp] theorem statusCause_laterError (st : Word) : statusCause (statusLaterError st) = statusCause st := by
  simp only [statusCause, statusLaterError]
  ext i hi
  have : i = 0 ∨ i = 1 ∨ i = 2 ∨ i = 3 := by omega
  rcases this with rfl | rfl | rfl | rfl <;> simp

/-- An error leaves the reserved bits of STATUS as they were. -/
@[simp] theorem statusAfterError_reserved (st : Word) (c : Cause) :
    statusAfterError st c &&& 0xFFFFFF0C = st &&& 0xFFFFFF0C := by
  simp only [statusAfterError]
  split
  · simp only [statusLaterError]; rw [BitVec.and_or_distrib_right]; simp
  · simp only [statusFirstError]
    rw [BitVec.and_or_distrib_right, BitVec.and_or_distrib_right, BitVec.and_assoc]
    cases c <;> simp [Cause.code]

theorem latchLegal_iff {st e : Word} :
    latchLegal st e = true ↔ st &&& 0xFFFFFF0C = 0 ∧
      (statusErr st = true → ∃ c : Cause, statusCause st = c.code) ∧ (statusErr st = false → st = 0 ∧ e = 0) := by
  unfold latchLegal
  cases h : statusErr st
  · simp
  · simp only [Bool.and_eq_true, beq_iff_eq, if_true, Bool.or_eq_true, reduceCtorEq, false_implies, and_true, true_implies]
    refine and_congr_right fun _ => ⟨?_, ?_⟩
    · rintro ((h | h) | h) <;> exact ⟨_, h⟩
    · rintro ⟨c, h⟩; cases c <;> simp [h]

/-- Raising an error keeps a legal latch legal. -/
theorem latchLegal_raise {st e : Word} (h : latchLegal st e = true) (c : Cause) (w : Word) :
    latchLegal (statusAfterError st c) (errcmdAfterError st e w) = true := by
  obtain ⟨h1, h2, _⟩ := latchLegal_iff.1 h
  refine latchLegal_iff.2 ⟨by rw [statusAfterError_reserved, h1], ?_, ?_⟩ <;> unfold statusAfterError <;> split
  · intro _; simpa using h2 ‹_›
  · intro _; exact ⟨c, statusCause_firstError _ _⟩
  · intro h'; simp_all
  · intro h'; simp at h'

theorem latchLegal_zero : latchLegal 0 0 = true := by decide

end Sys2Proof.Machine
end

