-- ==== Sys2Proof/Laws/Memory.lean ====
section
/-! SUPPORT. The slots of a buffer: a read after a write, and the canonical form that every operation keeps. -/

namespace Sys2Proof.Machine

@[simp] theorem memory_read_nil (i : Nat) : Memory.read [] i = 0 := rfl

@[simp] theorem memory_wf_nil : Memory.wf [] = true := rfl

theorem memory_read_cons (k : Nat) (v : Word) (m : Memory) (i : Nat) :
    Memory.read ((k, v) :: m) i = if i = k then v else Memory.read m i := rfl

theorem memory_write_nil (i : Nat) (w : Word) : Memory.write [] i w = if w = 0 then [] else [(i, w)] := rfl

theorem memory_write_cons (k : Nat) (v : Word) (m : Memory) (i : Nat) (w : Word) :
    Memory.write ((k, v) :: m) i w =
      if i < k then (if w = 0 then (k, v) :: m else (i, w) :: (k, v) :: m)
      else if i = k then (if w = 0 then m else (i, w) :: m)
      else (k, v) :: Memory.write m i w := rfl

theorem memory_wf_cons {k : Nat} {v : Word} {m : Memory} :
    Memory.wf ((k, v) :: m) = true ↔ v ≠ 0 ∧ (∀ p ∈ m, k < p.1) ∧ Memory.wf m = true := by
  have : Memory.wf ((k, v) :: m) = (decide (v ≠ 0) && m.all (fun p => decide (k < p.1)) && Memory.wf m) := rfl
  simp [this, and_assoc]

/-- A slot below every listed index reads as an unlisted one. -/
theorem memory_read_of_lt {m : Memory} {i : Nat} (h : ∀ p ∈ m, i < p.1) : Memory.read m i = 0 := by
  induction m with
  | nil => rfl
  | cons p m ih =>
    obtain ⟨k, v⟩ := p
    have hk : i < k := h (k, v) (by simp)
    rw [memory_read_cons, if_neg (by omega)]
    exact ih fun q hq => h q (by simp [hq])

/-- Every index a write lists was listed or is the one written. -/
theorem memory_write_mem {m : Memory} {i : Nat} {w : Word} {p : Nat × Word} (h : p ∈ Memory.write m i w) :
    p ∈ m ∨ p = (i, w) := by
  induction m with
  | nil => rw [memory_write_nil] at h; split at h <;> simp_all
  | cons q m ih =>
    obtain ⟨k, v⟩ := q
    rw [memory_write_cons] at h
    split at h
    · split at h <;> simp only [List.mem_cons] at h ⊢ <;> tauto
    · split at h
      · split at h <;> simp only [List.mem_cons] at h ⊢ <;> tauto
      · simp only [List.mem_cons] at h ⊢
        rcases h with h | h
        · exact .inl (.inl h)
        · rcases ih h with h' | h'
          · exact .inl (.inr h')
          · exact .inr h'

/-- A write keeps the canonical form. -/
theorem memory_write_wf {m : Memory} (h : Memory.wf m = true) (i : Nat) (w : Word) :
    Memory.wf (Memory.write m i w) = true := by
  induction m with
  | nil =>
    rw [memory_write_nil]
    split
    · rfl
    · next hw => exact memory_wf_cons.2 ⟨hw, by simp, rfl⟩
  | cons p m ih =>
    obtain ⟨k, v⟩ := p
    obtain ⟨hv, hlt, hm⟩ := memory_wf_cons.1 h
    rw [memory_write_cons]
    split
    · next hik =>
      split
      · exact h
      · next hw =>
        refine memory_wf_cons.2 ⟨hw, fun q hq => ?_, h⟩
        rcases List.mem_cons.1 hq with rfl | hq
        · exact hik
        · exact hik.trans (hlt q hq)
    · split
      · next hnlt heq =>
        subst heq
        split
        · exact hm
        · next hw => exact memory_wf_cons.2 ⟨hw, hlt, hm⟩
      · next hnlt hne =>
        refine memory_wf_cons.2 ⟨hv, fun q hq => ?_, ih hm⟩
        rcases memory_write_mem hq with hq | rfl
        · exact hlt q hq
        · simp only; omega

/-- A write keeps every listed index below a bound. -/
theorem memory_write_below {m : Memory} {n i : Nat} (h : ∀ p ∈ m, p.1 < n) (hi : i < n) (w : Word) :
    ∀ p ∈ Memory.write m i w, p.1 < n := by
  intro p hp
  rcases memory_write_mem hp with hp | rfl
  · exact h p hp
  · exact hi

/-- A read after a write gives the word written, and every other slot reads as before. -/
theorem memory_read_write {m : Memory} (h : Memory.wf m = true) (i : Nat) (w : Word) (j : Nat) :
    Memory.read (Memory.write m i w) j = if j = i then w else Memory.read m j := by
  induction m with
  | nil =>
    rw [memory_write_nil]
    split
    · next hw => subst hw; simp
    · simp [memory_read_cons]
  | cons p m ih =>
    obtain ⟨k, v⟩ := p
    obtain ⟨_, hlt, hm⟩ := memory_wf_cons.1 h
    rw [memory_write_cons]
    split
    · next hik =>
      split
      · next hw =>
        subst hw
        split
        · next hj =>
          subst hj
          exact memory_read_of_lt fun q hq => by
            rcases List.mem_cons.1 hq with rfl | hq
            · exact hik
            · exact hik.trans (hlt q hq)
        · rfl
      · rw [memory_read_cons]
    · split
      · next hnlt heq =>
        subst heq
        split
        · next hw =>
          subst hw
          split
          · next hj => subst hj; exact memory_read_of_lt hlt
          · next hj => rw [memory_read_cons, if_neg hj]
        · rw [memory_read_cons]
          split <;> [rfl; (next hj => rw [memory_read_cons, if_neg hj])]
      · next hnlt hne =>
        rw [memory_read_cons, memory_read_cons, ih hm]
        by_cases hj : j = k
        · subst hj; rw [if_pos rfl, if_pos rfl, if_neg (by omega)]
        · simp [hj]

/-- Two canonical memories that read the same are equal. -/
theorem memory_ext {m m' : Memory} (h : Memory.wf m = true) (h' : Memory.wf m' = true)
    (hr : ∀ i, Memory.read m i = Memory.read m' i) : m = m' := by
  induction m generalizing m' with
  | nil =>
    cases m' with
    | nil => rfl
    | cons p m' =>
      obtain ⟨k, v⟩ := p
      have := hr k
      simp [memory_read_cons] at this
      exact absurd this.symm (memory_wf_cons.1 h').1
  | cons p m ih =>
    obtain ⟨k, v⟩ := p
    obtain ⟨hv, hlt, hm⟩ := memory_wf_cons.1 h
    cases m' with
    | nil =>
      have := hr k
      simp [memory_read_cons] at this
      exact absurd this hv
    | cons p' m' =>
      obtain ⟨k', v'⟩ := p'
      obtain ⟨hv', hlt', hm'⟩ := memory_wf_cons.1 h'
      have hk : k = k' := by
        rcases lt_trichotomy k k' with hlt1 | heq | hgt
        · have := hr k
          rw [memory_read_cons, if_pos rfl, memory_read_cons, if_neg (by omega),
            memory_read_of_lt fun q hq => hlt1.trans (hlt' q hq)] at this
          exact absurd this hv
        · exact heq
        · have := hr k'
          rw [memory_read_cons, if_neg (by omega), memory_read_cons, if_pos rfl,
            memory_read_of_lt fun q hq => hgt.trans (hlt q hq)] at this
          exact absurd this.symm hv'
      subst hk
      have hvv : v = v' := by have := hr k; simpa [memory_read_cons] using this
      subst hvv
      congr 1
      refine ih hm hm' fun i => ?_
      by_cases hi : i = k
      · subst hi; rw [memory_read_of_lt hlt, memory_read_of_lt hlt']
      · have := hr i; simpa [memory_read_cons, hi] using this

end Sys2Proof.Machine
end

