-- ==== Sys2Proof/Laws/Ops.lean ====
section
/-! SUPPORT. What the shared operations over buffers and the latch can do, each said once, and that they keep the legal
states. -/

namespace Sys2Proof.Machine

/-! ### Indices -/

theorem capacity_pos (c : Config) (b : BufId) : 0 < capacity c b := by
  unfold capacity
  cases c.backing <;> cases b <;> simp

/-- Both backings advance the head modulo the capacity. -/
theorem nextHead_eq (c : Config) (b : BufId) (h : Nat) : nextHead c b h = (h + 1) % capacity c b := by
  unfold nextHead capacity
  cases c.backing <;> rfl

theorem nextHead_lt (c : Config) (b : BufId) (h : Nat) : nextHead c b h < capacity c b := by
  rw [nextHead_eq]; exact Nat.mod_lt _ (capacity_pos c b)

theorem tapLimit_le_capacity (c : Config) (b : BufId) : tapLimit c b ≤ capacity c b := by
  unfold tapLimit capacity
  cases c.backing <;> simp

/-- Both backings index modulo the capacity, for a legal delay and a head below the capacity. -/
theorem tapIndex_eq {c : Config} {b : BufId} {head d : Nat} (hd : d < tapLimit c b) (hh : head < capacity c b) :
    tapIndex c b head d = (capacity c b + head - d) % capacity c b := by
  have h1 := tapLimit_le_capacity c b
  unfold tapIndex
  cases hc : c.backing with
  | fixed => rfl
  | small =>
    have : capacity c b = 256 := by unfold capacity; rw [hc]
    simp only [this] at *
    omega

/-! ### A push -/

theorem pushed_head (c : Config) (b : BufId) (buf : Buffer) (w : Word) :
    (pushed c b buf w).head = nextHead c b buf.head := rfl

/-- The slots after a push, for canonical slots. -/
theorem pushed_read {buf : Buffer} (h : buf.slots.wf = true) (c : Config) (b : BufId) (w : Word) (i : Nat) :
    (pushed c b buf w).slots.read i = if i = nextHead c b buf.head then w else buf.slots.read i :=
  memory_read_write h _ _ _

theorem pushed_slots_wf {buf : Buffer} (h : buf.slots.wf = true) (c : Config) (b : BufId) (w : Word) :
    (pushed c b buf w).slots.wf = true := memory_write_wf h _ _

/-- All that a push does to its buffer. -/
theorem slotPushed_pushed {buf : Buffer} (h : buf.slots.wf = true) (c : Config) (b : BufId) (w : Word) :
    slotPushed c b buf (pushed c b buf w) w := by
  refine ⟨fun hc => ?_, fun hc => ?_, fun i => pushed_read h c b w i⟩
  · rw [pushed_head, nextHead_eq]
  · rw [pushed_head]; unfold nextHead; rw [hc]

/-- All that a push does to the buffers of a state. -/
@[simp] theorem bufPush_buf (s : State) (b b' : BufId) (w : Word) :
    (bufPush b w s).buf b' = if b' = b then pushed s.cfg b (s.buf b) w else s.buf b' := setBuf_buf _ _ _ _

/-- All that a buffer reset does to the buffers of a state. -/
@[simp] theorem bufReset_buf (s : State) (b b' : BufId) :
    (bufReset b s).buf b' = if b' = b then .empty else s.buf b' := setBuf_buf _ _ _ _

/-! ### Taps -/

/-- A tap of a legal delay answers the word of its slot; of any other delay, nothing. -/
theorem bufTap_eq_some {s : State} {b : BufId} {d : Nat} {w : Word} :
    bufTap s b d = some w ↔ d < tapLimit s.cfg b ∧ tapWord s b d = w := by
  unfold bufTap; split <;> simp [*]

theorem bufTap_eq_none {s : State} {b : BufId} {d : Nat} : bufTap s b d = none ↔ tapLimit s.cfg b ≤ d := by
  unfold bufTap; split <;> simp <;> omega

/-- A tap depends on its buffer and the configuration alone. -/
theorem bufTap_congr {s t : State} {b : BufId} (hc : t.cfg = s.cfg) (hb : t.buf b = s.buf b) (d : Nat) :
    bufTap t b d = bufTap s b d := by
  unfold bufTap tapWord; rw [hc, hb]

/-! ### Legal states -/

theorem buffer_wf_iff {cap : Nat} {buf : Buffer} :
    buf.wf cap = true ↔ buf.slots.wf = true ∧ (∀ p ∈ buf.slots, p.1 < cap) ∧ buf.head < cap := by
  simp [Buffer.wf, and_assoc]

theorem buffer_empty_wf {cap : Nat} (h : 0 < cap) : Buffer.empty.wf cap = true :=
  buffer_wf_iff.2 ⟨rfl, by simp [Buffer.empty], h⟩

/-- A push keeps a legal buffer legal. -/
theorem pushed_wf {c : Config} {b : BufId} {buf : Buffer} (h : buf.wf (capacity c b) = true) (w : Word) :
    (pushed c b buf w).wf (capacity c b) = true := by
  obtain ⟨h1, h2, _⟩ := buffer_wf_iff.1 h
  exact buffer_wf_iff.2 ⟨pushed_slots_wf h1 c b w, memory_write_below h2 (nextHead_lt c b _) w, nextHead_lt c b _⟩

/-- The parts of a legal state. -/
theorem state_wf_iff {s : State} :
    s.wf = true ↔ s.cfg.admitted = true ∧ s.ctrl &&& 0xFFFFFFF0 = 0 ∧ latchLegal s.status s.errcmd = true ∧
      ∀ b, (s.buf b).wf (capacity s.cfg b) = true := by
  simp only [State.wf, Bool.and_eq_true, beq_iff_eq, and_assoc]
  constructor
  · rintro ⟨h1, h2, h3, b0, b1, b2, b3⟩
    exact ⟨h1, h2, h3, fun b => by cases b <;> assumption⟩
  · rintro ⟨h1, h2, h3, hb⟩
    exact ⟨h1, h2, h3, hb .upX2, hb .upX4, hb .downX4, hb .downX2⟩

/-- What a state with the same configuration, controls and latch, and legal buffers, needs to be legal. -/
theorem state_wf_of {s t : State} (h : s.wf = true) (hc : t.cfg = s.cfg) (hk : t.ctrl = s.ctrl)
    (hs : t.status = s.status) (he : t.errcmd = s.errcmd) (hb : ∀ b, (t.buf b).wf (capacity s.cfg b) = true) :
    t.wf = true := by
  obtain ⟨h1, h2, h3, _⟩ := state_wf_iff.1 h
  exact state_wf_iff.2 ⟨hc ▸ h1, hk ▸ h2, by rw [hs, he]; exact h3, by rw [hc]; exact hb⟩

/-- What leaves the configuration, the controls, the latch and the buffers alone keeps a legal state legal. -/
theorem state_wf_of_same {s t : State} (h : s.wf = true) (hc : t.cfg = s.cfg) (hk : t.ctrl = s.ctrl)
    (hs : t.status = s.status) (he : t.errcmd = s.errcmd) (hb : ∀ b, t.buf b = s.buf b) : t.wf = true :=
  state_wf_of h hc hk hs he fun b => by rw [hb]; exact (state_wf_iff.1 h).2.2.2 b

theorem state_wf_bufPush {s : State} (h : s.wf = true) (b : BufId) (w : Word) : (bufPush b w s).wf = true :=
  state_wf_of h (by simp) (by simp) (by simp) (by simp) fun b' => by
    have hb := (state_wf_iff.1 h).2.2.2
    rw [bufPush_buf]
    split
    · next e => subst e; exact pushed_wf (hb _) w
    · exact hb b'

theorem state_wf_bufReset {s : State} (h : s.wf = true) (b : BufId) : (bufReset b s).wf = true :=
  state_wf_of h (by simp) (by simp) (by simp) (by simp) fun b' => by
    rw [bufReset_buf]
    split
    · exact buffer_empty_wf (capacity_pos _ _)
    · exact (state_wf_iff.1 h).2.2.2 b'

theorem state_wf_signalReset {s : State} (h : s.wf = true) : (signalReset s).wf = true :=
  state_wf_of h (by simp) (by simp) (by simp) (by simp) fun b => by
    rw [signalReset_buf]; exact buffer_empty_wf (capacity_pos _ _)

theorem state_wf_setR {s : State} (h : s.wf = true) (i : Fin 4) (w : Word) : (s.setR i w).wf = true :=
  state_wf_of_same h (by simp) (by simp) (by simp) (by simp) (by simp)

theorem state_wf_setR01 {s : State} (h : s.wf = true) (w0 w1 : Word) : (s.setR01 w0 w1).wf = true :=
  state_wf_of_same h (by simp) (by simp) (by simp) (by simp) (by simp)

theorem state_wf_setR0123 {s : State} (h : s.wf = true) (w0 w1 w2 w3 : Word) : (s.setR0123 w0 w1 w2 w3).wf = true :=
  state_wf_of_same h (by simp) (by simp) (by simp) (by simp) (by simp)

theorem state_wf_dcStep {s : State} (h : s.wf = true) (x : Word) : (dcStep x s).wf = true :=
  state_wf_of_same h (by simp) (by simp) (by simp) (by simp) (by simp)

theorem state_wf_takeInput {s : State} (h : s.wf = true) (rest : List Input) : (takeInput rest s).wf = true :=
  state_wf_of_same h (by simp) (by simp) (by simp) (by simp) (by simp)

theorem state_wf_readReg {s : State} (h : s.wf = true) (reg : Reg) : (readReg reg s).wf = true :=
  state_wf_of_same h (by simp) (by simp) (by simp) (by simp) (by simp)

theorem state_wf_raiseError {s : State} (h : s.wf = true) (c : Cause) (w : Word) : (raiseError c w s).wf = true := by
  obtain ⟨h1, h2, h3, hb⟩ := state_wf_iff.1 h
  exact state_wf_iff.2 ⟨by simpa, by simpa, by simpa using latchLegal_raise h3 c w, by simpa using hb⟩

theorem state_wf_clearError {s : State} (h : s.wf = true) : (clearError s).wf = true := by
  obtain ⟨h1, h2, _, hb⟩ := state_wf_iff.1 h
  exact state_wf_iff.2 ⟨by simpa, by simpa, by simpa using latchLegal_zero, by simpa using hb⟩

theorem state_wf_hardwareReset {s : State} (h : s.wf = true) : (hardwareReset s).wf = true :=
  state_wf_iff.2 ⟨by simpa using (state_wf_iff.1 h).1, by simp, by simpa using latchLegal_zero, fun b => by
    simpa using buffer_empty_wf (capacity_pos _ b)⟩

theorem ctrlStored_legal (w : Word) : ctrlStored w &&& 0xFFFFFFF0 = 0 := by
  unfold ctrlStored
  rw [BitVec.and_assoc, show (0x0000000F : Word) &&& 0xFFFFFFF0 = 0 from rfl]; simp

end Sys2Proof.Machine
end

