-- ==== Sys2Proof/Laws/Multirate.lean ====
section
/-! SUPPORT. The polyphase halves of a table, FIR sums as sums over the checked taps, and all that the stages and the
cascade can do. -/

namespace Sys2Proof.Machine

/-! ### The polyphase halves -/

theorem evenTaps_length : ∀ h : List Word, (evenTaps h).length = (h.length + 1) / 2
  | [] => rfl
  | [_] => by simp [evenTaps]
  | _ :: _ :: hs => by simp only [evenTaps, List.length_cons, evenTaps_length hs]; omega

theorem oddTaps_length : ∀ h : List Word, (oddTaps h).length = h.length / 2
  | [] => rfl
  | [_] => by simp [oddTaps]
  | _ :: _ :: hs => by simp only [oddTaps, List.length_cons, oddTaps_length hs]; omega

/-- The even phase holds H[2k] at k. -/
theorem evenTaps_getD : ∀ (h : List Word) (k : Nat), (evenTaps h).getD k 0 = h.getD (2 * k) 0
  | [], _ => rfl
  | [_], 0 => rfl
  | [_], _ + 1 => rfl
  | _ :: _ :: _, 0 => rfl
  | _ :: _ :: hs, k + 1 => by
    have := evenTaps_getD hs k
    simpa [evenTaps, Nat.mul_add] using this

/-- The odd phase holds H[2k + 1] at k. -/
theorem oddTaps_getD : ∀ (h : List Word) (k : Nat), (oddTaps h).getD k 0 = h.getD (2 * k + 1) 0
  | [], _ => rfl
  | [_], _ => rfl
  | _ :: _ :: _, 0 => rfl
  | _ :: _ :: hs, k + 1 => by
    have := oddTaps_getD hs k
    simpa [oddTaps, Nat.mul_add] using this

/-! ### FIR sums -/

/-- A FIR sum depends on its buffer and the configuration alone. -/
theorem firFrom_congr {s t : State} {b : BufId} (hc : t.cfg = s.cfg) (hb : t.buf b = s.buf b) :
    ∀ (hs : List Word) (k : Nat) (acc : Word), firFrom t b hs k acc = firFrom s b hs k acc
  | [], _, _ => rfl
  | h :: hs, k, acc => by
    have : tapWord t b k = tapWord s b k := by unfold tapWord; rw [hc, hb]
    simp only [firFrom, this]
    exact firFrom_congr hc hb hs _ _

theorem firSum_congr {s t : State} {b : BufId} (hc : t.cfg = s.cfg) (hb : t.buf b = s.buf b) (hs : List Word) :
    firSum t b hs = firSum s b hs := firFrom_congr hc hb hs _ _

/-- Over legal delays the FIR sum is the sum over the checked taps. -/
theorem firFrom_eq_foldl (s : State) (b : BufId) (coef : Nat → Word) :
    ∀ (hs : List Word) (k : Nat) (acc : Word), (∀ j < hs.length, coef (k + j) = hs.getD j 0) →
      (∀ j < hs.length, k + j < tapLimit s.cfg b) →
      firFrom s b hs k acc =
        (List.range' k hs.length).foldl (fun acc k => fadd acc (fmul (coef k) ((bufTap s b k).getD 0))) acc
  | [], _, _, _, _ => rfl
  | h :: hs, k, acc, hc, hl => by
    have h0 : coef k = h := by simpa using hc 0 (by simp)
    have h1 : bufTap s b k = some (tapWord s b k) := bufTap_eq_some.2 ⟨by simpa using hl 0 (by simp), rfl⟩
    have hc' : ∀ j < hs.length, coef (k + 1 + j) = hs.getD j 0 := fun j hj => by
      have := hc (j + 1) (by simpa using hj)
      rw [show k + 1 + j = k + (j + 1) by omega, this]; simp
    have hl' : ∀ j < hs.length, k + 1 + j < tapLimit s.cfg b := fun j hj => by
      have := hl (j + 1) (by simpa using hj)
      omega
    simp only [firFrom, List.length_cons, List.range'_succ, List.foldl_cons, h0, h1, Option.getD_some]
    exact firFrom_eq_foldl s b coef hs (k + 1) _ hc' hl'

theorem firSum_eq_firOver {s : State} {b : BufId} {coef : Nat → Word} {hs : List Word} {n : Nat}
    (hn : hs.length = n) (hc : ∀ k < n, coef k = hs.getD k 0) (hl : ∀ k < n, k < tapLimit s.cfg b) :
    firSum s b hs = firOver s b coef n := by
  subst hn
  rw [firSum, firFrom_eq_foldl s b coef hs 0 fzero (by simpa using hc) (by simpa using hl), firOver,
    List.range_eq_range']

/-- The sum over the checked taps depends on its buffer and the configuration alone. -/
theorem firOver_congr {s t : State} {b : BufId} (hc : t.cfg = s.cfg) (hb : t.buf b = s.buf b) (coef : Nat → Word)
    (n : Nat) : firOver t b coef n = firOver s b coef n := by
  unfold firOver
  simp only [bufTap_congr hc hb]

/-! ### The stages -/

@[simp] theorem upStage_state (b : BufId) (h : List Word) (v : Word) (s : State) :
    (upStage b h v s).1 = bufPush b v s := rfl

@[simp] theorem upStage_even (b : BufId) (h : List Word) (v : Word) (s : State) :
    (upStage b h v s).2.1 = upEven (bufPush b v s) b h := rfl

@[simp] theorem upStage_odd (b : BufId) (h : List Word) (v : Word) (s : State) :
    (upStage b h v s).2.2 = upOdd (bufPush b v s) b h := rfl

@[simp] theorem downStage_state (b : BufId) (h : List Word) (v0 v1 : Word) (s : State) :
    (downStage b h v0 v1 s).1 = bufPush b v1 (bufPush b v0 s) := rfl

@[simp] theorem downStage_out (b : BufId) (h : List Word) (v0 v1 : Word) (s : State) :
    (downStage b h v0 v1 s).2 = firSum (bufPush b v1 (bufPush b v0 s)) b h := rfl

theorem execUp2x_eq (s : State) :
    execUp2x s = .next ((upStage .upX2 s.cfg.h2 (operand s 0) s).1.setR01
      (upStage .upX2 s.cfg.h2 (operand s 0) s).2.1 (upStage .upX2 s.cfg.h2 (operand s 0) s).2.2) := by
  unfold execUp2x
  generalize upStage .upX2 s.cfg.h2 (operand s 0) s = p
  rfl

theorem execUp4x_eq (s : State) :
    execUp4x s = .next ((upStage .upX4 s.cfg.h4 (operand s 0) s).1.setR01
      (upStage .upX4 s.cfg.h4 (operand s 0) s).2.1 (upStage .upX4 s.cfg.h4 (operand s 0) s).2.2) := by
  unfold execUp4x
  generalize upStage .upX4 s.cfg.h4 (operand s 0) s = p
  rfl

theorem execDn4x_eq (s : State) :
    execDn4x s = .next ((downStage .downX4 s.cfg.h4 (operand s 0) (operand s 1) s).1.setR 0
      (downStage .downX4 s.cfg.h4 (operand s 0) (operand s 1) s).2) := by
  unfold execDn4x
  generalize downStage .downX4 s.cfg.h4 (operand s 0) (operand s 1) s = p
  rfl

theorem execDn2x_eq (s : State) :
    execDn2x s = .next ((downStage .downX2 s.cfg.h2 (operand s 0) (operand s 1) s).1.setR 0
      (downStage .downX2 s.cfg.h2 (operand s 0) (operand s 1) s).2) := by
  unfold execDn2x
  generalize downStage .downX2 s.cfg.h2 (operand s 0) (operand s 1) s = p
  rfl

/-! ### The cascade -/

/-- The cascade is the six stages of R241, each on what the one before it left. -/
theorem cascade_eq {x : Word} {s s1 s2 s3 s4 s5 : State} {e o y0 y1 y2 y3 d0 d1 : Word}
    (h1 : upStage .upX2 s.cfg.h2 x s = (s1, e, o)) (h2 : upStage .upX4 s.cfg.h4 e s1 = (s2, y0, y1))
    (h3 : upStage .upX4 s.cfg.h4 o s2 = (s3, y2, y3))
    (h4 : downStage .downX4 s.cfg.h4 (inner s y0) (inner s y1) s3 = (s4, d0))
    (h5 : downStage .downX4 s.cfg.h4 (inner s y2) (inner s y3) s4 = (s5, d1)) :
    cascade x s = downStage .downX2 s.cfg.h2 d0 d1 s5 := by
  unfold cascade
  rw [h1]; dsimp only
  rw [h2]; dsimp only
  rw [h3]; dsimp only
  rw [h4]; dsimp only
  rw [h5]

/-- The cascade changes the state by nine pushes alone. -/
theorem cascade_pushes (x : Word) (s : State) :
    ∃ e o z0 z1 z2 z3 d0 d1, (cascade x s).1 =
      bufPush .downX2 d1 (bufPush .downX2 d0 (bufPush .downX4 z3 (bufPush .downX4 z2 (bufPush .downX4 z1
        (bufPush .downX4 z0 (bufPush .upX4 o (bufPush .upX4 e (bufPush .upX2 x s)))))))) :=
  ⟨_, _, _, _, _, _, _, _, by rw [cascade_eq rfl rfl rfl rfl rfl]; rfl⟩

/-- The cascade keeps a legal state legal. -/
theorem state_wf_cascade {s : State} (h : s.wf = true) (x : Word) : (cascade x s).1.wf = true := by
  obtain ⟨e, o, z0, z1, z2, z3, d0, d1, hc⟩ := cascade_pushes x s
  rw [hc]
  exact state_wf_bufPush (state_wf_bufPush (state_wf_bufPush (state_wf_bufPush (state_wf_bufPush (state_wf_bufPush
    (state_wf_bufPush (state_wf_bufPush (state_wf_bufPush h _ _) _ _) _ _) _ _) _ _) _ _) _ _) _ _) _ _

theorem execOs4_eq (s : State) :
    execOs4 s = .next ((cascade (cascadeInput s) (cascadeStart s)).1.setR 0
      (cascade (cascadeInput s) (cascadeStart s)).2) := by
  unfold execOs4
  generalize cascade (cascadeInput s) (cascadeStart s) = p
  rfl

/-- The cascade starts from the state after the DC step when DCB_EN = 1. -/
theorem cascadeStart_enabled {s : State} (h : s.ctrl.getLsbD 2 = true) :
    cascadeStart s = dcStep (operand s 0) s ∧ cascadeInput s = dcOutput (operand s 0) s.xz1 s.yz1 := by
  unfold cascadeStart cascadeInput ctrlDcbEn
  rw [h]; exact ⟨rfl, rfl⟩

/-- The cascade starts from the state as it is, on A0, when DCB_EN = 0. -/
theorem cascadeStart_disabled {s : State} (h : s.ctrl.getLsbD 2 = false) :
    cascadeStart s = s ∧ cascadeInput s = operand s 0 := by
  unfold cascadeStart cascadeInput ctrlDcbEn
  rw [h]; exact ⟨rfl, rfl⟩

end Sys2Proof.Machine
end

