-- ==== Sys2Proof/Laws/PerInstr.lean ====
section
/-! SUPPORT. Statements made per command, one lemma per constructor. -/

namespace Sys2Proof.Laws.RowOfCommand

/-- The command's own row of the opcode map (its OP, its class) accepts the command's word. -/
def Statement (i : Instr) : Prop :=
  ∃ r ∈ opRows, r.op = i.op ∧ r.cls = i.fieldClass ∧ r.accepts (encode i) = true

theorem nop : Statement .nop := ⟨opRows[0], by simp [opRows], rfl, rfl, by decide⟩

theorem rst : Statement .rst := ⟨opRows[1], by simp [opRows], rfl, rfl, by decide⟩

theorem init : Statement .init := ⟨opRows[2], by simp [opRows], rfl, rfl, by decide⟩

theorem clrerr : Statement .clrerr := ⟨opRows[3], by simp [opRows], rfl, rfl, by decide⟩

theorem push (b : BufId) : Statement (.push b) := by
  cases b <;> exact ⟨opRows[4], by simp [opRows], rfl, rfl, by decide⟩

theorem tap (b : BufId) (delay : Nat) : Statement (.tap b delay) := by
  refine ⟨opRows[5], by simp [opRows], rfl, rfl, ?_⟩
  simp only [OpRow.accepts, OpRow.matchWord, encode, Instr.op, Instr.bufBits, Instr.delayBits, opRows, beq_iff_eq]
  generalize BitVec.ofNat 16 delay = d
  apply BitVec.eq_of_getLsbD_eq
  intro i hi
  cases b <;> interval_cases i <;> simp [FieldClass.mask, BufId.field, commandWord_getLsbD, -BitVec.getLsbD_eq_getElem]

theorem brst (b : BufId) : Statement (.brst b) := by
  cases b <;> exact ⟨opRows[6], by simp [opRows], rfl, rfl, by decide⟩

theorem up2x : Statement .up2x := ⟨opRows[7], by simp [opRows], rfl, rfl, by decide⟩

theorem up4x : Statement .up4x := ⟨opRows[8], by simp [opRows], rfl, rfl, by decide⟩

theorem dn4x : Statement .dn4x := ⟨opRows[9], by simp [opRows], rfl, rfl, by decide⟩

theorem dn2x : Statement .dn2x := ⟨opRows[10], by simp [opRows], rfl, rfl, by decide⟩

theorem os4 : Statement .os4 := ⟨opRows[11], by simp [opRows], rfl, rfl, by decide⟩

theorem clip : Statement .clip := ⟨opRows[12], by simp [opRows], rfl, rfl, by decide⟩

theorem clip4 : Statement .clip4 := ⟨opRows[13], by simp [opRows], rfl, rfl, by decide⟩

theorem powE : Statement .powE := ⟨opRows[14], by simp [opRows], rfl, rfl, by decide⟩

theorem powF : Statement .powF := ⟨opRows[15], by simp [opRows], rfl, rfl, by decide⟩

theorem powFR : Statement .powFR := ⟨opRows[16], by simp [opRows], rfl, rfl, by decide⟩

theorem powFT : Statement .powFT := ⟨opRows[17], by simp [opRows], rfl, rfl, by decide⟩

theorem pow4E : Statement .pow4E := ⟨opRows[18], by simp [opRows], rfl, rfl, by decide⟩

theorem pow4F : Statement .pow4F := ⟨opRows[19], by simp [opRows], rfl, rfl, by decide⟩

theorem pow4FR : Statement .pow4FR := ⟨opRows[20], by simp [opRows], rfl, rfl, by decide⟩

theorem pow4FT : Statement .pow4FT := ⟨opRows[21], by simp [opRows], rfl, rfl, by decide⟩

theorem dcb : Statement .dcb := ⟨opRows[22], by simp [opRows], rfl, rfl, by decide⟩

end Sys2Proof.Laws.RowOfCommand
end

