-- ==== Sys2Proof/Machine/Assembler.lean ====
section
/-! DEFINITION. The spec's own notation for what a host does: program lines, the pseudo-instructions, and their text
(30_encoding.md R117, R118). A line is a plain bus access; the block itself sees nothing else. -/

namespace Sys2Proof.Machine

/-- A line of a program (30_encoding.md R117). -/
inductive Line where
  | wr (reg : Reg) (w : Word)
  | rd (reg : Reg)
  | cmd (i : Instr)
deriving DecidableEq, Repr

/-- The pseudo-instructions, with every decimal already a word (30_encoding.md R118). -/
inductive Pseudo where
  | ldf (i : Fin 8) (w : Word)
  | seth (w : Word)
  | setctrl (tier dcbEn innerSel : Nat)
  | pushf (b : BufId) (w : Word)
  | clipf (w : Word)
  | powf (t : Tier) (x y : Word)
  | dcbf (w : Word)
  | step (w : Word)
  | chkerr
deriving DecidableEq, Repr

/-- The bus access of a line (30_encoding.md R117). -/
def lineInput (c : Config) : Line → Input
  | .wr reg w => .write .word (c.base + reg.offset) w
  | .rd reg => .read .word (c.base + reg.offset)
  | .cmd i => commandWrite c (encode i)

/-- The inputs of a program (30_encoding.md R117). -/
def assemble (c : Config) (lines : List Line) : List Input := lines.map (lineInput c)

/-- The scalar pow command of a tier (42_fastpow.md R170). -/
def scalarPowOf : Tier → Instr
  | .exact => .powE
  | .fast => .powF
  | .faster => .powFR
  | .fastest => .powFT

/-- The expansion of a pseudo-instruction (30_encoding.md R118). -/
def expand : Pseudo → List Line
  | .ldf i w => [.wr (.a i) w]
  | .seth w => [.wr .hardness w]
  | .setctrl t e s => [.wr .ctrl (BitVec.ofNat 32 (t + 4 * e + 8 * s))]
  | .pushf b w => [.wr (.a 0) w, .cmd (.push b)]
  | .clipf w => [.wr (.a 0) w, .cmd .clip, .rd (.r 0)]
  | .powf t x y => [.wr (.a 0) x, .wr (.a 1) y, .cmd (scalarPowOf t), .rd (.r 0)]
  | .dcbf w => [.wr (.a 0) w, .cmd .dcb, .rd (.r 0)]
  | .step w => [.wr (.a 0) w, .cmd .os4, .rd (.r 0)]
  | .chkerr => [.rd .status]

/-! ### Text -/

/-- The name of a register (30_encoding.md R117). -/
def registerNames : List (String × Reg) :=
  [ ("ID", .id), ("GEOM", .geom), ("FEAT", .feat), ("CTRL", .ctrl), ("HARDNESS", .hardness), ("STATUS", .status),
    ("ERRCMD", .errcmd), ("CMD", .cmd), ("A0", .a 0), ("A1", .a 1), ("A2", .a 2), ("A3", .a 3), ("A4", .a 4),
    ("A5", .a 5), ("A6", .a 6), ("A7", .a 7), ("R0", .r 0), ("R1", .r 1), ("R2", .r 2), ("R3", .r 3),
    ("LATENCY", .latency), ("TAIL", .tail), ("DCX", .dcx), ("DCY", .dcy), ("HEAD0", .head .upX2),
    ("HEAD1", .head .upX4), ("HEAD2", .head .downX4), ("HEAD3", .head .downX2) ]

/-- The mnemonics that take no operand (30_encoding.md R113, R117). -/
def plainMnemonics : List (String × Instr) :=
  [ ("NOP", .nop), ("RST", .rst), ("INIT", .init), ("CLRERR", .clrerr), ("UP2X", .up2x), ("UP4X", .up4x),
    ("DN4X", .dn4x), ("DN2X", .dn2x), ("OS4", .os4), ("CLIP", .clip), ("CLIP4", .clip4), ("POW.E", .powE),
    ("POW.F", .powF), ("POW.FR", .powFR), ("POW.FT", .powFT), ("POW4.E", .pow4E), ("POW4.F", .pow4F),
    ("POW4.FR", .pow4FR), ("POW4.FT", .pow4FT), ("DCB", .dcb) ]

/-- A buffer by number or by name (30_encoding.md R117). -/
def bufferNames : List (String × BufId) :=
  [ ("0", .upX2), ("1", .upX4), ("2", .downX4), ("3", .downX2), ("UP_X2", .upX2), ("UP_X4", .upX4),
    ("DOWN_X4", .downX4), ("DOWN_X2", .downX2) ]

/-- The pow pseudo-instructions by tier (30_encoding.md R118). -/
def powfNames : List (String × Tier) :=
  [ ("POWF.E", .exact), ("POWF.F", .fast), ("POWF.FR", .faster), ("POWF.FT", .fastest) ]

/-- The value of a token in a table of names. -/
def lookupName {α : Type} (table : List (String × α)) (token : List Char) : Option α :=
  (table.find? (fun p => p.1.toList == token)).map Prod.snd

/-- The text of a line before its comment, in upper case, its commas read as spaces (30_encoding.md R117). -/
def bareText : List Char → List Char
  | [] => []
  | ch :: cs => if ch = ';' then [] else (if ch = ',' then ' ' else ch.toUpper) :: bareText cs

/-- The tokens of a text: its longest runs without a space. -/
def tokens : List Char → List (List Char)
  | [] => []
  | ch :: cs =>
    if ch = ' ' then tokens cs
    else
      match cs, tokens cs with
      | [], _ => [[ch]]
      | next :: _, rest =>
        match rest with
        | [] => [[ch]]
        | t :: ts => if next = ' ' then [ch] :: t :: ts else (ch :: t) :: ts

/-- The value of a digit in upper-case hexadecimal. -/
def digitValue (ch : Char) : Option Nat :=
  if '0'.toNat ≤ ch.toNat ∧ ch.toNat ≤ '9'.toNat then some (ch.toNat - '0'.toNat)
  else if 'A'.toNat ≤ ch.toNat ∧ ch.toNat ≤ 'F'.toNat then some (ch.toNat - 'A'.toNat + 10)
  else none

/-- A run of digits in a base, read on from `acc`. -/
def parseDigits (base : Nat) : Nat → List Char → Option Nat
  | acc, [] => some acc
  | acc, ch :: cs =>
    match digitValue ch with
    | some d => if d < base then parseDigits base (acc * base + d) cs else none
    | none => none

/-- A nonempty decimal integer. -/
def parseNat : List Char → Option Nat
  | [] => none
  | cs => parseDigits 10 0 cs

/-- The part of a text after its first full stop, and the part before it. -/
def splitPoint (cs : List Char) : List Char × Option (List Char) :=
  match cs.findIdx? (· == '.') with
  | some i => (cs.take i, some (cs.drop (i + 1)))
  | none => (cs, none)

/-- An unsigned decimal as a fraction n / d. -/
def parseFraction (cs : List Char) : Option (Nat × Nat) :=
  match splitPoint cs with
  | (whole, none) => (parseNat whole).map (fun n => (n, 1))
  | (whole, some part) =>
    match parseNat whole, parseNat part with
    | some n, some f => some (n * 10 ^ part.length + f, 10 ^ part.length)
    | _, _ => none

/-- The word nearest to a decimal, ties to even (30_encoding.md R117). -/
def parseDecimal (cs : List Char) : Option Word :=
  match cs with
  | '-' :: rest => (parseFraction rest).map (fun p => f32OfDecimal true p.1 p.2)
  | _ => (parseFraction cs).map (fun p => f32OfDecimal false p.1 p.2)

/-- A value: a hexadecimal word, or f32(decimal) (30_encoding.md R117). -/
def parseValue (cs : List Char) : Option Word :=
  match cs with
  | '0' :: 'X' :: ds =>
    if ds = [] ∨ 8 < ds.length then none else (parseDigits 16 0 ds).map (BitVec.ofNat 32)
  | 'F' :: '3' :: '2' :: '(' :: rest =>
    if rest.getLast? = some ')' then parseDecimal rest.dropLast else none
  | _ => none

/-- The operand register of LDF. -/
def parseOperandReg (cs : List Char) : Option (Fin 8) :=
  match lookupName registerNames cs with
  | some (.a i) => some i
  | _ => none

/-- A pseudo-instruction from its tokens (30_encoding.md R118). -/
def parsePseudo (ts : List (List Char)) : Option Pseudo :=
  match ts with
  | [op] => if op = "CHKERR".toList then some .chkerr else none
  | [op, x] =>
    if op = "SETH".toList then (parseDecimal x).map .seth
    else if op = "CLIPF".toList then (parseDecimal x).map .clipf
    else if op = "DCBF".toList then (parseDecimal x).map .dcbf
    else if op = "STEP".toList then (parseDecimal x).map .step
    else none
  | [op, x, y] =>
    if op = "LDF".toList then
      match parseOperandReg x, parseDecimal y with
      | some i, some w => some (.ldf i w)
      | _, _ => none
    else if op = "PUSHF".toList then
      match lookupName bufferNames x, parseDecimal y with
      | some b, some w => some (.pushf b w)
      | _, _ => none
    else
      match lookupName powfNames op, parseDecimal x, parseDecimal y with
      | some t, some v, some w => some (.powf t v w)
      | _, _, _ => none
  | [op, t, e, s] =>
    if op = "SETCTRL".toList then
      match parseNat t, parseNat e, parseNat s with
      | some t', some e', some s' => if t' ≤ 3 ∧ e' ≤ 1 ∧ s' ≤ 1 then some (.setctrl t' e' s') else none
      | _, _, _ => none
    else none
  | _ => none

/-- A plain line from its tokens (30_encoding.md R117). -/
def parsePlain (ts : List (List Char)) : Option Line :=
  match ts with
  | [op] => (lookupName plainMnemonics op).map .cmd
  | [op, x] =>
    if op = "RD".toList then (lookupName registerNames x).map .rd
    else if op = "PUSH".toList then (lookupName bufferNames x).map (fun b => .cmd (.push b))
    else if op = "BRST".toList then (lookupName bufferNames x).map (fun b => .cmd (.brst b))
    else none
  | [op, x, y] =>
    if op = "WR".toList then
      match lookupName registerNames x, parseValue y with
      | some reg, some w => some (.wr reg w)
      | _, _ => none
    else if op = "TAP".toList then
      match lookupName bufferNames x, parseNat y with
      | some b, some d => if d < 65536 then some (.cmd (.tap b d)) else none
      | _, _ => none
    else none
  | _ => none

/-- The plain lines of one line of text: none for a comment, one for a plain line, the expansion for a
pseudo-instruction (30_encoding.md R117, R118). -/
def parseLine (text : List Char) : Option (List Line) :=
  match tokens (bareText text) with
  | [] => some []
  | ts =>
    match parsePlain ts with
    | some l => some [l]
    | none => (parsePseudo ts).map expand

end Sys2Proof.Machine
end

