-- ==== Sys2Proof/Tests/Slice0.lean ====
section
/-! SUPPORT. Tests of the model on the spec's own vectors, the smoke tests of WellFormed, a word of every command, and a
witness for every statement that has hypotheses. A comment names the spec's table a value comes from. -/

namespace Sys2Proof.Machine

/-! ### Small states -/

/-- TC1 after reset, with operands A0 to A3 and A4 to A7 (95_test_vectors.md). -/
def testState (x y : Vector Word 4) : State :=
  { State.reset with a := #v[x[0], x[1], x[2], x[3], y[0], y[1], y[2], y[3]] }

/-- TC1 after reset, with A0 and A1. -/
def testOn (x y : Word) : State := testState #v[x, y, 0, 0] #v[0, 0, 0, 0]

/-- A state with these controls. -/
def State.withControls (s : State) (ctrl hardness : Word) : State := { s with ctrl := ctrl, hardness := hardness }

/-- The state after one step from `s`, its own where the step does not give one. -/
def stepped (s : State) : State :=
  match step s with
  | .next t => t
  | .fault _ => s
  | .refused _ => s

/-- The state after one step that runs the command word `w`. -/
def ran (w : Word) (s : State) : State := stepped (s.withFetchWord 32 w.toNat)

/-- The word a read of an offset answers. -/
def readAt (s : State) (off : Nat) : Option Word := (stepped { s with inputs := [.read .word (s.cfg.base + off)] }).answer

/-- The state after a write of `w` at an offset. -/
def wroteAt (s : State) (off : Nat) (w : Word) : State :=
  stepped { s with inputs := [.write .word (s.cfg.base + off) w] }

/-! ### WellFormed -/

/-- 30_encoding.md R111: DELAY is 16 bits. -/
theorem test_delay_of_17_bits_is_ill_formed : (Instr.tap .upX2 65536).wellFormed = false := by decide

theorem test_delay_of_16_bits_is_well_formed : (Instr.tap .upX2 65535).wellFormed = true := by decide

/-- 00_scope.md R20: the configurations TC1 and TC1S are admitted. -/
theorem test_tc1_is_admitted : Config.tc1.admitted = true ∧ Config.tc1s.admitted = true := by decide

/-- 00_scope.md R20: an odd length. -/
theorem test_odd_table_is_refused : ({ Config.tc1 with h2 := [0, 0, 0] } : Config).admitted = false := by decide

/-- 00_scope.md R20: an empty table. -/
theorem test_empty_table_is_refused : ({ Config.tc1 with h4 := [] } : Config).admitted = false := by decide

/-- 00_scope.md R20: a length above 65534. -/
theorem test_long_table_is_refused : admittedLength .fixed 65536 = false ∧ admittedLength .fixed 65534 = true := by decide

/-- 00_scope.md R22: a length above 254 under SMALL. -/
theorem test_long_small_table_is_refused : admittedLength .small 256 = false ∧ admittedLength .small 254 = true := by decide

/-- 00_scope.md R20: an infinite coefficient. -/
theorem test_infinite_coefficient_is_refused :
    ({ Config.tc1 with h2 := [0x7F800000, 0] } : Config).admitted = false := by decide

/-- 00_scope.md R24: BASE is a multiple of 256. -/
theorem test_unaligned_base_is_refused : ({ Config.tc1 with base := 128 } : Config).admitted = false := by decide

/-! ### Decode: a word of every command, written out from its fields Z2, DELAY, Z1, BUF, OP (30_encoding.md R110, R113) -/

theorem test_decode_nop : decode (0b0000#4 ++ 0#16 ++ 0b00#2 ++ 0b00#2 ++ 0b00000000#8) = .ok .nop := by decide

theorem test_decode_rst : decode (0b0000#4 ++ 0#16 ++ 0b00#2 ++ 0b00#2 ++ 0b00000001#8) = .ok .rst := by decide

theorem test_decode_init : decode (0b0000#4 ++ 0#16 ++ 0b00#2 ++ 0b00#2 ++ 0b00000010#8) = .ok .init := by decide

theorem test_decode_clrerr : decode (0b0000#4 ++ 0#16 ++ 0b00#2 ++ 0b00#2 ++ 0b00000011#8) = .ok .clrerr := by decide

theorem test_decode_push : decode (0b0000#4 ++ 0#16 ++ 0b00#2 ++ 0b11#2 ++ 0b00010000#8) = .ok (.push .downX2) := by decide

theorem test_decode_tap :
    decode (0b0000#4 ++ 0b1000000000000101#16 ++ 0b00#2 ++ 0b10#2 ++ 0b00010001#8) = .ok (.tap .downX4 32773) := by decide

theorem test_decode_brst : decode (0b0000#4 ++ 0#16 ++ 0b00#2 ++ 0b01#2 ++ 0b00010010#8) = .ok (.brst .upX4) := by decide

theorem test_decode_up2x : decode (0b0000#4 ++ 0#16 ++ 0b00#2 ++ 0b00#2 ++ 0b00100000#8) = .ok .up2x := by decide

theorem test_decode_up4x : decode (0b0000#4 ++ 0#16 ++ 0b00#2 ++ 0b00#2 ++ 0b00100001#8) = .ok .up4x := by decide

theorem test_decode_dn4x : decode (0b0000#4 ++ 0#16 ++ 0b00#2 ++ 0b00#2 ++ 0b00100010#8) = .ok .dn4x := by decide

theorem test_decode_dn2x : decode (0b0000#4 ++ 0#16 ++ 0b00#2 ++ 0b00#2 ++ 0b00100011#8) = .ok .dn2x := by decide

theorem test_decode_os4 : decode (0b0000#4 ++ 0#16 ++ 0b00#2 ++ 0b00#2 ++ 0b00100100#8) = .ok .os4 := by decide

theorem test_decode_clip : decode (0b0000#4 ++ 0#16 ++ 0b00#2 ++ 0b00#2 ++ 0b00110000#8) = .ok .clip := by decide

theorem test_decode_clip4 : decode (0b0000#4 ++ 0#16 ++ 0b00#2 ++ 0b00#2 ++ 0b00110001#8) = .ok .clip4 := by decide

theorem test_decode_powE : decode (0b0000#4 ++ 0#16 ++ 0b00#2 ++ 0b00#2 ++ 0b01000000#8) = .ok .powE := by decide

theorem test_decode_powF : decode (0b0000#4 ++ 0#16 ++ 0b00#2 ++ 0b00#2 ++ 0b01000001#8) = .ok .powF := by decide

theorem test_decode_powFR : decode (0b0000#4 ++ 0#16 ++ 0b00#2 ++ 0b00#2 ++ 0b01000010#8) = .ok .powFR := by decide

theorem test_decode_powFT : decode (0b0000#4 ++ 0#16 ++ 0b00#2 ++ 0b00#2 ++ 0b01000011#8) = .ok .powFT := by decide

theorem test_decode_pow4E : decode (0b0000#4 ++ 0#16 ++ 0b00#2 ++ 0b00#2 ++ 0b01000100#8) = .ok .pow4E := by decide

theorem test_decode_pow4F : decode (0b0000#4 ++ 0#16 ++ 0b00#2 ++ 0b00#2 ++ 0b01000101#8) = .ok .pow4F := by decide

theorem test_decode_pow4FR : decode (0b0000#4 ++ 0#16 ++ 0b00#2 ++ 0b00#2 ++ 0b01000110#8) = .ok .pow4FR := by decide

theorem test_decode_pow4FT : decode (0b0000#4 ++ 0#16 ++ 0b00#2 ++ 0b00#2 ++ 0b01000111#8) = .ok .pow4FT := by decide

theorem test_decode_dcb : decode (0b0000#4 ++ 0#16 ++ 0b00#2 ++ 0b00#2 ++ 0b01010000#8) = .ok .dcb := by decide

/-- 95_test_vectors.md 2.1: the ILLEGAL rows. -/
theorem test_decode_illegal :
    decode 0x00000100 = .error .nonzeroField ∧ decode 0x00001010 = .error .nonzeroField ∧
      decode 0x00000410 = .error .nonzeroField ∧ decode 0x10000011 = .error .nonzeroField ∧
      decode 0x00000C11 = .error .nonzeroField ∧ decode 0x80000024 = .error .nonzeroField ∧
      decode 0x00000013 = .error .unlistedOp ∧ decode 0x00000048 = .error .unlistedOp ∧
      decode 0x000000FF = .error .unlistedOp := by decide

/-- The opcode table's first and last rows through the byte lanes. -/
theorem test_decodeTableWord :
    decodeTableWord 32 0x00 = some .nop ∧ decodeTableWord 32 0x50 = some .dcb ∧
      decodeTableWord 32 0x0FFFF311 = some (.tap .downX2 65535) ∧ decodeTableWord 32 0x13 = none := by decide

/-! ### One step of each command -/

/-- 95_test_vectors.md 2.7. -/
theorem test_nop_and_init_keep_the_state :
    ran 0x00 (testOn 1 2) = testOn 1 2 ∧ ran 0x02 (testOn 1 2) = testOn 1 2 := by decide +kernel

/-- 95_test_vectors.md 2.7: RST keeps A0 and clears the DC state and the heads. -/
theorem test_rst :
    let t := ran 0x01 (bufPush .upX4 7 (dcStep 5 (testOn 1 2)))
    t.upX4 = .empty ∧ t.xz1 = 0 ∧ t.yz1 = 0 ∧ t.a[0] = 1 := by decide +kernel

/-- 95_test_vectors.md 2.7. -/
theorem test_clrerr :
    let t := ran 0x03 { State.reset with status := 0x00000023, errcmd := 0x00003011 }
    t.status = 0 ∧ t.errcmd = 0 := by decide +kernel

/-- 95_test_vectors.md 2.4, step 1. -/
theorem test_push :
    let t := ran 0x10 (testOn 0x3F800000 0)
    t.upX2 = ⟨[(1, 0x3F800000)], 1⟩ ∧ readAt t 0x60 = some 0x00000001 := by decide +kernel

/-- 95_test_vectors.md 2.4, step 6: the head wraps from 2 to 0. -/
theorem test_push_wraps :
    (ran 0x10 { testOn 0x40000000 0 with upX2 := ⟨[(1, 0x3F800000), (2, 0x7FC00001)], 2⟩ }).upX2 =
      ⟨[(0, 0x40000000), (1, 0x3F800000), (2, 0x7FC00001)], 0⟩ := by decide +kernel

/-- 95_test_vectors.md P3: TAP 2, 4 after the pushes of 1.0 to 7.0. -/
theorem test_tap :
    (ran 0x00004211 { State.reset with downX4 :=
      ⟨[(0, 0x40A00000), (1, 0x40C00000), (2, 0x40E00000), (3, 0x40400000), (4, 0x40800000)], 2⟩ }).r[0] =
      0x40400000 := by decide +kernel

/-- 95_test_vectors.md 2.4, step 7, and 2.4 on TC1S: the first illegal delay under each backing. -/
theorem test_tap_out_of_range :
    let t := ran 0x00003011 State.reset
    let u := ran 0x000FF011 (State.resetOf Config.tc1s)
    t.status = 0x00000021 ∧ t.errcmd = 0x00003011 ∧ u.status = 0x00000021 ∧
      (ran 0x000FE011 (State.resetOf Config.tc1s)).status = 0 := by decide +kernel

/-- 95_test_vectors.md P3: BRST 2. -/
theorem test_brst : (ran 0x00000212 (bufPush .downX4 9 State.reset)).downX4 = .empty := by decide +kernel

/-- 95_test_vectors.md 2.5. -/
theorem test_up2x :
    let t := ran 0x20 (testOn 0x3F800000 0)
    t.r[0] = 0x3E800000 ∧ t.r[1] = 0x3F400000 := by decide +kernel

/-- 95_test_vectors.md 2.5: a NaN keeps its payload in the slot, and the outputs are canonical. -/
theorem test_up2x_of_nan :
    let t := ran 0x20 (testOn 0x7FC00001 0)
    t.r[0] = 0x7FC00000 ∧ t.r[1] = 0x7FC00000 ∧ t.upX2.slots = [(1, 0x7FC00001)] := by decide +kernel

/-- 95_test_vectors.md 2.5. -/
theorem test_up4x :
    let t := ran 0x21 (testOn 0x3F800000 0)
    t.r[0] = 0x3F000000 ∧ t.r[1] = 0x3F800000 := by decide +kernel

/-- 95_test_vectors.md 2.5: the earlier and the later sample. -/
theorem test_dn4x :
    (ran 0x22 (testOn 0x3F800000 0)).r[0] = 0x3F000000 ∧ (ran 0x22 (testOn 0 0x3F800000)).r[0] = 0x3E800000 := by
  decide +kernel

/-- 95_test_vectors.md 2.5. -/
theorem test_dn2x :
    (ran 0x23 (testOn 0x3F800000 0)).r[0] = 0x3EC00000 ∧ (ran 0x23 (testOn 0 0x3F800000)).r[0] = 0x3E000000 := by
  decide +kernel

/-- 95_test_vectors.md P1, first OS4. -/
theorem test_os4 : (ran 0x24 (testOn 0x3F800000 0)).r[0] = 0x3DE00000 := by decide +kernel

/-- 95_test_vectors.md P2, first OS4, with DCB_EN and INNER_SEL. -/
theorem test_os4_with_dc_and_clip :
    let t := ran 0x24 ((testOn 0x40000000 0).withControls 0x0000000C 0x3F000000)
    t.r[0] = 0x3E4365DA ∧ t.xz1 = 0x40000000 ∧ t.yz1 = 0x40000000 := by decide +kernel

/-- 95_test_vectors.md 2.2 and P4: tier exact, and tier fastest. -/
theorem test_clip :
    (ran 0x30 ((testOn 0x3F000000 0).withControls 0 0)).r[0] = 0x3EE4F92E ∧
      (ran 0x30 ((testOn 0x3F000000 0).withControls 3 0)).r[0] = 0x3EE7FC60 := by decide +kernel

/-- 95_test_vectors.md 2.2: h = 1.2 and a NaN hardness. -/
theorem test_clip_corners :
    (ran 0x30 ((testOn 0x3F800000 0).withControls 0 0x3F99999A)).r[0] = 0x3F88C5EA ∧
      (ran 0x30 ((testOn 0x3F000000 0).withControls 0 0x7FC00000)).r[0] = 0x7FC00000 := by decide +kernel

/-- 95_test_vectors.md 2.2. -/
theorem test_clip4 :
    (ran 0x31 (testState #v[0x3F000000, 0xBF800000, 0x41800000, 0] #v[0, 0, 0, 0])).r =
      #v[0x3EE4F92E, 0xBF3504F3, 0x3F7F8060, 0x00000000] := by decide +kernel

/-- 42_fastpow.md R189: (0.5, 2) in the four tiers. -/
theorem test_scalar_pow :
    (ran 0x40 (testOn 0x3F000000 0x40000000)).r[0] = 0x3E800000 ∧
      (ran 0x41 (testOn 0x41200000 0x3FC00000)).r[0] = 0x41FCFB71 ∧
      (ran 0x42 (testOn 0x3F000000 0x40000000)).r[0] = 0x3E800080 ∧
      (ran 0x43 (testOn 0x3F000000 0x40000000)).r[0] = 0x3E8755C0 := by decide +kernel

/-- 95_test_vectors.md 2.3: the corners of −0, a NaN base, and a word kept as built. -/
theorem test_scalar_pow_corners :
    (ran 0x40 (testOn 0x80000000 0xBF800000)).r[0] = 0x7F800000 ∧
      (ran 0x40 (testOn 0xFFC00000 0x00000000)).r[0] = 0x3F800000 ∧
      (ran 0x42 (testOn 0x40000000 0x43480000)).r[0] = 0xA37FEC00 ∧
      (ran 0x43 (testOn 0x40000000 0x7F800000)).r[0] = 0xFFFFFFFF := by decide +kernel

/-- 95_test_vectors.md 2.3: −1 and −∞ as bases. -/
theorem test_pow_domain :
    let t := ran 0x40 (testOn 0xBF800000 0x40000000)
    let u := ran 0x43 (testOn 0xFF800000 0x40000000)
    t.status = 0x00000031 ∧ t.errcmd = 0x00000040 ∧ u.status = 0x00000031 ∧ u.errcmd = 0x00000043 := by decide +kernel

/-- The operands of the POW4 vectors (95_test_vectors.md 2.3). -/
def powLanes : State :=
  testState #v[0x3F000000, 0x40000000, 0, 0x3F800000] #v[0x40000000, 0x3F000000, 0x40000000, 0x41F00000]

/-- 95_test_vectors.md 2.3. -/
theorem test_vector_pow :
    (ran 0x44 powLanes).r = #v[0x3E800000, 0x3FB504F3, 0x00000000, 0x3F800000] ∧
      (ran 0x45 powLanes).r = #v[0x3E800000, 0x3FB504F3, 0x00000000, 0x3F800000] ∧
      (ran 0x46 powLanes).r = #v[0x3E800080, 0x3FB50540, 0x008000A7, 0x3F7FFD80] ∧
      (ran 0x47 powLanes).r = #v[0x3E8755C0, 0x3FBC5500, 0x0078AA40, 0x4054B700] := by decide +kernel

/-- 95_test_vectors.md 2.3: A2 = −2 stops every lane. -/
theorem test_vector_pow_domain :
    let t := ran 0x45 { withA powLanes 2 0xC0000000 with r := #v[1, 2, 3, 4] }
    t.r = #v[1, 2, 3, 4] ∧ t.status = 0x00000031 ∧ t.errcmd = 0x00000045 := by decide +kernel

/-- 95_test_vectors.md 2.6: the second DCB of the six. -/
theorem test_dcb :
    let t := ran 0x50 { testOn 0x3F800000 0 with xz1 := 0x3F800000, yz1 := 0x3F800000 }
    t.r[0] = 0x3F7F5C29 ∧ t.xz1 = 0x3F800000 ∧ t.yz1 = 0x3F7F5C29 := by decide +kernel

/-- 95_test_vectors.md 2.6: −0 after reset, and a NaN with its payload kept in x_z1. -/
theorem test_dcb_corners :
    let t := ran 0x50 (testOn 0x80000000 0)
    let u := ran 0x50 (testOn 0x7FC00001 0)
    t.r[0] = 0 ∧ t.xz1 = 0x80000000 ∧ u.r[0] = 0x7FC00000 ∧ u.xz1 = 0x7FC00001 := by decide +kernel

/-! ### Errors and the bus -/

/-- 95_test_vectors.md 2.7: a first and a second error. -/
theorem test_illegal_word :
    let t := ran 0x00000013 State.reset
    let u := ran 0x000000FF { State.reset with status := 0x00000021, errcmd := 0x00003011 }
    t.status = 0x00000011 ∧ t.errcmd = 0x00000013 ∧ u.status = 0x00000023 ∧ u.errcmd = 0x00003011 := by decide +kernel

/-- 95_test_vectors.md 2.8. -/
theorem test_reads :
    readAt State.reset 0x00 = some 0x434C4950 ∧ readAt State.reset 0x04 = some 0x00040004 ∧
      readAt (State.resetOf Config.tc1s) 0x08 = some 0x00000001 ∧ readAt State.reset 0x1C = some 0 ∧
      readAt State.reset 0x80 = some 0 := by decide +kernel

/-- 95_test_vectors.md 2.8. -/
theorem test_writes :
    (wroteAt State.reset 0x0C 0xFFFFFFFF).ctrl = 0x0000000F ∧ (wroteAt State.reset 0x40 0x12345678).r[0] = 0 ∧
      (wroteAt State.reset 0x14 0x1).status = 0 ∧ (wroteAt State.reset 0x3C 7).a[7] = 7 := by decide +kernel

/-- 95_test_vectors.md 2.8: a byte read has no step. -/
theorem test_byte_read_is_refused :
    step { State.reset with inputs := [.read .byte 0] } = .refused .accessNotAdmitted := rfl

/-- 20_memory.md R82: the byte lanes are little-endian. -/
theorem test_byte_lanes : byteLane 0x12345678 0 = 0x78 ∧ wordOfLanes 0x78 0x56 0x34 0x12 = 0x12345678 := by decide

/-! ### Arithmetic -/

/-- 00_scope.md R21: the constants are the patterns nearest to their decimals. -/
theorem test_constants :
    f32OfDecimal false 935 1000 = maxHardness ∧ f32OfDecimal false 1 (10 ^ 30) = powEps ∧
      f32OfDecimal false 9975 10000 = dcCoef ∧ fsub fone maxHardness = oneMinusMax := by decide +kernel

/-- 00_scope.md R11: a tie to even, an overflow, a subnormal result, and division by zero. -/
theorem test_rounding :
    fadd 0x4B800000 0x3F800000 = 0x4B800000 ∧ fmul 0x7F7FFFFF 0x40000000 = 0x7F800000 ∧
      fmul 0x00800000 0x3F000000 = 0x00400000 ∧ fdiv 0xBF800000 0x00000000 = 0xFF800000 := by decide +kernel

/-- 42_fastpow.md R189: log2 of ε and 2^0.5. -/
theorem test_elementary : crLog2 powEps = 0xC2C750D1 ∧ crExp2 0x3F000000 = 0x3FB504F3 := by decide +kernel

/-- 00_scope.md R17, R11: the square of 4097 · 2^-12 ends halfway between two patterns, and the even one is its pow; the
search gives what the proposal gives. -/
theorem test_pow_tie :
    crPow 0x3F800800 0x40000000 = 0x3F801000 ∧ nearestMag (comparePow 0x3F800800 0x40000000) 0 = 0x3F801000 ∧
      nearestMag (compareLog2 0x40400000) 0 = 0x3FCAE00D := by decide +kernel

/-! ### Assembler lines -/

/-- 30_encoding.md R117: a plain line with a comment, and a register write. -/
theorem test_parse_lines :
    parseLine "TAP 2, 4 ; delay 4".toList = some [.cmd (.tap .downX4 4)] ∧
      parseLine "WR HARDNESS, 0x3F000000".toList = some [.wr .hardness 0x3F000000] := by decide +kernel

/-- 95_test_vectors.md P3: PUSHF 2, 7.0, and an unknown line. -/
theorem test_parse_pseudo :
    parseLine "PUSHF 2, 7.0".toList = some [.wr (.a 0) 0x40E00000, .cmd (.push .downX4)] ∧
      parseLine "JMP 2".toList = none := by decide +kernel

/-! ### Witnesses: a concrete state and operands that meet the hypotheses of each statement that has some -/

theorem witness_DecodeOfEncodeIsTheCommand : (Instr.tap .downX2 65535).wellFormed = true := by decide

theorem witness_EncodeOfDecodeIsTheWord : decode 0x0FFFF311 = .ok (.tap .downX2 65535) := by decide

/-- A word a row accepts, and one that no row accepts. -/
theorem witness_DecodeIsTheUniqueAcceptingRow :
    (∃ r ∈ opRows, (0x00000310 : Word) &&& r.cls.mask = r.matchWord) ∧
      ∀ r ∈ opRows, (0x00000013 : Word) &&& r.cls.mask ≠ r.matchWord := by decide

theorem witness_IllegalWordsLatchIllegalCmd : decode 0x00000013 = .error .unlistedOp := by decide

theorem witness_StepRunsTheDecodedCommand :
    let s := State.reset.withFetchWord 32 0x24
    s.cfg.admitted = true ∧ s.inputs = [.write .word (s.cfg.base + 0x1C) 0x24] ∧ decode 0x24 = .ok .os4 := by decide

theorem witness_StepLatchesAnIllegalCommand :
    let s := State.reset.withFetchWord 32 0x13
    s.cfg.admitted = true ∧ s.inputs = [.write .word (s.cfg.base + 0x1C) 0x13] ∧
      decode 0x13 = .error .unlistedOp := by decide

/-- The first and the last offset of the window, and of A0 to A7 and R0 to R3. -/
theorem witness_ReadAnswersTheRegister :
    ∀ off ∈ [0x00, 0x04, 0x08, 0x0C, 0x10, 0x14, 0x18, 0x1C, 0x20, 0x3C, 0x40, 0x4C, 0x50, 0x54, 0x58, 0x5C, 0x60, 0x64,
        0x68, 0x6C, 0x70, 0xFC],
      let s : State := { State.reset with inputs := [.read .word (Config.tc1.base + off)] }
      s.wf = true ∧ off % 4 = 0 ∧ off ≤ 0xFC ∧ s.inputs = [.read .word (s.cfg.base + off)] := by decide

theorem witness_WriteStoresByAccessKind :
    ∀ off ∈ [0x00, 0x0C, 0x10, 0x18, 0x20, 0x3C, 0x40, 0x70, 0xFC],
      let s : State := { State.reset with inputs := [.write .word (Config.tc1.base + off) 0xFFFFFFFF] }
      s.cfg.admitted = true ∧ off % 4 = 0 ∧ off ≤ 0xFC ∧ off ≠ 0x1C ∧
        s.inputs = [.write .word (s.cfg.base + off) 0xFFFFFFFF] := by decide

/-- An instance at BASE = 256. -/
def basedConfig : Config := { Config.tc1 with base := 256 }

/-- The first and the last byte of the window, and accesses that reach in from outside it. -/
theorem witness_UnadmittedAccessIsRefused :
    ∀ p ∈ [(Size.byte, 256), (.byte, 511), (.double, 249), (.half, 255), (.word, 253), (.word, 509), (.double, 504)],
      basedConfig.admitted = true ∧ basedConfig.base < p.2 + p.1.bytes ∧ p.2 < basedConfig.base + 256 ∧
        (p.1 ≠ .word ∨ p.2 % 4 ≠ 0) := by decide

/-- The last address below the window for each size, and the first above it. -/
theorem witness_OutsideAccessChangesNothing :
    ∀ p ∈ [(Size.byte, 255), (.half, 254), (.word, 252), (.double, 248), (.byte, 512)],
      basedConfig.admitted = true ∧ (p.2 + p.1.bytes ≤ basedConfig.base ∨ basedConfig.base + 256 ≤ p.2) := by decide

theorem witness_HardwareResetClearsTheState :
    let s : State := { State.reset with inputs := [.reset, .read .word 0] }
    s.cfg.admitted = true ∧ s.inputs = .reset :: [.read .word 0] := by decide

/-- An odd length, an empty table, a long one, one too long for SMALL, an infinite coefficient, an unaligned BASE. -/
theorem witness_UnadmittedConfigurationHasNoStep :
    [(0 : Word), 0, 0].length % 2 = 1 ∧ ([] : List Word).length < 2 ∧ 65534 < (List.replicate 65535 (0 : Word)).length ∧
      (Config.tc1s.backing = .small ∧ 254 < (List.replicate 255 (0 : Word)).length) ∧ isFinite 0x7F800000 = false ∧
      isFinite 0xFFC00000 = false ∧ 128 % 256 ≠ 0 := by
  simp only [List.length_replicate]; decide

theorem witness_ResetStateIsLegal : Config.tc1.admitted = true := by decide

theorem witness_PushWritesOneSlot : (State.reset.buf .downX2).slots.wf = true := by decide

/-- The last legal delay under each backing. -/
theorem witness_TapReadsTheDelayedSlot :
    (State.reset.cfg.backing = .fixed ∧ 2 < capacity State.reset.cfg .upX2) ∧
      (State.resetOf Config.tc1s).cfg.backing = .small ∧ 254 < 255 := by decide

/-- The first illegal delay under each backing, and the last DELAY. -/
theorem witness_TapOutOfRangeLatchesTapRange :
    (State.reset.cfg.backing = .fixed ∧ capacity State.reset.cfg .upX2 ≤ 3 ∧ capacity State.reset.cfg .upX2 ≤ 65535) ∧
      (State.resetOf Config.tc1s).cfg.backing = .small ∧ 255 ≤ 255 ∧ 65535 < 65536 := by decide

theorem witness_DelayLineReturnsThePushedWord :
    State.reset.buf .downX4 = Buffer.empty ∧ 4 < capacity State.reset.cfg .downX4 := by decide

/-- The last delay each stage taps, under both backings. -/
theorem witness_CapacitiesCoverTheFirTaps :
    (Config.tc1.admitted = true ∧ Config.tc1.backing = .fixed ∧ 1 < Config.tc1.h2.length / 2 ∧ 3 < Config.tc1.h4.length) ∧
      Config.tc1s.admitted = true ∧ Config.tc1s.backing = .small := by decide

theorem witness_UpStagesGiveThePolyphaseSums :
    State.reset.cfg.admitted = true ∧ ∀ b ∈ [BufId.upX2, .upX4, .downX4, .downX2], (State.reset.buf b).slots.wf = true := by
  decide

theorem witness_DownStagesGiveTheFirSum :
    State.reset.cfg.admitted = true ∧ ∀ b ∈ [BufId.upX2, .upX4, .downX4, .downX2], (State.reset.buf b).slots.wf = true := by
  decide

/-- Both values of DCB_EN. -/
theorem witness_Os4TouchesDcStateOnlyWhenEnabled :
    State.reset.ctrl.getLsbD 2 = false ∧ (State.reset.withControls 4 0).ctrl.getLsbD 2 = true := by decide

theorem witness_Os4StoresOnlyWhereTheHeadsPass :
    ∀ b ∈ [BufId.upX2, .upX4, .downX4, .downX2], (State.reset.buf b).slots.wf = true := by decide

theorem witness_HeadsStayInLockStep :
    ∀ b ∈ [BufId.upX2, .upX4, .downX4, .downX2], (State.reset.buf b).head = 0 := by decide

/-- A NaN and a +∞ as the newest sample; a +∞ after a −∞ under coefficients of one sign, and two +∞ under coefficients
of both. -/
theorem witness_NanSampleMakesTheFirSumNan :
    (bufTap (bufPush .downX2 0x7FC00001 State.reset) .downX2 0 = some 0x7FC00001 ∧ isNaN 0x7FC00001 = true ∧ 0 < 4) ∧
      (bufTap (bufPush .downX4 0x7F800000 State.reset) .downX4 0 = some 0x7F800000 ∧ isInf 0x7F800000 = true ∧
        isZero 0x80000000 = true) ∧
      (let s := pushAll .downX2 State.reset [0xFF800000, 0x7F800000];
        bufTap s .downX2 0 = some 0x7F800000 ∧ bufTap s .downX2 1 = some 0xFF800000 ∧ isInf 0xFF800000 = true ∧
          isZero 1 = false ∧ (signOf 1 != signOf 0x7F800000) ≠ (signOf 1 != signOf 0xFF800000) ∧
          (signOf 1 != signOf 0x7F800000) ≠ (signOf 0x80000001 != signOf 0x7F800000)) := by
  decide +kernel

/-- 16 and +∞; −16 and −∞. -/
theorem witness_ShaperIsFlatBeyondSixteen :
    ([0x41800000, 0x7F800000].all fun x => !flt x 0x41800000 && !isNaN x) = true ∧
      ([0xC1800000, 0xFF800000].all fun x => !fgt x 0xC1800000 && !isNaN x) = true := by decide

/-- NaNs; and, for a hardness of +∞, samples of both signs in the tiers whose words are as built. -/
theorem witness_ShaperNanRules :
    isNaN 0x7F800001 = true ∧ isNaN 0xFFFFFFFF = true ∧
      ([(0x3F000000, Tier.faster), (0xC1800000, Tier.fastest)].all fun p =>
        signOf (shaperAnalog Config.tc1 (shaperInput p.1) (shaperSoftness 0x7F800000) p.2) ==
          signOf (shaperInput p.1)) = true := by decide +kernel

/-- 0.3 at h = 1, and the default bodies of TC1 for ±0. -/
theorem witness_ShaperIsAHardClipAtOne :
    Config.tc1.faster = .default ∧ Config.tc1.fastest = .default ∧
    isNaN 0x3E99999A = false ∧ isZero 0x3E99999A = false ∧
      isFinite (shaperAnalog Config.tc1 (shaperInput 0x3E99999A) (shaperSoftness 0x3F800000) .exact) = true := by
  decide +kernel

/-- The bases −0, +0, +∞ and a NaN with its sign set; the default bodies, and replaced ones. -/
theorem witness_ScalarPowWritesOnlyItsResult :
    ([0x80000000, 0, 0x7F800000, 0xFFC00000].all fun x => !flt (testOn x 0).a[0] 0) = true ∧
      (Config.tc1.faster = .default ∧ Config.tc1.fastest = .default) ∧
      (({ Config.tc1 with faster := .replaced } : Config).faster = .replaced ∧
        ({ Config.tc1 with fastest := .replaced } : Config).fastest = .replaced) := by decide

theorem witness_Pow4LanesAreScalarPows : ∀ i : Fin 4, flt (laneX powLanes i) 0 = false := by decide

/-- The least and the greatest pattern below 0, in A0 and in the last lane. -/
theorem witness_NegativeBaseLatchesPowDomain :
    ([0x80000001, 0xFF800000].all fun x => 0x80000000 < (testOn x 0).a[0].toNat ∧ (testOn x 0).a[0].toNat ≤ 0xFF800000) =
        true ∧
      ([0x80000001, 0xFF800000].all fun x => 0x80000000 < (laneX (withA State.reset 3 x) 3).toNat ∧
        (laneX (withA State.reset 3 x) 3).toNat ≤ 0xFF800000) = true := by decide +kernel

/-- One pair of operands for each case. -/
theorem witness_CrPowSpecialCases :
    isZero 0x80000000 = true ∧ (isZero 1 = false ∧ (0x7FC00000 : Word) ≠ 0x3F800000 ∧ isNaN 0x7FC00000 = true) ∧
      (isNaN 1 = false ∧ fgt 1 0 = true) ∧ (isNaN 0x80000001 = false ∧ flt 0x80000001 0 = true) ∧
      (isFinite 1 = true ∧ fgt 1 0 = true ∧ flt 1 0x3F800000 = true) ∧
      (isFinite 0x7F7FFFFF = true ∧ fgt 0x7F7FFFFF 0x3F800000 = true) ∧ isNaN 0xFFFFFFFF = true := by decide

/-- The least subnormal and −2.0; the word above 1.0 and the greatest finite value; arguments of cr_exp2, −0 among
them. -/
theorem witness_CrPowIsCorrectlyRounded :
    ([(0x00000001, 0xC0000000), (0x3F800001, 0x7F7FFFFF)].all fun p : Word × Word =>
      isFinite p.1 && isFinite p.2 && !signOf p.1 && !isZero p.1 && !isZero p.2 && p.1 != 0x3F800000) = true ∧
      ([0x80000000, 0x00000001, 0xFF7FFFFF].all isFinite) = true := by decide

theorem witness_CrLog2IsCorrectlyRounded :
    ([0x00000001, 0x3F7FFFFF, 0x7F7FFFFF].all fun v =>
      isFinite v && !signOf v && !isZero v && v != 0x3F800000) = true ∧ isNaN 0x7F800001 = true ∧
      isZero 0x80000000 = true := by decide

theorem witness_RoundingIsToNearestEven : 0 < 3 := by decide

theorem witness_ArithmeticIsCorrectlyRounded :
    isFinite 0x7F7FFFFF = true ∧ isFinite 0x80000001 = true ∧ isZero 0x80000001 = false := by decide

theorem witness_InvalidOperationsGiveTheCanonicalNan :
    isNaN 0x7F800001 = true ∧ isInf 0x7F800000 = true ∧ isInf 0xFF800000 = true ∧
      signOf 0x7F800000 ≠ signOf 0xFF800000 ∧ isZero 0x80000000 = true ∧ isFinite 1 = true ∧ isZero 1 = false := by decide

theorem witness_ProducedNansAreCanonical :
    isNaN (fadd 0x7F800000 0xFF800000) = true ∧ isNaN (fsub 0x7F800000 0x7F800000) = true ∧
      isNaN (fmul 0 0x7F800000) = true ∧ isNaN (fdiv 0 0) = true ∧ isNaN (fclamp 0x7F800001 0 1) = true ∧
      isNaN (fminc 0x7F800001 0) = true ∧ isNaN (dcOutput 0x7F800000 0x7F800000 0) = true := by decide +kernel

theorem witness_ComparisonsOrderTheValues : isFinite 0x80000000 = true ∧ isFinite 0 = true ∧ isNaN 0xFFFFFFFF = true := by
  decide

theorem witness_ConversionsFollowTheirRules :
    4294967295 < 2 ^ 32 ∧ (-2 ^ 31 : Int) ≤ -2147483648 ∧ isNaN 0x7FC00000 = true ∧ isFinite 0xFF7FFFFF = true := by decide

theorem witness_DcNanIsSticky : isNaN ({ State.reset with yz1 := 0xFFC00001 } : State).yz1 = true := by decide

theorem witness_CommandsRaiseOnlyTheirOwnError : exec .nop State.reset = .next State.reset := rfl

theorem witness_CommandsKeepTheHostSide : exec .init State.reset = .next State.reset := rfl

theorem witness_OnlyListedCommandsChangeBuffers :
    exec (.push .upX2) State.reset = .next (bufPush .upX2 0 State.reset) ∧
      (bufPush .upX2 0 State.reset).buf .upX2 ≠ State.reset.buf .upX2 := ⟨rfl, by decide⟩

theorem witness_OnlyListedCommandsChangeDcState :
    exec .dcb (testOn 0x3F800000 0) = .next (ran 0x50 (testOn 0x3F800000 0)) ∧
      (ran 0x50 (testOn 0x3F800000 0)).xz1 ≠ (testOn 0x3F800000 0).xz1 := ⟨rfl, by decide +kernel⟩

theorem witness_ConfigurationIsConstant : step State.reset = .next State.reset := rfl

theorem witness_StepKeepsLegalStates : State.reset.wf = true ∧ step State.reset = .next State.reset := ⟨by decide, rfl⟩

theorem witness_AdmittedHostIsNeverStopped :
    Config.tc1.admitted = true ∧
      ∀ inp ∈ [Input.reset, .read .word 0xFC, .write .word 0x1C 0x13, .read .byte 0x100],
        inputAdmitted Config.tc1 inp = true := by decide

end Sys2Proof.Machine
end

section
/-! SUPPORT. The kinds of a pattern exclude each other, and a signed pattern orders as its value does. -/

namespace Sys2Proof.Machine

/-! ### The kinds of a pattern -/

theorem not_nan_inf_of_isFinite {w : Word} (h : isFinite w = true) : isNaN w = false ∧ isInf w = false := by
  simp only [isFinite, isNaN, isInf, decide_eq_true_eq, decide_eq_false_iff_not] at *
  omega

theorem not_nan_zero_of_isInf {w : Word} (h : isInf w = true) : isNaN w = false ∧ isZero w = false := by
  have hw : magOf w = 0x7F800000 := of_decide_eq_true h
  simp [isNaN, isZero, infMag, hw]

theorem isFinite_of_isZero {w : Word} (h : isZero w = true) : isFinite w = true := by
  have hw : magOf w = 0 := of_decide_eq_true h
  simp [isFinite, infMag, hw]

theorem unitsOf_eq_zero_iff {w : Word} : unitsOf w = 0 ↔ isZero w = true := by
  rw [unitsOf, isZero, decide_eq_true_eq, ← unitsOfMag_strictMono.injective.eq_iff (a := magOf w),
    show unitsOfMag 0 = 0 from rfl]

theorem unitsOf_pos {w : Word} (h : isZero w = false) : 0 < unitsOf w :=
  Nat.pos_of_ne_zero fun hc => by simp [unitsOf_eq_zero_iff.1 hc] at h

/-! ### The order of the values -/

/-- Patterns with their signs order as the values do. -/
theorem signedUnits_lt_iff (a b : Word) : signedUnits a < signedUnits b ↔ orderKey a < orderKey b := by
  have mono : ∀ {m n : Nat}, unitsOfMag m < unitsOfMag n ↔ m < n := unitsOfMag_strictMono.lt_iff_lt
  have hab := mono (m := magOf a) (n := magOf b)
  have hba := mono (m := magOf b) (n := magOf a)
  have ha := mono (m := 0) (n := magOf a)
  have hb := mono (m := 0) (n := magOf b)
  rw [show unitsOfMag 0 = 0 from rfl] at ha hb
  simp only [signedUnits, orderKey, unitsOf]
  cases signOf a <;> cases signOf b <;> simp only [Bool.false_eq_true, if_false, if_true] <;> omega

theorem signedUnits_eq_iff (a b : Word) : signedUnits a = signedUnits b ↔ orderKey a = orderKey b := by
  have hab := signedUnits_lt_iff a b
  have hba := signedUnits_lt_iff b a
  omega

/-! ### Signs against zero -/

theorem orderKey_neg_iff {w : Word} : orderKey w < 0 ↔ isZero w = false ∧ signOf w = true := by
  simp only [orderKey, isZero, decide_eq_false_iff_not]
  cases signOf w <;> simp [Nat.pos_iff_ne_zero]

theorem orderKey_pos_iff {w : Word} : 0 < orderKey w ↔ isZero w = false ∧ signOf w = false := by
  simp only [orderKey, isZero, decide_eq_false_iff_not]
  cases signOf w <;> simp [Nat.pos_iff_ne_zero]

theorem flt_zero_iff {w : Word} : flt w 0 = true ↔ isNaN w = false ∧ isZero w = false ∧ signOf w = true := by
  rw [flt, show isNaN 0 = false by decide, show orderKey 0 = 0 by decide]
  simp [orderKey_neg_iff]

theorem fgt_zero_iff {w : Word} : fgt w 0 = true ↔ isNaN w = false ∧ isZero w = false ∧ signOf w = false := by
  rw [fgt, flt, show isNaN 0 = false by decide, show orderKey 0 = 0 by decide]
  simp [orderKey_pos_iff]

theorem flt_irrefl (w : Word) : flt w w = false := by simp [flt]

theorem flt_asymm {a b : Word} (h : flt a b = true) : flt b a = false := by
  simp only [flt, Bool.and_eq_true, decide_eq_true_eq] at h
  simp [flt, h.2.le]

end Sys2Proof.Machine
end

section
/-! PROOFS. A configuration outside 00_scope.md R20, R22 and R24 has no step. -/

namespace Sys2Proof.Machine

/-- Settles O13: an admitted configuration has none of the defects (`admitted_iff`). -/
theorem unadmittedConfigurationHasNoStep : Obligations.UnadmittedConfigurationHasNoStep := by
  intro s hdefect
  refine if_neg fun hadmitted => ?_
  obtain ⟨⟨h2even, h2min, h2max, h2small⟩, ⟨h4even, h4min, h4max, h4small⟩, h2finite, h4finite, hbase⟩ :=
    admitted_iff.1 hadmitted
  rcases hdefect with h | h | h | h | h | h | ⟨hsmall, h⟩ | ⟨w, hw, hinfinite⟩ | h
  · omega
  · omega
  · omega
  · omega
  · omega
  · omega
  · have := h2small hsmall
    have := h4small hsmall
    omega
  · have : isFinite w = true := (List.mem_append.1 hw).elim (h2finite w) (h4finite w)
    simp [this] at hinfinite
  · exact h hbase

end Sys2Proof.Machine
end

section
/-! PROOFS. The rounding of a rational is to nearest, ties to even (00_scope.md R11). -/

namespace Sys2Proof.Machine

/-! ### The rounding of a rational -/

/-- Among the patterns spaced by `2^s` units, number `q` holds `q * 2^s`: also where the next spacing begins. -/
theorem unitsOfMag_spaced {s q : Nat} (hq : q ≤ 0x1000000) (hs : s = 0 ∨ 0x800000 ≤ q) :
    unitsOfMag (s * 0x800000 + q) = q * 2 ^ s := by
  unfold unitsOfMag
  by_cases hlow : s * 0x800000 + q < 0x800000
  · obtain rfl : s = 0 := by omega
    simp [show q < 0x800000 by omega]
  · rw [if_neg hlow]
    rcases hq.lt_or_eq with hlt | rfl
    · rw [show 0x800000 + (s * 0x800000 + q) % 0x800000 = q by omega,
        show (s * 0x800000 + q) / 0x800000 - 1 = s by omega]
    · rw [show (s * 0x800000 + 0x1000000) % 0x800000 = 0 by omega,
        show (s * 0x800000 + 0x1000000) / 0x800000 - 1 = s + 1 by omega, pow_succ]
      omega

/-- Below the next spacing, the upper midpoint of such a pattern is half a spacing away. -/
theorem midpointAbove_spaced {s q : Nat} (hq : q < 0x1000000) (hs : s = 0 ∨ 0x800000 ≤ q) :
    midpointAbove (s * 0x800000 + q) = (2 * q + 1) * 2 ^ s := by
  have hnext := unitsOfMag_spaced (s := s) (q := q + 1) (by omega) (by omega)
  rw [midpointAbove, unitsOfMag_spaced hq.le hs, Nat.add_assoc, hnext]
  ring

/-- A midpoint lies strictly between its two patterns. -/
theorem midpointAbove_between (g : Nat) :
    2 * unitsOfMag g < midpointAbove g ∧ midpointAbove g < 2 * unitsOfMag (g + 1) := by
  have := unitsOfMag_lt_succ g
  unfold midpointAbove
  omega

theorem midpointAbove_strictMono : StrictMono midpointAbove := fun _ _ h =>
  Nat.add_lt_add (unitsOfMag_strictMono h) (unitsOfMag_strictMono (Nat.succ_lt_succ h))

/-- In spacings, `n / d` is below 2^24, and from 2^23 on unless the spacing is the least one. -/
theorem spacing_spec (n : Nat) {d : Nat} (hd : 0 < d) :
    n * 2 ^ 149 < 0x1000000 * (d * 2 ^ spacing n d) ∧
      (spacing n d = 0 ∨ 0x800000 * (d * 2 ^ spacing n d) ≤ n * 2 ^ 149) := by
  unfold spacing
  generalize n * 2 ^ 149 = N
  have hfloor : N / d * d ≤ N := Nat.div_mul_le_self N d
  have hceil : N < (N / d + 1) * d := Nat.lt_mul_of_div_lt (Nat.lt_succ_self _) hd
  generalize N / d = t at *
  dsimp only
  split
  · next h =>
    have := Nat.mul_le_mul_right d (show t + 1 ≤ 0x1000000 by omega)
    simp only [pow_zero, mul_one, true_or, and_true]
    omega
  · next h =>
    have hlog : 24 ≤ t.log2 := (Nat.le_log2 (by omega)).2 (by omega)
    obtain ⟨s, hs⟩ : ∃ s, t.log2 = s + 23 := ⟨t.log2 - 23, by omega⟩
    have hlo : 0x800000 * 2 ^ s ≤ t := by
      have := Nat.log2_self_le (n := t) (by omega)
      rwa [hs, Nat.pow_add, Nat.mul_comm] at this
    have hhi : t + 1 ≤ 0x1000000 * 2 ^ s := by
      have := Nat.lt_log2_self (n := t)
      rwa [hs, Nat.add_assoc, Nat.pow_add, Nat.mul_comm] at this
    rw [hs, Nat.add_sub_cancel]
    refine ⟨hceil.trans_le ?_, .inr (le_trans ?_ hfloor)⟩
    · calc (t + 1) * d ≤ 0x1000000 * 2 ^ s * d := Nat.mul_le_mul_right d hhi
        _ = 0x1000000 * (d * 2 ^ s) := by ring
    · calc 0x800000 * (d * 2 ^ s) = 0x800000 * 2 ^ s * d := by ring
        _ ≤ t * d := Nat.mul_le_mul_right d hlo

/-- A quotient below a whole number does not round above it. -/
theorem divNearestEven_le {a b c : Nat} (hb : 0 < b) (h : a ≤ c * b) : divNearestEven a b ≤ c := by
  obtain ⟨-, hlow, -, -⟩ := divNearestEven_spec a hb
  by_contra hc
  have : (2 * (c + 1)) * b ≤ 2 * divNearestEven a b * b := Nat.mul_le_mul_right b (by omega)
  have e : (2 * (c + 1)) * b = 2 * (c * b) + 2 * b := by ring
  omega

/-- A quotient above a whole number does not round below it. -/
theorem le_divNearestEven {a b c : Nat} (hb : 0 < b) (h : c * b ≤ a) : c ≤ divNearestEven a b := by
  obtain ⟨hhigh, -, -, -⟩ := divNearestEven_spec a hb
  by_contra hc
  have : (2 * divNearestEven a b + 1) * b + b ≤ 2 * c * b := by
    rw [← Nat.succ_mul]; exact Nat.mul_le_mul_right b (by omega)
  have e : 2 * c * b = 2 * (c * b) := by ring
  omega

/-- A midpoint against a rational, on natural numbers. -/
theorem midpoint_lt_div_iff {n d : Nat} (hd : 0 < d) (m : Nat) :
    (m : ℝ) / 2 ^ 150 < (n : ℝ) / d ↔ m * d < 2 * (n * 2 ^ 149) := by
  rw [div_lt_div_iff₀ (by positivity) (by exact_mod_cast hd), show 2 * (n * 2 ^ 149) = n * 2 ^ 150 by ring]
  exact_mod_cast Iff.rfl

theorem div_lt_midpoint_iff {n d : Nat} (hd : 0 < d) (m : Nat) :
    (n : ℝ) / d < (m : ℝ) / 2 ^ 150 ↔ 2 * (n * 2 ^ 149) < m * d := by
  rw [div_lt_div_iff₀ (by exact_mod_cast hd) (by positivity), show 2 * (n * 2 ^ 149) = n * 2 ^ 150 by ring]
  exact_mod_cast Iff.rfl

theorem midpoint_eq_div_iff {n d : Nat} (hd : 0 < d) (m : Nat) :
    (m : ℝ) / 2 ^ 150 = (n : ℝ) / d ↔ m * d = 2 * (n * 2 ^ 149) := by
  rw [div_eq_div_iff (by positivity) (by positivity), show 2 * (n * 2 ^ 149) = n * 2 ^ 150 by ring]
  exact_mod_cast Iff.rfl

/-- `g` is nearest to `N / d` units, ties to even, among magnitude patterns that go on beyond that of +∞; stated on
natural numbers. `nearestEven_min_infMag` ties it to `NearestEven`. -/
def NearestUnbounded (N d g : Nat) : Prop :=
  (∀ h, g = h + 1 → midpointAbove h * d < 2 * N ∨ (midpointAbove h * d = 2 * N ∧ g % 2 = 0)) ∧
    (2 * N < midpointAbove g * d ∨ (2 * N = midpointAbove g * d ∧ g % 2 = 0))

/-- The nearest pattern, cut off at that of +∞, which is even. -/
theorem nearestEven_min_infMag {n d g : Nat} (hd : 0 < d) (hg : NearestUnbounded (n * 2 ^ 149) d g) :
    NearestEven ((n : ℝ) / d) (min g infMag) := by
  obtain ⟨hlow, hhigh⟩ := hg
  refine ⟨Nat.min_le_right _ _, fun h hh => ?_, fun hlt => ?_⟩
  · rw [midpoint_lt_div_iff hd, midpoint_eq_div_iff hd]
    rcases le_or_gt g infMag with hle | hgt
    · rw [min_eq_left hle] at hh ⊢
      exact hlow h hh
    · obtain ⟨k, rfl⟩ : ∃ k, g = k + 1 := ⟨g - 1, by omega⟩
      have hmid : midpointAbove h * d < midpointAbove k * d :=
        Nat.mul_lt_mul_of_pos_right (midpointAbove_strictMono (by omega)) hd
      have hk := hlow k rfl
      exact .inl (by omega)
  · rw [min_eq_left (by omega), div_lt_midpoint_iff hd, eq_comm, midpoint_eq_div_iff hd, eq_comm]
    exact hhigh

/-- The pattern that `roundMag` cuts off at +∞ is the nearest. Only at the ends of a spacing is a midpoint not half a
spacing away, and there the rational is on the near side of `q` spacings. -/
theorem nearestUnbounded_of_spacing {N d s : Nat} (hd : 0 < d) (hN : N < 0x1000000 * (d * 2 ^ s))
    (hs : s = 0 ∨ 0x800000 * (d * 2 ^ s) ≤ N) :
    NearestUnbounded N d (s * 0x800000 + divNearestEven N (d * 2 ^ s)) := by
  have hD : 0 < d * 2 ^ s := by positivity
  obtain ⟨htop, hbot, htopEven, hbotEven⟩ := divNearestEven_spec N hD
  have hq := divNearestEven_le hD hN.le
  have hqs := hs.imp_right (le_divNearestEven hD)
  generalize divNearestEven N (d * 2 ^ s) = q at *
  have scaled : ∀ k, k * 2 ^ s * d = k * (d * 2 ^ s) := fun k => by ring
  constructor
  · intro h hh
    by_cases hstart : s = 0 ∨ 0x800000 < q
    · obtain ⟨p, rfl⟩ : ∃ p, q = p + 1 := ⟨q - 1, by omega⟩
      obtain rfl : h = s * 0x800000 + p := by omega
      rw [midpointAbove_spaced (by omega) (by omega), scaled]
      have e : 2 * (p + 1) * (d * 2 ^ s) = (2 * p + 1) * (d * 2 ^ s) + d * 2 ^ s := by ring
      omega
    · obtain rfl : q = 0x800000 := by omega
      have hmid := (midpointAbove_between h).2
      rw [← hh, unitsOfMag_spaced hq hqs, ← Nat.mul_assoc] at hmid
      have := Nat.mul_lt_mul_of_pos_right hmid hd
      rw [scaled] at this
      omega
  · rcases hq.lt_or_eq with hlt | rfl
    · rw [midpointAbove_spaced hlt hqs, scaled]
      omega
    · have hmid := (midpointAbove_between (s * 0x800000 + 0x1000000)).1
      rw [unitsOfMag_spaced hq hqs, ← Nat.mul_assoc] at hmid
      have := Nat.mul_lt_mul_of_pos_right hmid hd
      rw [scaled] at this
      omega

/-- Settles O44: the spacing puts the quotient in the range where half a spacing reaches the midpoints. -/
theorem roundingIsToNearestEven : Obligations.RoundingIsToNearestEven := by
  intro n d hd
  obtain ⟨hN, hs⟩ := spacing_spec n hd
  exact nearestEven_min_infMag hd (nearestUnbounded_of_spacing hd hN hs)

end Sys2Proof.Machine
end

section
/-! PROOFS. Arithmetic, comparisons and conversions (00_scope.md R11, R12, R16, R18): each operation on finite values is
an exact result handed to `roundMag`. -/

namespace Sys2Proof.Machine

/-! ### Operations on finite values -/

/-- The value of a finite pattern (00_scope.md R11). -/
noncomputable def realOf (w : Word) : ℝ := (signedUnits w : ℝ) / 2 ^ 149

theorem natAbs_signedUnits (w : Word) : (signedUnits w).natAbs = unitsOf w := by
  unfold signedUnits
  split <;> simp

theorem abs_realOf (w : Word) : |realOf w| = (unitsOf w : ℝ) / 2 ^ 149 := by
  rw [realOf, abs_div, abs_of_pos (by positivity : (0 : ℝ) < 2 ^ 149), ← Int.cast_abs, Int.abs_eq_natAbs,
    natAbs_signedUnits, Int.cast_natCast]

theorem realOf_fneg (w : Word) : realOf (fneg w) = -realOf w := by
  rw [realOf, signedUnits_fneg, Int.cast_neg, neg_div, realOf]

@[simp] theorem roundMag_zero (d : Nat) : roundMag 0 d = 0 := by simp [roundMag, spacing, divNearestEven]

/-- The sum of two finite values is a whole number of units, and a zero sum is the pattern of a zero. -/
theorem fadd_of_isFinite {a b : Word} (ha : isFinite a = true) (hb : isFinite b = true) :
    ∃ neg, fadd a b = withSign neg (roundMag (signedUnits a + signedUnits b).natAbs (2 ^ 149)) ∧
      (signedUnits a + signedUnits b ≠ 0 → neg = decide (signedUnits a + signedUnits b < 0)) := by
  obtain ⟨hna, hia⟩ := not_nan_inf_of_isFinite ha
  obtain ⟨hnb, hib⟩ := not_nan_inf_of_isFinite hb
  by_cases hz : signedUnits a + signedUnits b = 0
  · exact ⟨signOf a && signOf b, by simp [fadd, hna, hnb, hia, hib, hz], absurd hz⟩
  · exact ⟨decide (signedUnits a + signedUnits b < 0), by simp [fadd, hna, hnb, hia, hib, hz, roundSigned],
      fun _ => rfl⟩

/-- A sum of two finite values is their exact sum rounded once. -/
theorem fadd_rounds {a b : Word} (ha : isFinite a = true) (hb : isFinite b = true) :
    ∃ neg g, fadd a b = withSign neg g ∧ NearestEven |realOf a + realOf b| g ∧
      (realOf a + realOf b < 0 → neg = true) ∧ (0 < realOf a + realOf b → neg = false) := by
  obtain ⟨neg, heq, hneg⟩ := fadd_of_isFinite ha hb
  have hsum : realOf a + realOf b = ((signedUnits a + signedUnits b : ℤ) : ℝ) / 2 ^ 149 := by
    rw [realOf, realOf, ← add_div, Int.cast_add]
  have hunit : (0 : ℝ) < 2 ^ 149 := by positivity
  rw [hsum, div_lt_iff₀ hunit, zero_mul, div_pos_iff_of_pos_right hunit, Int.cast_lt_zero, Int.cast_pos]
  generalize signedUnits a + signedUnits b = z at *
  refine ⟨neg, _, heq, ?_, fun h => ?_, fun h => ?_⟩
  · have := roundingIsToNearestEven z.natAbs (2 ^ 149) (by positivity)
    rwa [abs_div, abs_of_pos hunit, ← Int.cast_abs, Int.abs_eq_natAbs, Int.cast_natCast, ← Nat.cast_two,
      ← Nat.cast_pow]
  · rw [hneg h.ne]; exact decide_eq_true h
  · rw [hneg h.ne']; exact decide_eq_false h.not_gt

theorem fmul_of_isFinite {a b : Word} (ha : isFinite a = true) (hb : isFinite b = true) :
    fmul a b = withSign (signOf a != signOf b) (roundMag (unitsOf a * unitsOf b) (2 ^ 298)) := by
  obtain ⟨hna, hia⟩ := not_nan_inf_of_isFinite ha
  obtain ⟨hnb, hib⟩ := not_nan_inf_of_isFinite hb
  simp only [fmul, hna, hnb, hia, hib, Bool.or_self, Bool.false_and, Bool.and_false, Bool.false_eq_true,
    if_false]

theorem fdiv_of_isFinite {a b : Word} (ha : isFinite a = true) (hb : isFinite b = true) (hb0 : isZero b = false) :
    fdiv a b = withSign (signOf a != signOf b) (roundMag (unitsOf a) (unitsOf b)) := by
  obtain ⟨hna, hia⟩ := not_nan_inf_of_isFinite ha
  obtain ⟨hnb, hib⟩ := not_nan_inf_of_isFinite hb
  simp [fdiv, hna, hnb, hia, hib, hb0]

/-- A product of two finite values is their exact product rounded once. -/
theorem fmul_rounds {a b : Word} (ha : isFinite a = true) (hb : isFinite b = true) :
    ∃ g, fmul a b = withSign (signOf a != signOf b) g ∧ NearestEven |realOf a * realOf b| g := by
  refine ⟨_, fmul_of_isFinite ha hb, ?_⟩
  have h := roundingIsToNearestEven (unitsOf a * unitsOf b) (2 ^ 298) (by positivity)
  rw [Nat.cast_mul, Nat.cast_pow, Nat.cast_two] at h
  rwa [abs_mul, abs_realOf, abs_realOf, div_mul_div_comm, ← pow_add]

/-- A quotient of two finite values, the divisor nonzero, is their exact quotient rounded once. -/
theorem fdiv_rounds {a b : Word} (ha : isFinite a = true) (hb : isFinite b = true) (hb0 : isZero b = false) :
    ∃ g, fdiv a b = withSign (signOf a != signOf b) g ∧ NearestEven |realOf a / realOf b| g := by
  refine ⟨_, fdiv_of_isFinite ha hb hb0, ?_⟩
  have h := roundingIsToNearestEven (unitsOf a) (unitsOf b) (unitsOf_pos hb0)
  rwa [abs_div, abs_realOf, abs_realOf, div_div_div_cancel_right₀ (by positivity)]

/-- Settles O45: a difference is the sum with the negation. -/
theorem arithmeticIsCorrectlyRounded : Obligations.ArithmeticIsCorrectlyRounded := by
  intro a b ha hb
  refine ⟨fadd_rounds ha hb, ?_, fmul_rounds ha hb, fdiv_rounds ha hb⟩
  have h := fadd_rounds ha (b := fneg b) (by simpa using hb)
  rwa [realOf_fneg, ← sub_eq_add_neg] at h

/-! ### Invalid operations and canonical NaNs -/

theorem fadd_opposite_infinities {a b : Word} (ha : isInf a = true) (hb : isInf b = true) (hs : signOf a ≠ signOf b) :
    fadd a b = canonicalNaN := by
  simp [fadd, not_nan_zero_of_isInf ha, not_nan_zero_of_isInf hb, ha, hb, hs]

theorem fmul_zero_infinity {a b : Word} (ha : isZero a = true) (hb : isInf b = true) :
    fmul a b = canonicalNaN ∧ fmul b a = canonicalNaN := by
  simp [fmul, ha, hb]

theorem fdiv_zeros {a b : Word} (ha : isZero a = true) (hb : isZero b = true) : fdiv a b = canonicalNaN := by
  simp [fdiv, ha, hb]

theorem fdiv_infinities {a b : Word} (ha : isInf a = true) (hb : isInf b = true) : fdiv a b = canonicalNaN := by
  simp [fdiv, ha, hb]

theorem fdiv_by_zero {a b : Word} (ha : isFinite a = true) (ha0 : isZero a = false) (hb : isZero b = true) :
    fdiv a b = withSign (signOf a != signOf b) infMag := by
  obtain ⟨hna, hia⟩ := not_nan_inf_of_isFinite ha
  obtain ⟨hnb, -⟩ := not_nan_inf_of_isFinite (isFinite_of_isZero hb)
  simp [fdiv, hna, hia, hnb, ha0, hb]

/-- Settles O46: one lemma per invalid operation; a difference of like infinities is a sum of opposite ones. -/
theorem invalidOperationsGiveTheCanonicalNan : Obligations.InvalidOperationsGiveTheCanonicalNan := fun _ _ =>
  ⟨fun h => ⟨fadd_of_isNaN h, fsub_of_isNaN h, fmul_of_isNaN h, fdiv_of_isNaN h⟩,
    fadd_opposite_infinities,
    fun ha hb hs => fadd_opposite_infinities ha (by simpa using hb) (by simpa using hs),
    fmul_zero_infinity, fdiv_zeros, fdiv_infinities, fdiv_by_zero⟩

/-- A word is no NaN but the canonical one. -/
def CanonicalIfNaN (w : Word) : Prop := isNaN w = true → w = canonicalNaN

theorem canonicalIfNaN_canonicalNaN : CanonicalIfNaN canonicalNaN := fun _ => rfl

theorem canonicalIfNaN_of_not_isNaN {w : Word} (h : isNaN w = false) : CanonicalIfNaN w := fun hw => by simp [h] at hw

theorem canonicalIfNaN_withSign {neg : Bool} {m : Nat} (h : m ≤ infMag) : CanonicalIfNaN (withSign neg m) :=
  canonicalIfNaN_of_not_isNaN (isNaN_withSign h)

/-- Each branch of a sum is the canonical NaN, an operand that is no NaN, or a rounded pattern. -/
theorem canonicalIfNaN_fadd (a b : Word) : CanonicalIfNaN (fadd a b) := by
  unfold fadd
  split_ifs with _ hinf _ hinf'
  · exact canonicalIfNaN_canonicalNaN
  · exact canonicalIfNaN_canonicalNaN
  · exact canonicalIfNaN_of_not_isNaN (not_nan_zero_of_isInf hinf).1
  · exact canonicalIfNaN_of_not_isNaN (not_nan_zero_of_isInf hinf').1
  · dsimp only
    split_ifs
    · exact canonicalIfNaN_withSign (Nat.zero_le _)
    · exact canonicalIfNaN_of_not_isNaN (isNaN_roundSigned _ _)

theorem canonicalIfNaN_fmul (a b : Word) : CanonicalIfNaN (fmul a b) := by
  unfold fmul
  dsimp only
  split_ifs
  · exact canonicalIfNaN_canonicalNaN
  · exact canonicalIfNaN_canonicalNaN
  · exact canonicalIfNaN_withSign le_rfl
  · exact canonicalIfNaN_withSign (roundMag_le _ _)

theorem canonicalIfNaN_fdiv (a b : Word) : CanonicalIfNaN (fdiv a b) := by
  unfold fdiv
  dsimp only
  split_ifs
  · exact canonicalIfNaN_canonicalNaN
  · exact canonicalIfNaN_canonicalNaN
  · exact canonicalIfNaN_withSign le_rfl
  · exact canonicalIfNaN_withSign (Nat.zero_le _)
  · exact canonicalIfNaN_withSign (roundMag_le _ _)

theorem canonicalIfNaN_fclamp (v : Word) {lo hi : Word} (hlo : isNaN lo = false) (hhi : isNaN hi = false) :
    CanonicalIfNaN (fclamp v lo hi) := by
  unfold fclamp
  split_ifs with hv
  · exact canonicalIfNaN_canonicalNaN
  · exact canonicalIfNaN_of_not_isNaN hlo
  · exact canonicalIfNaN_of_not_isNaN hhi
  · exact canonicalIfNaN_of_not_isNaN (Bool.eq_false_iff.2 hv)

theorem canonicalIfNaN_fminc (v : Word) {c : Word} (hc : isNaN c = false) : CanonicalIfNaN (fminc v c) := by
  unfold fminc
  split_ifs with hv
  · exact canonicalIfNaN_canonicalNaN
  · exact canonicalIfNaN_of_not_isNaN hc
  · exact canonicalIfNaN_of_not_isNaN (Bool.eq_false_iff.2 hv)

/-- Settles O47: the shaper and the DC block end in a sum. -/
theorem producedNansAreCanonical : Obligations.ProducedNansAreCanonical :=
  ⟨fun a b => ⟨canonicalIfNaN_fadd a b, canonicalIfNaN_fadd a (fneg b), canonicalIfNaN_fmul a b,
      canonicalIfNaN_fdiv a b⟩,
    fun v _ _ hlo hhi => ⟨canonicalIfNaN_fclamp v hlo hhi, canonicalIfNaN_fminc v hhi⟩,
    fun _ _ _ _ => canonicalIfNaN_fadd _ _, fun _ _ _ => canonicalIfNaN_fadd _ _⟩

/-! ### Comparisons -/

theorem feq_of_isNaN {a b : Word} (h : isNaN a = true ∨ isNaN b = true) : feq a b = false := by
  rcases h with h | h <;> simp [feq, h]

/-- Settles O48: the model compares signed patterns, which order as the values do. -/
theorem comparisonsOrderTheValues : Obligations.ComparisonsOrderTheValues := by
  intro a b
  refine ⟨fun ha hb => ?_, fun ha hb => ?_, fun h => ⟨flt_of_isNaN h, flt_of_isNaN h.symm, feq_of_isNaN h⟩⟩
  · simp [flt, not_nan_inf_of_isFinite ha, not_nan_inf_of_isFinite hb, signedUnits_lt_iff]
  · simp [feq, not_nan_inf_of_isFinite ha, not_nan_inf_of_isFinite hb, signedUnits_eq_iff]

/-! ### Conversions -/

/-- Truncation toward zero takes the magnitude alone. -/
theorem tdiv_signedUnits (w : Word) :
    (signedUnits w).tdiv (2 ^ 149) = if signOf w then -(truncMag w : Int) else (truncMag w : Int) := by
  have h : (unitsOf w : Int).tdiv (2 ^ 149) = truncMag w := by
    rw [truncMag, Int.natCast_ediv]; rfl
  unfold signedUnits
  split
  · rw [Int.neg_tdiv, h]
  · exact h

theorem f32ToI32_of_isFinite {w : Word} (h : isFinite w = true) :
    f32ToI32 w = max (-2 ^ 31) (min (2 ^ 31 - 1) ((signedUnits w).tdiv (2 ^ 149))) := by
  rw [tdiv_signedUnits]
  simp only [f32ToI32, not_nan_inf_of_isFinite h, Bool.false_eq_true, if_false]
  split <;> omega

theorem f32ToU32_of_isFinite {w : Word} (h : isFinite w = true) :
    ((f32ToU32 w).toNat : Int) = max 0 (min (2 ^ 32 - 1) ((signedUnits w).tdiv (2 ^ 149))) := by
  rw [tdiv_signedUnits]
  simp only [f32ToU32, not_nan_inf_of_isFinite h, Bool.false_eq_true, if_false]
  split
  · rw [show (0 : Word).toNat = 0 from rfl]; omega
  · rw [BitVec.toNat_ofNat]; omega

/-- Settles O49: integers are rationals over 1, and `tdiv_signedUnits` says what truncation gives before it saturates. -/
theorem conversionsFollowTheirRules : Obligations.ConversionsFollowTheirRules := by
  refine ⟨fun n _ => ⟨_, rfl, ?_⟩, fun z _ _ => ⟨_, rfl, ?_⟩, fun w h => by simp [f32ToI32, f32ToU32, h],
    fun w h => ⟨f32ToI32_of_isFinite h, f32ToU32_of_isFinite h⟩, by decide⟩
  · simpa using roundingIsToNearestEven n 1 one_pos
  · have h := roundingIsToNearestEven z.natAbs 1 one_pos
    rwa [Nat.cast_natAbs, Int.cast_abs, Nat.cast_one, div_one] at h

end Sys2Proof.Machine
end

section
/-! PROOFS. cr_pow, cr_exp2 and cr_log2 (00_scope.md R17), on the comparisons with the reals of Laws/Elementary.lean. -/

namespace Sys2Proof.Machine

/-! ### The cases of cr_pow, in their order (00_scope.md R17) -/

theorem crPow_zero_exponent (x : Word) {y : Word} (hy : isZero y = true) : crPow x y = fone := by simp [crPow, hy]

theorem crPow_one (y : Word) : crPow fone y = fone := by simp [crPow]

theorem crPow_of_isNaN {x y : Word} (hy0 : isZero y = false) (hx1 : x ≠ fone) (h : isNaN x = true ∨ isNaN y = true) :
    crPow x y = canonicalNaN := by
  rcases h with h | h <;> simp [crPow, hy0, hx1, h]

theorem ne_fone_of_isZero {x : Word} (hx : isZero x = true) : x ≠ fone := by
  rintro rfl
  exact absurd hx (by decide)

theorem crPow_zero_base {x y : Word} (hx : isZero x = true) (hy : isNaN y = false) (hy0 : isZero y = false) :
    crPow x y = if signOf y then withSign false infMag else fzero := by
  simp [crPow, hy0, ne_fone_of_isZero hx, not_nan_inf_of_isFinite (isFinite_of_isZero hx), hy, hx]

theorem crPow_infinite_base {x y : Word} (hx : isInf x = true) (hsx : signOf x = false) (hy : isNaN y = false)
    (hy0 : isZero y = false) : crPow x y = if signOf y then fzero else withSign false infMag := by
  have hx1 : x ≠ fone := by rintro rfl; exact absurd hx (by decide)
  simp [crPow, hy0, hx1, not_nan_zero_of_isInf hx, hy, hsx, hx]

theorem crPow_infinite_exponent {x y : Word} (hx : isFinite x = true) (hpos : fgt x 0 = true) (hx1 : x ≠ fone)
    (hy : isInf y = true) :
    crPow x y = if flt x fone == signOf y then withSign false infMag else fzero := by
  obtain ⟨hnx, hix⟩ := not_nan_inf_of_isFinite hx
  obtain ⟨-, hx0, hsx⟩ := fgt_zero_iff.1 hpos
  simp [crPow, not_nan_zero_of_isInf hy, hnx, hix, hx0, hsx, hx1, hy]

theorem crPow_finite {x y : Word} (hx : isFinite x = true) (hy : isFinite y = true) (hsx : signOf x = false)
    (hx0 : isZero x = false) (hy0 : isZero y = false) (hx1 : x ≠ fone) : crPow x y = crPowMain x y := by
  simp [crPow, not_nan_inf_of_isFinite hx, not_nan_inf_of_isFinite hy, hsx, hx0, hy0, hx1]

/-- Settles O41: one lemma per case of the list; what each clause says of x and y excludes the cases before its own. -/
theorem crPowSpecialCases : Obligations.CrPowSpecialCases := by
  intro x y
  refine ⟨crPow_zero_exponent x, crPow_one y, crPow_of_isNaN, fun hy hx => ⟨fun hpos => ?_, fun hneg => ?_⟩,
    fun hy => ⟨fun hpos => ?_, fun hneg => ?_⟩, fun hx hpos => ⟨fun hlt => ?_, fun hgt => ?_⟩,
    fun h => by simp [crExp2, h, canonicalNaN], by decide, by decide⟩
  · obtain ⟨-, hy0, hs⟩ := fgt_zero_iff.1 hpos
    rw [crPow_zero_base hx hy hy0, hs]; rfl
  · obtain ⟨-, hy0, hs⟩ := flt_zero_iff.1 hneg
    rw [crPow_zero_base hx hy hy0, hs]; rfl
  · obtain ⟨-, hy0, hs⟩ := fgt_zero_iff.1 hpos
    rw [crPow_infinite_base (by decide) (by decide) hy hy0, hs]; rfl
  · obtain ⟨-, hy0, hs⟩ := flt_zero_iff.1 hneg
    rw [crPow_infinite_base (by decide) (by decide) hy hy0, hs]; rfl
  · have hlt : flt x fone = true := hlt
    have hx1 : x ≠ fone := by rintro rfl; simp [flt_irrefl] at hlt
    rw [crPow_infinite_exponent hx hpos hx1 (by decide), crPow_infinite_exponent hx hpos hx1 (by decide), hlt]
    exact ⟨rfl, rfl⟩
  · have hge : flt x fone = false := flt_asymm hgt
    have hx1 : x ≠ fone := by rintro rfl; simp [fgt, fone, flt_irrefl] at hgt
    rw [crPow_infinite_exponent hx hpos hx1 (by decide), crPow_infinite_exponent hx hpos hx1 (by decide), hge]
    exact ⟨rfl, rfl⟩

/-! ### Correctly rounded powers and logarithms -/

/-- Case 7 is the real power rounded once: `comparePow` gives the comparisons that `nearestMag` rounds by. -/
theorem crPowMain_rounds {x : Word} (hx0 : isZero x = false) (y : Word) :
    ∃ g, crPowMain x y = BitVec.ofNat 32 g ∧
      NearestEven (((unitsOf x : ℝ) / 2 ^ 149) ^ ((signedUnits y : ℝ) / 2 ^ 149)) g :=
  ⟨_, rfl, nearestEven_nearestMag (fun _ hm => comparePow_sound y (unitsOf_pos hx0) hm) _⟩

theorem unitsOf_ftwo : (unitsOf ftwo : ℝ) / 2 ^ 149 = 2 := by
  have h : unitsOf ftwo = 2 * 2 ^ 149 := by decide
  rw [h, Nat.cast_mul, Nat.cast_pow, Nat.cast_two, mul_div_cancel_right₀ _ (by positivity)]

/-- cr_exp2 of every finite value: case 7 at 2.0, and of a zero the pattern that 1 rounds to. -/
theorem crExp2_rounds {v : Word} (hv : isFinite v = true) :
    ∃ g, crExp2 v = BitVec.ofNat 32 g ∧ NearestEven ((2 : ℝ) ^ ((signedUnits v : ℝ) / 2 ^ 149)) g := by
  obtain ⟨hn, hi⟩ := not_nan_inf_of_isFinite hv
  cases hz : isZero v
  · have h := crPowMain_rounds (x := ftwo) (by decide) v
    rw [unitsOf_ftwo] at h
    simpa [crExp2, hn, hi, hz] using h
  · have hone : roundMag 1 1 = 0x3F800000 := by decide
    have h := roundingIsToNearestEven 1 1 one_pos
    have hu : signedUnits v = 0 := by simp [signedUnits, unitsOf_eq_zero_iff.2 hz]
    refine ⟨0x3F800000, by simp [crExp2, hn, hi, hz, fone], ?_⟩
    rw [hu, Int.cast_zero, zero_div, Real.rpow_zero]
    rwa [hone, Nat.cast_one, div_one] at h

/-- Settles O42: both functions are `crPowMain` there, cr_exp2 but for a zero argument. -/
theorem crPowIsCorrectlyRounded : Obligations.CrPowIsCorrectlyRounded := by
  refine ⟨fun x y hx hy hsx hx0 hy0 hx1 => ?_, fun _ => crExp2_rounds⟩
  rw [crPow_finite hx hy hsx hx0 hy0 hx1]
  exact crPowMain_rounds hx0 y

theorem crLog2_finite {v : Word} (hv : isFinite v = true) (hs : signOf v = false) (h0 : isZero v = false)
    (h1 : v ≠ fone) : crLog2 v = crLog2Main v := by
  simp [crLog2, not_nan_inf_of_isFinite hv, hs, h0, h1]

theorem crLog2_zero {v : Word} (h : isZero v = true) : crLog2 v = withSign true infMag := by
  simp [crLog2, not_nan_inf_of_isFinite (isFinite_of_isZero h), h]

/-- Settles O43: `compareLog2` gives the comparisons of |log2 v|, and the sign is that of v against 1. -/
theorem crLog2IsCorrectlyRounded : Obligations.CrLog2IsCorrectlyRounded := by
  refine ⟨fun v hv hs h0 h1 => ?_, fun v => ⟨fun h => by simp [crLog2, h, canonicalNaN], crLog2_zero⟩, by decide,
    by decide⟩
  have hu := unitsOf_pos h0
  rw [crLog2_finite hv hs h0 h1, logb_units_neg_iff hu]
  exact ⟨_, _, rfl, nearestEven_nearestMag (fun m _ => compareLog2_sound hu m) _, decide_eq_true_iff⟩

end Sys2Proof.Machine
end

section
/-! SUPPORT. The register map both ways, what an admitted read returns, and what a plain write stores
(10_state.md R41 to R56; 20_memory.md R83, R85). -/

namespace Sys2Proof.Machine

/-! ### The map of the window -/

theorem ofOffset_offset (reg : Reg) : Reg.ofOffset reg.offset = reg := by
  cases reg with
  | a i => fin_cases i <;> rfl
  | r i => fin_cases i <;> rfl
  | head b => cases b <;> rfl
  | id | geom | feat | ctrl | hardness | status | errcmd | cmd | latency | tail | dcx | dcy | reserved => rfl

theorem ofOffset_of_ge {off : Nat} (h : 0x70 ≤ off) : Reg.ofOffset off = .reserved := by
  unfold Reg.ofOffset
  repeat rw [if_neg (by omega)]

theorem offset_ofOffset {off : Nat} (h4 : off % 4 = 0) (h : Reg.ofOffset off ≠ .reserved) :
    (Reg.ofOffset off).offset = off := by
  have hlt : off < 0x70 := Nat.lt_of_not_ge (mt ofOffset_of_ge h)
  obtain ⟨k, rfl⟩ := Nat.dvd_of_mod_eq_zero h4
  have hk : k < 28 := by omega
  interval_cases k <;> rfl

/-- An aligned offset reaches a register of the map exactly at that register's offset. -/
theorem ofOffset_eq_iff {off : Nat} (h4 : off % 4 = 0) {reg : Reg} (hreg : reg ≠ .reserved) :
    Reg.ofOffset off = reg ↔ off = reg.offset := by
  constructor
  · rintro rfl
    exact (offset_ofOffset h4 hreg).symm
  · rintro rfl
    exact ofOffset_offset reg

/-! ### Reads -/

theorem regRead_at {s : State} {off : Nat} (reg : Reg) (h : off = reg.offset) :
    regRead s (.ofOffset off) = regRead s reg := by rw [h, ofOffset_offset]

theorem capacity_lt_of_admitted {c : Config} (hc : c.admitted = true) (b : BufId) : capacity c b < 65536 := by
  obtain ⟨⟨_, _, h2, _⟩, ⟨_, _, h4, _⟩, _⟩ := admitted_iff.1 hc
  unfold capacity Config.l2 Config.l4
  cases c.backing <;> cases b <;> simp only <;> omega

theorem geomWord_toNat {c : Config} (hc : c.admitted = true) :
    (geomWord c).toNat = c.h4.length * 65536 + c.h2.length := by
  obtain ⟨⟨_, _, h2, _⟩, ⟨_, _, h4, _⟩, _⟩ := admitted_iff.1 hc
  have hl2 : c.h2.length % 2 ^ 16 = c.h2.length := Nat.mod_eq_of_lt (by omega)
  have hl4 : c.h4.length % 2 ^ 16 = c.h4.length := Nat.mod_eq_of_lt (by omega)
  rw [geomWord, BitVec.toNat_append, BitVec.toNat_ofNat, BitVec.toNat_ofNat, Config.l2, Config.l4, hl2, hl4,
    ← Nat.shiftLeft_add_eq_or_of_lt (by omega), Nat.shiftLeft_eq]

/-- HEAD shows the whole head: in a legal state it fits the 16 bits (10_state.md R54, R60). -/
theorem headWord_toNat {s : State} (h : s.wf = true) (b : BufId) : (headWord (s.buf b)).toNat = (s.buf b).head := by
  obtain ⟨hc, _, _, hb⟩ := state_wf_iff.1 h
  obtain ⟨_, _, hhead⟩ := buffer_wf_iff.1 (hb b)
  have := capacity_lt_of_admitted hc b
  simp only [headWord, BitVec.toNat_setWidth, BitVec.toNat_ofNat]
  omega

/-! ### Plain writes -/

theorem regWrite_ctrl (s : State) (w : Word) (reg : Reg) :
    (regWrite s w reg).ctrl = if reg = .ctrl then ctrlStored w else s.ctrl := by cases reg <;> rfl

theorem regWrite_hardness (s : State) (w : Word) (reg : Reg) :
    (regWrite s w reg).hardness = if reg = .hardness then w else s.hardness := by cases reg <;> rfl

theorem regWrite_a_get (s : State) (w : Word) (reg : Reg) (j : Fin 8) :
    (regWrite s w reg).a[j] = if reg = .a j then w else s.a[j] := by
  cases reg with
  | a i => simp [regWrite, Vector.getElem_set, Fin.ext_iff]
  | id | geom | feat | ctrl | hardness | status | errcmd | cmd | r | latency | tail | dcx | dcy | head | reserved => rfl

/-- A plain write reaches CTRL, HARDNESS and the operands alone. -/
theorem regWrite_frame (s : State) (w : Word) (reg : Reg) :
    regWrite s w reg = { s with
      ctrl := (regWrite s w reg).ctrl, hardness := (regWrite s w reg).hardness, a := (regWrite s w reg).a } := by
  cases reg <;> rfl

@[simp] theorem regWrite_cfg (s : State) (w : Word) (reg : Reg) : (regWrite s w reg).cfg = s.cfg := by
  rw [regWrite_frame]

/-- A plain write stores no reserved bit of CTRL, so it keeps a legal state legal. -/
theorem state_wf_regWrite {s : State} (h : s.wf = true) (w : Word) (reg : Reg) : (regWrite s w reg).wf = true := by
  obtain ⟨hc, hctrl, hlatch, hb⟩ := state_wf_iff.1 h
  rw [regWrite_frame]
  refine state_wf_iff.2 ⟨hc, ?_, hlatch, fun b => by cases b <;> exact hb _⟩
  show (regWrite s w reg).ctrl &&& 0xFFFFFFF0 = 0
  rw [regWrite_ctrl]
  split
  · exact ctrlStored_legal w
  · exact hctrl

end Sys2Proof.Machine
end

section
/-! SUPPORT. What a command can do and what a step can do, each said once: every invariant and every frame over all
commands or all steps is an induction on `Performs` or a case split on `StepEffect`. -/

namespace Sys2Proof.Machine

/-! ### Commands -/

/-- The up or down command whose stage pushes into a buffer (44_multirate.md R232 to R235). -/
def stageOf : BufId → Instr
  | .upX2 => .up2x
  | .upX4 => .up4x
  | .downX4 => .dn4x
  | .downX2 => .dn2x

/-- `t` is made from `s` by named operations of Machine/Ops.lean that command `i` may perform: each operation on the
signal state is open to the commands that 10_state.md R61 and R62 list for it. -/
inductive Performs (i : Instr) (s : State) : State → Prop
  | start : Performs i s s
  | setR {u : State} (k : Fin 4) (w : Word) : Performs i s u → Performs i s (u.setR k w)
  | setR0123 {u : State} (w0 w1 w2 w3 : Word) : Performs i s u → Performs i s (u.setR0123 w0 w1 w2 w3)
  | push {u : State} (b : BufId) (w : Word) (hi : i = .push b ∨ i = .os4 ∨ i = stageOf b) :
      Performs i s u → Performs i s (bufPush b w u)
  | reset {u : State} (b : BufId) (hi : i = .brst b) : Performs i s u → Performs i s (bufReset b u)
  | resetAll {u : State} (hi : i = .rst) : Performs i s u → Performs i s (signalReset u)
  | dc {u : State} (x : Word) (hi : i = .dcb ∨ i = .os4 ∧ s.ctrl.getLsbD 2 = true) :
      Performs i s u → Performs i s (dcStep x u)
  | raise {u : State} (c : Cause) (w : Word) : Performs i s u → Performs i s (raiseError c w u)
  | clear {u : State} (hi : i = .clrerr) : Performs i s u → Performs i s (clearError u)

theorem performs_scalarPow (i : Instr) (t : Tier) (s : State) : Performs i s (scalarPow i t s) := by
  unfold scalarPow
  split
  · exact .raise _ _ .start
  · exact .setR _ _ .start

theorem performs_vectorPow (i : Instr) (t : Tier) (s : State) : Performs i s (vectorPow i t s) := by
  unfold vectorPow
  split
  · exact .raise _ _ .start
  · exact .setR0123 _ _ _ _ .start

theorem performs_setR01 {i : Instr} {s u : State} (w0 w1 : Word) (h : Performs i s u) :
    Performs i s (u.setR01 w0 w1) := (h.setR 0 w0).setR 1 w1

/-- A stage command may push into its own buffer. -/
theorem performs_stagePush (b : BufId) (w : Word) {s u : State} (h : Performs (stageOf b) s u) :
    Performs (stageOf b) s (bufPush b w u) := .push b w (.inr (.inr rfl)) h

theorem performs_cascadeStart (s : State) : Performs .os4 s (cascadeStart s) := by
  cases hen : s.ctrl.getLsbD 2 with
  | false =>
    rw [(cascadeStart_disabled hen).1]
    exact .start
  | true =>
    rw [(cascadeStart_enabled hen).1]
    exact .dc _ (.inr ⟨rfl, hen⟩) .start

theorem performs_cascade {s u : State} (x : Word) (h : Performs .os4 s u) : Performs .os4 s (cascade x u).1 := by
  have push {b : BufId} {w : Word} {v : State} : Performs .os4 s v → Performs .os4 s (bufPush b w v) :=
    .push b w (.inr (.inl rfl))
  obtain ⟨_, _, _, _, _, _, _, _, hc⟩ := cascade_pushes x u
  rw [hc]
  exact push (push (push (push (push (push (push (push (push h))))))))

/-- Every command completes, and does no more than its operations. -/
theorem exec_completes (i : Instr) (s : State) : ∃ t, exec i s = .next t ∧ Performs i s t := by
  cases i with
  | nop | init => exact ⟨s, rfl, .start⟩
  | rst => exact ⟨_, rfl, .resetAll rfl .start⟩
  | clrerr => exact ⟨_, rfl, .clear rfl .start⟩
  | push b => exact ⟨_, rfl, .push b _ (.inl rfl) .start⟩
  | tap b d =>
    show ∃ t, execTap b d s = .next t ∧ _
    unfold execTap
    split
    · exact ⟨_, rfl, .setR _ _ .start⟩
    · exact ⟨_, rfl, .raise _ _ .start⟩
  | brst b => exact ⟨_, rfl, .reset b rfl .start⟩
  | up2x => exact ⟨_, execUp2x_eq s, performs_setR01 _ _ (performs_stagePush .upX2 _ .start)⟩
  | up4x => exact ⟨_, execUp4x_eq s, performs_setR01 _ _ (performs_stagePush .upX4 _ .start)⟩
  | dn4x =>
    exact ⟨_, execDn4x_eq s, .setR _ _ (performs_stagePush .downX4 _ (performs_stagePush .downX4 _ .start))⟩
  | dn2x =>
    exact ⟨_, execDn2x_eq s, .setR _ _ (performs_stagePush .downX2 _ (performs_stagePush .downX2 _ .start))⟩
  | os4 => exact ⟨_, execOs4_eq s, .setR _ _ (performs_cascade _ (performs_cascadeStart s))⟩
  | clip => exact ⟨_, rfl, .setR _ _ .start⟩
  | clip4 => exact ⟨_, rfl, .setR0123 _ _ _ _ .start⟩
  | powE | powF | powFR | powFT => exact ⟨_, rfl, performs_scalarPow _ _ s⟩
  | pow4E | pow4F | pow4FR | pow4FT => exact ⟨_, rfl, performs_vectorPow _ _ s⟩
  | dcb => exact ⟨_, rfl, .setR _ _ (.dc _ (.inl rfl) .start)⟩

theorem performs_of_exec {i : Instr} {s t : State} (h : exec i s = .next t) : Performs i s t := by
  obtain ⟨u, hu, hp⟩ := exec_completes i s
  cases hu.symm.trans h
  exact hp

theorem sameHostSide_of_performs {i : Instr} {s t : State} (h : Performs i s t) : sameHostSide s t := by
  induction h with
  | start => exact ⟨rfl, rfl, rfl, rfl, rfl, rfl⟩
  | setR _ _ _ ih | setR0123 _ _ _ _ _ ih | push _ _ _ _ ih | reset _ _ _ ih | resetAll _ _ ih | dc _ _ _ ih
  | raise _ _ _ ih | clear _ _ ih => simpa [sameHostSide] using ih

/-- A command leaves a buffer alone, or is one that pushes into it or resets it (10_state.md R61). -/
theorem buf_of_performs {i : Instr} {s t : State} (h : Performs i s t) (b : BufId) :
    t.buf b = s.buf b ∨ (i = .push b ∨ i = .os4 ∨ i = stageOf b) ∨ i = .brst b ∨ i = .rst := by
  induction h with
  | start => exact .inl rfl
  | push b' w hi _ ih =>
    by_cases hb : b = b'
    · exact .inr (.inl (hb ▸ hi))
    · rwa [bufPush_buf_of_ne _ _ _ _ hb]
  | reset b' hi _ ih =>
    by_cases hb : b = b'
    · exact .inr (.inr (.inl (hb ▸ hi)))
    · rwa [bufReset_buf_of_ne _ _ _ hb]
  | resetAll hi _ _ => exact .inr (.inr (.inr hi))
  | setR _ _ _ ih | setR0123 _ _ _ _ _ ih | dc _ _ _ ih | raise _ _ _ ih | clear _ _ ih => simpa using ih

/-- A command leaves the DC state alone, or is one that steps it or resets it (10_state.md R62). -/
theorem sameDc_of_performs {i : Instr} {s t : State} (h : Performs i s t) :
    sameDc s t ∨ i = .dcb ∨ i = .rst ∨ (i = .os4 ∧ s.ctrl.getLsbD 2 = true) := by
  induction h with
  | start => exact .inl ⟨rfl, rfl⟩
  | resetAll hi _ _ => exact .inr (.inr (.inl hi))
  | dc _ hi _ _ => exact .inr (hi.imp_right .inr)
  | setR _ _ _ ih | setR0123 _ _ _ _ _ ih | push _ _ _ _ ih | reset _ _ _ ih | raise _ _ _ ih | clear _ _ ih =>
    simpa [sameDc] using ih

theorem state_wf_of_performs {i : Instr} {s t : State} (hs : s.wf = true) (h : Performs i s t) : t.wf = true := by
  induction h with
  | start => exact hs
  | setR k w _ ih => exact state_wf_setR ih k w
  | setR0123 w0 w1 w2 w3 _ ih => exact state_wf_setR0123 ih w0 w1 w2 w3
  | push b w _ _ ih => exact state_wf_bufPush ih b w
  | reset b _ _ ih => exact state_wf_bufReset ih b
  | resetAll _ _ ih => exact state_wf_signalReset ih
  | dc x _ _ ih => exact state_wf_dcStep ih x
  | raise c w _ ih => exact state_wf_raiseError ih c w
  | clear _ _ ih => exact state_wf_clearError ih

/-! ### Steps -/

/-- `t` is a next state of `s`: the idle block, or the effect of one input taken from the list. -/
inductive StepEffect (s : State) : State → Prop
  | idle : StepEffect s s
  | reset (rest : List Input) : StepEffect s (hardwareReset (takeInput rest s))
  | outside (rest : List Input) : StepEffect s (takeInput rest s)
  | read (rest : List Input) (reg : Reg) : StepEffect s (readReg reg (takeInput rest s))
  | write (rest : List Input) (reg : Reg) (w : Word) : StepEffect s (regWrite (takeInput rest s) w reg)
  | command (rest : List Input) {i : Instr} {t : State} (h : Performs i (takeInput rest s) t) : StepEffect s t
  | illegal (rest : List Input) (w : Word) : StepEffect s (raiseError .illegalCmd w (takeInput rest s))

theorem stepEffect_of_writeReg {s t : State} {rest : List Input} {reg : Reg} {w : Word}
    (h : writeReg reg w (takeInput rest s) = .next t) : StepEffect s t := by
  unfold writeReg runCommand at h
  split at h
  · split at h
    · exact .command rest (performs_of_exec h)
    · cases h
      exact .illegal rest w
  · cases h
    exact .write rest reg w

theorem stepEffect_of_perform {s t : State} {rest : List Input} {inp : Input}
    (h : perform inp (takeInput rest s) = .next t) : StepEffect s t := by
  cases inp with
  | reset =>
    cases h
    exact .reset rest
  | read size addr =>
    simp only [perform] at h
    split_ifs at h
    · cases h
      exact .read rest _
    · cases h
      exact .outside rest
  | write size addr w =>
    simp only [perform] at h
    split_ifs at h
    · exact stepEffect_of_writeReg h
    · cases h
      exact .outside rest

theorem stepEffect_of_step {s t : State} (h : step s = .next t) : StepEffect s t := by
  cases hc : s.cfg.admitted with
  | false =>
    rw [step_of_not_admitted hc] at h
    cases h
  | true =>
    cases hi : s.inputs with
    | nil =>
      cases (step_nil hc hi).symm.trans h
      exact .idle
    | cons inp rest => exact stepEffect_of_perform ((step_cons hc hi).symm.trans h)

end Sys2Proof.Machine
end

section
/-! PROOFS. The legal states, what the host reads and writes, what no command and no step changes, and the reset
(10_state.md; 20_memory.md R81 to R85; 70_reset_and_hazards.md R310). -/

namespace Sys2Proof.Machine

/-! ### What every command and every step keeps -/

/-- Settles O59: each effect of a step keeps the legal states, and a command keeps them operation by operation. -/
theorem stepKeepsLegalStates : Obligations.StepKeepsLegalStates := by
  intro s t hs hstep
  have taken (rest : List Input) : (takeInput rest s).wf = true := state_wf_takeInput hs rest
  cases stepEffect_of_step hstep with
  | idle => exact hs
  | reset rest => exact state_wf_hardwareReset (taken rest)
  | outside rest => exact taken rest
  | read rest reg => exact state_wf_readReg (taken rest) reg
  | write rest reg w => exact state_wf_regWrite (taken rest) w reg
  | command rest h => exact state_wf_of_performs (taken rest) h
  | illegal rest w => exact state_wf_raiseError (taken rest) _ w

/-- Settles O55: no operation that a command performs writes the host side. -/
theorem commandsKeepTheHostSide : Obligations.CommandsKeepTheHostSide := fun _ _ _ h =>
  sameHostSide_of_performs (performs_of_exec h)

/-- Settles O56: the commands that push into a buffer or reset it are those of the list. -/
theorem onlyListedCommandsChangeBuffers : Obligations.OnlyListedCommandsChangeBuffers := by
  intro i s t b h hchanged
  rcases (buf_of_performs (performs_of_exec h) b).resolve_left hchanged with (rfl | rfl | rfl) | rfl | rfl
  · simp
  · simp
  · cases b <;> simp [stageOf]
  · simp
  · simp

/-- Settles O57: the commands that may step or reset the DC state are those of the list. -/
theorem onlyListedCommandsChangeDcState : Obligations.OnlyListedCommandsChangeDcState := fun _ _ _ h hchanged =>
  (sameDc_of_performs (performs_of_exec h)).resolve_left hchanged

/-- Settles O58: the configuration is on the host side, which no command writes; no other effect touches it. -/
theorem configurationIsConstant : Obligations.ConfigurationIsConstant := by
  intro s t hstep
  cases stepEffect_of_step hstep with
  | command rest h => exact (sameHostSide_of_performs h).1
  | idle | reset | outside | read | write | illegal => simp

/-! ### Reads and writes of the host -/

/-- Settles O8: the answer is the word of the register that the offset maps to. -/
theorem readAnswersTheRegister : Obligations.ReadAnswersTheRegister := by
  intro s off rest hs h4 hle hi
  obtain ⟨hc, _⟩ := state_wf_iff.1 hs
  have hgeom (h : off = 0x04) :
      (regRead (takeInput rest s) (.ofOffset off)).toNat = s.cfg.h4.length * 65536 + s.cfg.h2.length := by
    rw [regRead_at .geom h]
    exact geomWord_toNat hc
  have hfeat (h : off = 0x08) : regRead (takeInput rest s) (.ofOffset off) = featWord s.cfg := regRead_at .feat h
  have hhead (b : BufId) (h : off = (Reg.head b).offset) :
      (regRead (takeInput rest s) (.ofOffset off)).toNat = (s.buf b).head := by
    rw [regRead_at (.head b) h, ← takeInput_buf s rest]
    exact headWord_toNat (state_wf_takeInput hs rest) b
  have hreserved (h : 0x70 ≤ off) : regRead (takeInput rest s) (.ofOffset off) = 0 := by
    rw [ofOffset_of_ge h]
    rfl
  exact ⟨regRead (takeInput rest s) (.ofOffset off), (step_cons hc hi).trans (perform_read h4 hle),
    regRead_at .id, hgeom, hfeat, regRead_at .ctrl, regRead_at .hardness, regRead_at .status, regRead_at .errcmd,
    regRead_at .cmd, fun i => regRead_at (.a i), fun i => regRead_at (.r i), regRead_at .latency, regRead_at .tail,
    regRead_at .dcx, regRead_at .dcy, hhead .upX2, hhead .upX4, hhead .downX4, hhead .downX2, hreserved⟩

/-- Settles O9: the write is a plain one of the register that the offset maps to. -/
theorem writeStoresByAccessKind : Obligations.WriteStoresByAccessKind := by
  intro s off w rest hc h4 hle hcmd hi
  have hwrite : step s = .next (regWrite (takeInput rest s) w (.ofOffset off)) := by
    rw [step_cons hc hi, ← takeInput_cfg s rest, perform_write h4 hle, writeReg_of_ne (mt ofOffset_eq_cmd.1 hcmd)]
  refine ⟨_, hwrite, ?_, ?_, fun j => ?_, regWrite_frame _ _ _⟩
  · simp only [regWrite_ctrl, ofOffset_eq_iff h4 (reg := .ctrl) (by simp)]
    rfl
  · simp only [regWrite_hardness, ofOffset_eq_iff h4 (reg := .hardness) (by simp)]
    rfl
  · simp only [regWrite_a_get, ofOffset_eq_iff h4 (reg := .a j) (by simp)]
    rfl

/-- Settles O6: the write reaches CMD, which runs the word. -/
theorem stepRunsTheDecodedCommand : Obligations.StepRunsTheDecodedCommand := by
  intro s w rest i hc hi hdecode
  have hrun : step s = runCommand w (takeInput rest s) := (step_cons hc hi).trans (perform_command _ w)
  rw [hrun, runCommand, hdecode]
  rfl

/-! ### Resets -/

/-- Settles O12: the step of the reset input is `hardwareReset`, field by field. -/
theorem hardwareResetClearsTheState : Obligations.HardwareResetClearsTheState := fun s rest hc hi =>
  ⟨hardwareReset (takeInput rest s), step_cons hc hi, by simp [Buffer.empty]⟩

/-- Settles O14, field by field. -/
theorem resetStateIsZero : Obligations.ResetStateIsZero := fun c => by simp [Buffer.empty]

theorem state_wf_resetOf {c : Config} (hc : c.admitted = true) : (State.resetOf c).wf = true :=
  state_wf_iff.2 ⟨hc, by simp, latchLegal_zero, fun b => by simpa using buffer_empty_wf (capacity_pos c b)⟩

/-- Settles O15: an empty buffer is legal in every capacity, and TC1 is admitted. -/
theorem resetStateIsLegal : Obligations.ResetStateIsLegal :=
  ⟨fun _ => state_wf_resetOf, state_wf_resetOf (by decide)⟩

/-! ### Capacities -/

theorem capacity_small {c : Config} (h : c.backing = .small) (b : BufId) : capacity c b = 256 := by simp [capacity, h]

theorem capacity_fixed {c : Config} (h : c.backing = .fixed) :
    capacity c .upX2 = c.h2.length / 2 + 1 ∧ capacity c .upX4 = c.h4.length / 2 + 1 ∧
      capacity c .downX4 = c.h4.length + 1 ∧ capacity c .downX2 = c.h2.length + 1 := by
  simp [capacity, h, Config.l2, Config.l4]

/-- Settles O24: the capacity is one more than the taps of the stage under FIXED; under SMALL a table of R22 has at most
254 taps, and 255 delays are legal. -/
theorem capacitiesCoverTheFirTaps : Obligations.CapacitiesCoverTheFirTaps := by
  refine fun c => ⟨capacity_small, capacity_fixed, fun hc k => ?_⟩
  obtain ⟨⟨_, _, _, h2small⟩, ⟨_, _, _, h4small⟩, _⟩ := admitted_iff.1 hc
  cases hb : c.backing with
  | fixed =>
    obtain ⟨cap0, cap1, cap2, cap3⟩ := capacity_fixed hb
    simp only [tapLimit, hb, cap0, cap1, cap2, cap3]
    omega
  | small =>
    have := h2small hb
    have := h4small hb
    simp only [tapLimit, hb]
    omega

end Sys2Proof.Machine
end

section
/-! SUPPORT. A tap of a circular buffer before and after a push, the frame of a replaced buffer, a raised error, and the
word of a TAP (20_memory.md R90 to R93; 43_ringbuffer.md; 60_exceptions.md R282). -/

namespace Sys2Proof.Machine

/-! ### Indices of legal delays -/

/-- The legal delays, as the rule tells them for each backing (20_memory.md R91). -/
theorem lt_tapLimit_iff {c : Config} {b : BufId} {d : Nat} :
    d < tapLimit c b ↔ match c.backing with | .fixed => d < capacity c b | .small => d < 255 := by
  unfold tapLimit
  cases c.backing <;> rfl

/-- The illegal delays, as the rule tells them for each backing (20_memory.md R91). -/
theorem tapLimit_le_iff {c : Config} {b : BufId} {d : Nat} :
    tapLimit c b ≤ d ↔ match c.backing with | .fixed => capacity c b ≤ d | .small => 255 ≤ d := by
  unfold tapLimit
  cases c.backing <;> rfl

theorem nextHead_eq_ite {c : Config} {b : BufId} {head : Nat} (hh : head < capacity c b) :
    nextHead c b head = if head + 1 = capacity c b then 0 else head + 1 := by
  rw [nextHead_eq]
  split
  · next hwrap => rw [hwrap, Nat.mod_self]
  · exact Nat.mod_eq_of_lt (by omega)

/-- A legal delay counts back from the head, and goes round once at most. -/
theorem tapIndex_eq_ite {c : Config} {b : BufId} {head d : Nat} (hd : d < tapLimit c b) (hh : head < capacity c b) :
    tapIndex c b head d = if d ≤ head then head - d else capacity c b + head - d := by
  have := tapLimit_le_capacity c b
  rw [tapIndex_eq hd hh]
  split
  · next hle => rw [Nat.add_sub_assoc hle, Nat.add_mod_left, Nat.mod_eq_of_lt (by omega)]
  · exact Nat.mod_eq_of_lt (by omega)

/-- Only delay 0 reaches the slot of the head. -/
theorem tapIndex_eq_head_iff {c : Config} {b : BufId} {head d : Nat} (hd : d < tapLimit c b)
    (hh : head < capacity c b) : tapIndex c b head d = head ↔ d = 0 := by
  have := tapLimit_le_capacity c b
  rw [tapIndex_eq_ite hd hh]
  split <;> omega

/-- One push makes every delay one longer. -/
theorem tapIndex_nextHead_succ {c : Config} {b : BufId} {head d : Nat} (hd : d + 1 < tapLimit c b)
    (hh : head < capacity c b) : tapIndex c b (nextHead c b head) (d + 1) = tapIndex c b head d := by
  have := tapLimit_le_capacity c b
  rw [tapIndex_eq_ite hd (nextHead_lt c b head), tapIndex_eq_ite (by omega) hh, nextHead_eq_ite hh]
  split_ifs <;> omega

/-! ### Taps after pushes -/

/-- Delay 0 after a push is the word pushed; every other legal delay is one shorter before it. -/
theorem tapWord_bufPush {s : State} {b : BufId} (hs : (s.buf b).wf (capacity s.cfg b) = true) (w : Word) {d : Nat}
    (hd : d < tapLimit s.cfg b) : tapWord (bufPush b w s) b d = if d = 0 then w else tapWord s b (d - 1) := by
  obtain ⟨hslots, _, hhead⟩ := buffer_wf_iff.1 hs
  unfold tapWord
  rw [bufPush_buf_self, bufPush_cfg, pushed_read hslots, pushed_head]
  simp only [tapIndex_eq_head_iff hd (nextHead_lt _ _ _)]
  cases d with
  | zero => rfl
  | succ d =>
    rw [tapIndex_nextHead_succ hd hhead]
    rfl

theorem buffer_wf_bufPush {s : State} {b : BufId} (hs : (s.buf b).wf (capacity s.cfg b) = true) (w : Word) :
    ((bufPush b w s).buf b).wf (capacity (bufPush b w s).cfg b) = true := by
  simpa using pushed_wf hs w

@[simp] theorem pushAll_cfg (b : BufId) (s : State) (ws : List Word) : (pushAll b s ws).cfg = s.cfg := by
  induction ws generalizing s with
  | nil => rfl
  | cons w ws ih => exact (ih (bufPush b w s)).trans (bufPush_cfg s b w)

/-- The delay line from any legal buffer: the delays below the number of pushes give the pushed words, the newest first,
and the longer ones give what was tapped before the pushes. -/
theorem tapWord_pushAll {s : State} {b : BufId} (hs : (s.buf b).wf (capacity s.cfg b) = true) (ws : List Word) {d : Nat}
    (hd : d < tapLimit s.cfg b) :
    tapWord (pushAll b s ws) b d =
      if d < ws.length then ws.getD (ws.length - 1 - d) 0 else tapWord s b (d - ws.length) := by
  induction ws generalizing s with
  | nil => rfl
  | cons w ws ih =>
    have hrest := ih (buffer_wf_bufPush hs w) (by simpa using hd)
    rw [show pushAll b s (w :: ws) = pushAll b (bufPush b w s) ws from rfl, hrest,
      tapWord_bufPush hs w (by omega), List.length_cons]
    rcases lt_trichotomy d ws.length with hlt | rfl | hgt
    · rw [if_pos hlt, if_pos (by omega), show ws.length + 1 - 1 - d = (ws.length - 1 - d) + 1 by omega,
        List.getD_cons_succ]
    · simp
    · rw [if_neg (by omega), if_neg (by omega), if_neg (by omega), Nat.sub_sub]

theorem tapWord_of_empty {s : State} {b : BufId} (h : s.buf b = .empty) (d : Nat) : tapWord s b d = 0 := by
  rw [tapWord, h]
  rfl

/-! ### TAP -/

theorem exec_tap_of_lt {s : State} {b : BufId} {d : Nat} (hd : d < tapLimit s.cfg b) :
    exec (.tap b d) s = .next (s.setR 0 (tapWord s b d)) := by
  have htap : bufTap s b d = some (tapWord s b d) := bufTap_eq_some.2 ⟨hd, rfl⟩
  show execTap b d s = _
  rw [execTap, htap]

theorem exec_tap_of_le {s : State} {b : BufId} {d : Nat} (hd : tapLimit s.cfg b ≤ d) :
    exec (.tap b d) s = .next (raiseError .tapRange (encode (.tap b d)) s) := by
  show execTap b d s = _
  rw [execTap, bufTap_eq_none.2 hd]

/-- The value of a command word is the sum of its fields (30_encoding.md R110). -/
theorem commandWord_toNat (op : BitVec 8) (buf : BitVec 2) (delay : BitVec 16) :
    (commandWord op buf delay).toNat = op.toNat + buf.toNat * 2 ^ 8 + delay.toNat * 2 ^ 12 := by
  have hop := op.isLt
  have hbuf := buf.isLt
  simp only [commandWord, BitVec.toNat_append, BitVec.toNat_ofNat]
  rw [← Nat.shiftLeft_add_eq_or_of_lt (by omega), ← Nat.shiftLeft_add_eq_or_of_lt (by omega),
    ← Nat.shiftLeft_add_eq_or_of_lt (by omega), ← Nat.shiftLeft_add_eq_or_of_lt (by omega)]
  simp only [Nat.shiftLeft_eq]
  omega

theorem encode_tap (b : BufId) {d : Nat} (hd : d < 65536) :
    encode (.tap b d) = BitVec.ofNat 32 (0x11 + b.field.toNat * 2 ^ 8 + d * 2 ^ 12) := by
  have hvalue := commandWord_toNat 0x11 b.field (BitVec.ofNat 16 d)
  rw [BitVec.toNat_ofNat, Nat.mod_eq_of_lt hd] at hvalue
  calc
    encode (.tap b d) = BitVec.ofNat 32 (encode (.tap b d)).toNat := by rw [BitVec.ofNat_toNat, BitVec.setWidth_eq]
    _ = _ := congrArg (BitVec.ofNat 32) hvalue

/-! ### Frames -/

theorem bufferKept_of_eq {s t : State} {b : BufId} (h : t.buf b = s.buf b) : bufferKept s t b := by
  simp [bufferKept, h]

/-- A buffer replaced changes nothing else. -/
theorem setBuf_frame (s : State) (b : BufId) (v : Buffer) :
    sameHostSide s (s.setBuf b v) ∧ sameLatch s (s.setBuf b v) ∧ sameDc s (s.setBuf b v) ∧
      resultsKeptFrom 0 s (s.setBuf b v) ∧ ∀ b', b' ≠ b → bufferKept s (s.setBuf b v) b' := by
  refine ⟨?_, ?_, ?_, fun j _ => ?_, fun b' hb => bufferKept_of_eq (setBuf_buf_of_ne s v hb)⟩
  · simp [sameHostSide]
  · simp [sameLatch]
  · simp [sameDc]
  · rw [setBuf_r]

/-- R0 written changes nothing else. -/
theorem setR_zero_frame (s : State) (w : Word) :
    sameHostSide s (s.setR 0 w) ∧ sameLatch s (s.setR 0 w) ∧ sameDc s (s.setR 0 w) ∧
      resultsKeptFrom 1 s (s.setR 0 w) ∧ ∀ b, bufferKept s (s.setR 0 w) b := by
  refine ⟨?_, ?_, ?_, fun j hj => ?_, fun b => bufferKept_of_eq (setR_buf s 0 w b)⟩
  · simp [sameHostSide]
  · simp [sameLatch]
  · simp [sameDc]
  · show (s.setR 0 w).r[j.val] = s.r[j.val]
    rw [setR_r_get, if_neg (by simp; omega)]

/-- Raising an error latches it: the first one with its cause and word, a later one as an overflow alone. -/
theorem errorLatched_raiseError (s : State) (c : Cause) (w : Word) :
    errorLatched s (raiseError c w s) c.code w := by
  refine ⟨fun hfirst => ?_, fun hlater => ?_, statusAfterError_reserved _ _, rfl⟩
  · simp [statusAfterError, errcmdAfterError, hfirst]
  · simp [statusAfterError, errcmdAfterError, hlater]

end Sys2Proof.Machine
end

section
/-! PROOFS. The circular buffers: PUSH, TAP, BRST, and the delay-line law (20_memory.md R90 to R93; 43_ringbuffer.md
R211 to R213). -/

namespace Sys2Proof.Machine

/-- Settles O23: from an empty buffer, the delays beyond the pushes tap 0. -/
theorem delayLineReturnsThePushedWord : Obligations.DelayLineReturnsThePushedWord := by
  intro s b ws d hempty hlegal
  have hd : d < tapLimit s.cfg b := lt_tapLimit_iff.2 hlegal
  have hwf : (s.buf b).wf (capacity s.cfg b) = true := by
    rw [hempty]
    exact buffer_empty_wf (capacity_pos _ _)
  refine bufTap_eq_some.2 ⟨by rwa [pushAll_cfg], ?_⟩
  rw [tapWord_pushAll hwf ws hd, tapWord_of_empty hempty]

/-- Settles O19: canonical slots take the pushed word, and only one buffer is replaced. -/
theorem pushWritesOneSlot : Obligations.PushWritesOneSlot := by
  intro s b hslots
  refine ⟨bufPush b s.a[0] s, rfl, ?_, setBuf_frame s b _⟩
  rw [bufPush_buf_self]
  exact slotPushed_pushed hslots s.cfg b s.a[0]

/-- Settles O20: a legal tap writes R0 alone, with the word of the slot that `tapIndex` names. -/
theorem tapReadsTheDelayedSlot : Obligations.TapReadsTheDelayedSlot := by
  intro s b d hlegal
  have hd : d < tapLimit s.cfg b := lt_tapLimit_iff.2 hlegal
  refine ⟨_, exec_tap_of_lt hd, ?_, setR_zero_frame s _⟩
  exact setR_r_get s 0 _ 0 (by decide)

/-- Settles O21: the delay is not below the limit, so TAP raises its error. -/
theorem tapOutOfRangeLatchesTapRange : Obligations.TapOutOfRangeLatchesTapRange := by
  intro s b d hfits hillegal
  have hd : tapLimit s.cfg b ≤ d := tapLimit_le_iff.2 hillegal
  refine ⟨_, exec_tap_of_le hd, ?_⟩
  rw [encode_tap b hfits]
  exact errorLatched_raiseError s .tapRange _

/-- Settles O22: the empty buffer reads 0 in every slot. -/
theorem brstResetsOneBuffer : Obligations.BrstResetsOneBuffer := by
  intro s b
  refine ⟨bufReset b s, rfl, ?_, fun i => ?_, setBuf_frame s b _⟩
  · rw [bufReset_buf_self]
    rfl
  · rw [bufReset_buf_self]
    rfl

end Sys2Proof.Machine
end

section
/-! PROOFS. What the host may issue: accesses that are not admitted or lie outside the window, and runs of admitted ones
(20_memory.md R81, R84; 60_exceptions.md R284, R297). -/

namespace Sys2Proof.Machine

/-! ### Accesses that reach no register -/

theorem perform_of_not_admitted {s : State} {size : Size} {addr : Nat} (ht : touchesWindow s.cfg size addr = true)
    (ha : admittedAccess s.cfg size addr = false) (w : Word) :
    perform (.read size addr) s = .refused .accessNotAdmitted ∧
      perform (.write size addr w) s = .refused .accessNotAdmitted := by
  simp [perform, ht, ha]

theorem perform_outside {s : State} {size : Size} {addr : Nat} (h : touchesWindow s.cfg size addr = false) (w : Word) :
    perform (.read size addr) s = .next s ∧ perform (.write size addr w) s = .next s := by
  simp [perform, h]

/-- An admitted access is aligned, since BASE is (00_scope.md R24). -/
theorem aligned_of_admittedAccess {c : Config} {size : Size} {addr : Nat} (hc : c.admitted = true)
    (h : admittedAccess c size addr = true) : size = .word ∧ addr % 4 = 0 := by
  obtain ⟨_, _, _, _, hbase⟩ := admitted_iff.1 hc
  obtain ⟨hsize, off, rfl, _, hoff⟩ := admittedAccess_iff.1 h
  exact ⟨hsize, by omega⟩

/-- Settles O10: an access that touches the window and is not a 32-bit aligned one is not admitted. -/
theorem unadmittedAccessIsRefused : Obligations.UnadmittedAccessIsRefused := by
  intro s size addr w rest hc hlow hhigh hbad hi
  have htouches : touchesWindow s.cfg size addr = true := touchesWindow_iff.2 ⟨hlow, hhigh⟩
  have hnot : admittedAccess s.cfg size addr = false := Bool.eq_false_iff.2 fun ha => by
    obtain ⟨hsize, haligned⟩ := aligned_of_admittedAccess hc ha
    exact hbad.elim (· hsize) (· haligned)
  obtain ⟨hread, hwrite⟩ := perform_of_not_admitted (s := takeInput rest s) htouches hnot w
  rcases hi with hi | hi
  · exact (step_cons hc hi).trans hread
  · exact (step_cons hc hi).trans hwrite

/-- Settles O11: the input is taken, and the block performs nothing. -/
theorem outsideAccessChangesNothing : Obligations.OutsideAccessChangesNothing := by
  intro s size addr w rest hc hout hi
  have houtside : touchesWindow s.cfg size addr = false := Bool.eq_false_iff.2 fun ht => by
    obtain ⟨hlow, hhigh⟩ := touchesWindow_iff.1 ht
    omega
  obtain ⟨hread, hwrite⟩ := perform_outside (s := takeInput rest s) houtside w
  rcases hi with hi | hi
  · exact (step_cons hc hi).trans hread
  · exact (step_cons hc hi).trans hwrite

/-! ### Runs of admitted inputs -/

/-- A command word completes, and leaves the configuration and the later inputs alone. -/
theorem runCommand_completes (w : Word) (s : State) :
    ∃ t, runCommand w s = .next t ∧ t.cfg = s.cfg ∧ t.inputs = s.inputs := by
  unfold runCommand
  split
  · next i _ =>
    obtain ⟨t, hexec, hperforms⟩ := exec_completes i s
    obtain ⟨hcfg, _, _, _, hinputs, _⟩ := sameHostSide_of_performs hperforms
    exact ⟨t, hexec, hcfg, hinputs⟩
  · exact ⟨_, rfl, rfl, rfl⟩

theorem writeReg_completes (reg : Reg) (w : Word) (s : State) :
    ∃ t, writeReg reg w s = .next t ∧ t.cfg = s.cfg ∧ t.inputs = s.inputs := by
  unfold writeReg
  split
  · exact runCommand_completes w s
  · exact ⟨_, rfl, regWrite_cfg s w reg, by rw [regWrite_frame]⟩

/-- An access a host may issue lies outside the window or reaches a register (20_memory.md R81, R84). -/
theorem outside_or_register {c : Config} {size : Size} {addr : Nat}
    (h : (!touchesWindow c size addr || admittedAccess c size addr) = true) :
    touchesWindow c size addr = false ∨ size = .word ∧ ∃ off, addr = c.base + off ∧ off ≤ 0xFC ∧ off % 4 = 0 := by
  rw [← admittedAccess_iff]
  simpa using h

theorem perform_completes {inp : Input} {s : State} (h : inputAdmitted s.cfg inp = true) :
    ∃ t, perform inp s = .next t ∧ t.cfg = s.cfg ∧ t.inputs = s.inputs := by
  cases inp with
  | reset => exact ⟨_, rfl, rfl, rfl⟩
  | read size addr =>
    rcases outside_or_register h with hout | ⟨rfl, off, rfl, hle, h4⟩
    · exact ⟨s, (perform_outside hout 0).1, rfl, rfl⟩
    · exact ⟨_, perform_read h4 hle, rfl, rfl⟩
  | write size addr w =>
    rcases outside_or_register h with hout | ⟨rfl, off, rfl, hle, h4⟩
    · exact ⟨s, (perform_outside hout w).2, rfl, rfl⟩
    · rw [perform_write h4 hle]
      exact writeReg_completes _ w s

/-- A step with admitted inputs completes, and what the host has still to do is the rest of them. -/
theorem step_completes {s : State} (hc : s.cfg.admitted = true)
    (hi : ∀ inp ∈ s.inputs, inputAdmitted s.cfg inp = true) :
    ∃ t, step s = .next t ∧ t.cfg = s.cfg ∧ t.inputs = s.inputs.tail := by
  cases hinputs : s.inputs with
  | nil => exact ⟨s, step_nil hc hinputs, rfl, hinputs⟩
  | cons inp rest =>
    rw [step_cons hc hinputs]
    exact perform_completes (s := takeInput rest s) (hi inp (by simp [hinputs]))

theorem run_succ {M : Host.Core} {s t : M.State} (h : M.step s = .next t) (k : Nat) : M.run (k + 1) s = M.run k t := by
  rw [Host.Core.run, h]

/-- Settles O60: each step keeps the configuration and leaves admitted inputs, so the next one completes too. -/
theorem admittedHostIsNeverStopped : Obligations.AdmittedHostIsNeverStopped := by
  intro s k hc hi
  induction k generalizing s with
  | zero => exact ⟨s, rfl⟩
  | succ k ih =>
    obtain ⟨t, hstep, hcfg, hinputs⟩ := step_completes hc hi
    rw [run_succ (M := Sys2Proof.core) hstep]
    refine ih t (hcfg ▸ hc) fun inp hinp => ?_
    rw [hcfg]
    rw [hinputs] at hinp
    exact hi inp (List.mem_of_mem_tail hinp)

end Sys2Proof.Machine
end

section
/-! SUPPORT. The words a row of the opcode map accepts, by the value of the word; and the row of each command
(30_encoding.md R110 to R114). -/

namespace Sys2Proof

/-! ### A word and its five fields -/

/-- The format of 30_encoding.md R110 with Z2 and Z1 free, most significant field first. -/
def fieldsWord (z2 : BitVec 4) (delay : BitVec 16) (z1 buf : BitVec 2) (op : BitVec 8) : Word :=
  z2 ++ delay ++ z1 ++ buf ++ op

theorem fieldsWord_toNat (z2 : BitVec 4) (delay : BitVec 16) (z1 buf : BitVec 2) (op : BitVec 8) :
    (fieldsWord z2 delay z1 buf op).toNat =
      op.toNat + buf.toNat * 2 ^ 8 + z1.toNat * 2 ^ 10 + delay.toNat * 2 ^ 12 + z2.toNat * 2 ^ 28 := by
  have hop := op.isLt
  have hbuf := buf.isLt
  simp only [fieldsWord, BitVec.toNat_append]
  rw [← Nat.shiftLeft_add_eq_or_of_lt delay.isLt, ← Nat.shiftLeft_add_eq_or_of_lt z1.isLt,
    ← Nat.shiftLeft_add_eq_or_of_lt hbuf, ← Nat.shiftLeft_add_eq_or_of_lt hop]
  simp only [Nat.shiftLeft_eq]
  omega

theorem fieldsWord_and (z2 z2' : BitVec 4) (delay delay' : BitVec 16) (z1 z1' buf buf' : BitVec 2) (op op' : BitVec 8) :
    fieldsWord z2 delay z1 buf op &&& fieldsWord z2' delay' z1' buf' op' =
      fieldsWord (z2 &&& z2') (delay &&& delay') (z1 &&& z1') (buf &&& buf') (op &&& op') := by
  show (z2 ++ delay ++ z1 ++ buf ++ op : BitVec (4 + 16 + 2 + 2 + 8)) &&& (z2' ++ delay' ++ z1' ++ buf' ++ op') = _
  simp only [BitVec.and_append]
  rfl

/-- Every word is made of its five fields. -/
theorem word_eq_fieldsWord (w : Word) :
    w = fieldsWord (w.extractLsb' 28 4) (w.extractLsb' 12 16) (w.extractLsb' 10 2) (bufField w) (opField w) := by
  have hw := w.isLt
  rw [BitVec.toNat_eq, fieldsWord_toNat]
  simp only [bufField, opField, BitVec.extractLsb'_toNat, Nat.shiftRight_eq_div_pow]
  omega

/-! ### The masks of the field classes -/

theorem mask_eq_fieldsWord (c : FieldClass) :
    c.mask = fieldsWord (BitVec.allOnes 4) (if c = .bd then 0 else BitVec.allOnes 16) (BitVec.allOnes 2)
      (if c = .n then BitVec.allOnes 2 else 0) (BitVec.allOnes 8) := by
  cases c <;> rfl

/-- Under the mask, the fields of the class are cleared and the others stay (30_encoding.md R112). -/
theorem and_mask (w : Word) (c : FieldClass) :
    w &&& c.mask = fieldsWord (w.extractLsb' 28 4) (if c = .bd then 0 else w.extractLsb' 12 16) (w.extractLsb' 10 2)
      (if c = .n then bufField w else 0) (opField w) := by
  conv_lhs => rw [word_eq_fieldsWord w, mask_eq_fieldsWord, fieldsWord_and]
  cases c <;> simp only [reduceCtorEq, if_true, if_false, BitVec.and_allOnes, BitVec.ofNat_eq_ofNat, BitVec.and_zero]

/-- The fields a class does not use are 0 in the word of value `v` (30_encoding.md R112). -/
def FieldClass.UnusedZero : FieldClass → Nat → Prop
  | .n, v => v / 2 ^ 8 = 0
  | .b, v => v / 2 ^ 10 = 0
  | .bd, v => v / 2 ^ 28 = 0 ∧ v / 2 ^ 10 % 4 = 0

/-- A row accepts the words of its OP whose unused fields are 0 (30_encoding.md R112). -/
theorem accepts_iff {r : OpRow} {w : Word} :
    r.accepts w = true ↔ w.toNat % 256 = r.op.toNat ∧ r.cls.UnusedZero w.toNat := by
  obtain ⟨op, cls, build⟩ := r
  have hw := w.isLt
  have hop := op.isLt
  have hmatch : (op.setWidth 32).toNat = op.toNat := by
    rw [BitVec.toNat_setWidth]
    omega
  rw [OpRow.accepts, OpRow.matchWord, beq_iff_eq, BitVec.toNat_eq, and_mask, hmatch,
    fieldsWord_toNat]
  simp only [bufField, opField, apply_ite BitVec.toNat, BitVec.extractLsb'_toNat, Nat.shiftRight_eq_div_pow]
  cases cls <;> simp [FieldClass.UnusedZero] <;> omega

/-! ### Each command's own row -/

/-- The command with the given fields, where its class uses them (30_encoding.md R113). -/
def Instr.withFields : Instr → BufId → Nat → Instr
  | .push _, b, _ => .push b
  | .tap _ _, b, delay => .tap b delay
  | .brst _, b, _ => .brst b
  | i, _, _ => i

/-- The row of a command (30_encoding.md R113). -/
def Instr.row (i : Instr) : OpRow := ⟨i.op, i.fieldClass, i.withFields⟩

/-- The opcode map, each row as that of its command. -/
theorem opRows_eq_map_row :
    opRows = List.map Instr.row
      [.nop, .rst, .init, .clrerr, .push .upX2, .tap .upX2 0, .brst .upX2, .up2x, .up4x, .dn4x, .dn2x, .os4, .clip,
        .clip4, .powE, .powF, .powFR, .powFT, .pow4E, .pow4F, .pow4FR, .pow4FT, .dcb] := rfl

/-- The rows of the opcode map are those of the commands: the values of the fields do not matter. -/
theorem mem_opRows_iff {r : OpRow} : r ∈ opRows ↔ ∃ i : Instr, i.row = r := by
  constructor
  · intro h
    obtain ⟨i, _, hi⟩ := List.mem_map.1 (opRows_eq_map_row ▸ h)
    exact ⟨i, hi⟩
  · rintro ⟨i, rfl⟩
    have hsame : i.row = (i.withFields .upX2 0).row := by cases i <;> rfl
    rw [opRows_eq_map_row, hsame]
    refine List.mem_map_of_mem ?_
    cases i <;> simp [Instr.withFields]

@[simp] theorem withFields_op (i : Instr) (b : BufId) (delay : Nat) : (i.withFields b delay).op = i.op := by
  cases i <;> rfl

@[simp] theorem withFields_fieldClass (i : Instr) (b : BufId) (delay : Nat) :
    (i.withFields b delay).fieldClass = i.fieldClass := by
  cases i <;> rfl

theorem withFields_wellFormed (i : Instr) (b : BufId) {delay : Nat} (h : delay < 65536) :
    (i.withFields b delay).wellFormed = true := by
  cases i <;> simp [Instr.withFields, Instr.wellFormed, h]

theorem withFields_bits (i : Instr) (b : BufId) (delay : Nat) :
    (i.withFields b delay).bufBits = (if i.fieldClass = .n then 0 else b.field) ∧
      (i.withFields b delay).delayBits = (if i.fieldClass = .bd then BitVec.ofNat 16 delay else 0) := by
  cases i <;> exact ⟨rfl, rfl⟩

/-- A command is made again from its own fields: a well-formed DELAY fits its 16 bits. -/
theorem withFields_own {i : Instr} (h : i.wellFormed = true) :
    i.withFields (.ofField i.bufBits) i.delayBits.toNat = i := by
  cases i with
  | push b => exact congrArg _ (bufId_ofField_field b)
  | brst b => exact congrArg _ (bufId_ofField_field b)
  | tap b delay => simpa [Instr.withFields, Instr.bufBits, Instr.delayBits, Instr.wellFormed] using h
  | _ => rfl

@[simp] theorem bufId_field_ofField : ∀ f : BitVec 2, (BufId.ofField f).field = f := by decide

theorem encode_toNat (i : Instr) :
    (encode i).toNat = i.op.toNat + i.bufBits.toNat * 2 ^ 8 + i.delayBits.toNat * 2 ^ 12 :=
  Machine.commandWord_toNat _ _ _

/-- The fields that the class of a command does not use are 0. -/
theorem unusedBits_zero (i : Instr) :
    (i.fieldClass = .n → i.bufBits = 0) ∧ (i.fieldClass ≠ .bd → i.delayBits = 0) := by
  cases i <;> simp [Instr.fieldClass, Instr.bufBits, Instr.delayBits]

theorem row_accepts_encode (i : Instr) : i.row.accepts (encode i) = true := by
  obtain ⟨hbuf, hdelay⟩ := unusedBits_zero i
  have hop := i.op.isLt
  have := i.bufBits.isLt
  have := i.delayBits.isLt
  rw [accepts_iff, encode_toNat]
  show _ % 256 = i.op.toNat ∧ i.fieldClass.UnusedZero _
  cases hc : i.fieldClass with
  | n => simp [FieldClass.UnusedZero, hbuf hc, hdelay (by simp [hc])]; omega
  | b => simp [FieldClass.UnusedZero, hdelay (by simp [hc])]; omega
  | bd => simp only [FieldClass.UnusedZero]; omega

end Sys2Proof
end

section
/-! PROOFS. Decoding: the one row that accepts a word, decode and encode as inverses, and the ILLEGAL words
(30_encoding.md R110 to R117). -/

namespace Sys2Proof.Machine

/-! ### The row that accepts a word -/

theorem opRows_op_nodup : (opRows.map OpRow.op).Nodup := by decide

/-- The rows have different OPs, so no word is accepted by two. -/
theorem acceptingRow_unique {r r' : OpRow} {w : Word} (hr : r ∈ opRows) (hr' : r' ∈ opRows)
    (h : r.accepts w = true) (h' : r'.accepts w = true) : r = r' := by
  have hop : r.op = r'.op := BitVec.eq_of_toNat_eq ((accepts_iff.1 h).1.symm.trans (accepts_iff.1 h').1)
  exact List.inj_on_of_nodup_map opRows_op_nodup hr hr' hop

theorem decode_of_accepts {r : OpRow} {w : Word} (hr : r ∈ opRows) (h : r.accepts w = true) :
    decode w = .ok (r.build (.ofField (bufField w)) (delayField w)) := by
  obtain ⟨r', hfind⟩ := Option.isSome_iff_exists.1 ((List.find?_isSome (p := fun r => r.accepts w)).2 ⟨r, hr, h⟩)
  have hfound := List.find?_some hfind
  have hsame : r' = r := acceptingRow_unique (List.mem_of_find?_eq_some hfind) hr hfound h
  rw [decode, hfind, hsame]

theorem decode_of_not_accepts {w : Word} (h : ∀ r ∈ opRows, ¬ r.accepts w = true) : ∃ e, decode w = .error e := by
  rw [decode, List.find?_eq_none.2 h]
  exact ⟨_, rfl⟩

theorem decode_error_iff {w : Word} : (∃ e, decode w = .error e) ↔ ¬ ∃ r ∈ opRows, r.accepts w = true := by
  constructor
  · rintro ⟨e, he⟩ ⟨r, hr, h⟩
    rw [decode_of_accepts hr h] at he
    cases he
  · exact fun h => decode_of_not_accepts fun r hr ha => h ⟨r, hr, ha⟩

/-- A word that decodes to a command is accepted by a command's row, which makes the decoded command from its fields. -/
theorem exists_row_of_decode {w : Word} {i : Instr} (h : decode w = .ok i) :
    ∃ j : Instr, j.row.accepts w = true ∧ i = j.withFields (.ofField (bufField w)) (delayField w) := by
  by_cases hrow : ∃ r ∈ opRows, r.accepts w = true
  · obtain ⟨r, hr, hw⟩ := hrow
    obtain ⟨j, rfl⟩ := mem_opRows_iff.1 hr
    exact ⟨j, hw, Except.ok.inj (h.symm.trans (decode_of_accepts hr hw))⟩
  · obtain ⟨e, he⟩ := decode_error_iff.2 hrow
    rw [he] at h
    cases h

/-! ### Decode and encode -/

/-- Settles O1: the command's own row accepts its word, whose fields are those of the command. -/
theorem decodeOfEncodeIsTheCommand : Obligations.DecodeOfEncodeIsTheCommand := by
  intro i hi
  calc
    decode (encode i) = .ok (i.withFields (.ofField (bufField (encode i))) (delayField (encode i))) :=
      decode_of_accepts (mem_opRows_iff.2 ⟨i, rfl⟩) (row_accepts_encode i)
    _ = .ok (i.withFields (.ofField i.bufBits) i.delayBits.toNat) := by simp [encode]
    _ = .ok i := by rw [withFields_own hi]

/-- An accepted word is the word of its OP and of the fields its class uses. -/
theorem encode_withFields_of_accepts {i : Instr} {w : Word} (h : i.row.accepts w = true) :
    encode (i.withFields (.ofField (bufField w)) (delayField w)) = w := by
  obtain ⟨hop, hunused⟩ : w.toNat % 256 = i.op.toNat ∧ i.fieldClass.UnusedZero w.toNat := accepts_iff.1 h
  obtain ⟨hbuf, hdelay⟩ := withFields_bits i (.ofField (bufField w)) (delayField w)
  have hw := w.isLt
  rw [BitVec.toNat_eq, encode_toNat, hbuf, hdelay, withFields_op, bufId_field_ofField, ← hop]
  simp only [bufField, delayField, apply_ite BitVec.toNat, BitVec.extractLsb'_toNat, BitVec.toNat_ofNat,
    Nat.shiftRight_eq_div_pow]
  cases hc : i.fieldClass <;> simp [hc, FieldClass.UnusedZero] at hunused ⊢ <;> omega

/-- Settles O2: the decoded DELAY has 16 bits, and the accepted word is that of the fields. -/
theorem encodeOfDecodeIsTheWord : Obligations.EncodeOfDecodeIsTheWord := by
  intro w i h
  obtain ⟨j, hrow, rfl⟩ := exists_row_of_decode h
  exact ⟨withFields_wellFormed j _ (BitVec.isLt _), encode_withFields_of_accepts hrow⟩

/-- The accepting rows are distinct and all the same row, so there is at most one. -/
theorem acceptingRows_length_le_one (w : Word) : (opRows.filter (fun r => r.accepts w)).length ≤ 1 := by
  have hnodup : (opRows.filter (fun r => r.accepts w)).Nodup := .filter _ (.of_map OpRow.op opRows_op_nodup)
  cases hfilter : opRows.filter (fun r => r.accepts w) with
  | nil => simp
  | cons r rest =>
    obtain ⟨hr, hrw⟩ := List.mem_filter.1 (hfilter ▸ List.mem_cons_self)
    have hsame : ∀ r' ∈ opRows.filter (fun r => r.accepts w), r' = r := fun r' hmem => by
      obtain ⟨hr', hrw'⟩ := List.mem_filter.1 hmem
      exact acceptingRow_unique hr' hr hrw' hrw
    rw [List.eq_replicate_of_mem hsame, List.nodup_replicate, hfilter] at hnodup
    exact hnodup

/-- Settles O3: `decode` finds the accepting row, since no other accepts the word. -/
theorem decodeIsTheUniqueAcceptingRow : Obligations.DecodeIsTheUniqueAcceptingRow := fun w =>
  ⟨fun _ hr h => decode_of_accepts hr (beq_iff_eq.2 h),
    fun h => decode_of_not_accepts fun r hr ha => h r hr (beq_iff_eq.1 ha), acceptingRows_length_le_one w⟩

/-! ### The ILLEGAL words -/

/-- The OPs of a class, in the order of the opcode map (30_encoding.md R113). -/
def opsOfClass (c : FieldClass) : List Nat :=
  (opRows.filter (fun r => decide (r.cls = c))).map (fun r => r.op.toNat)

/-- A row accepts a word exactly when its OP is one of a class whose unused fields are 0 in it. -/
theorem exists_accepts_iff {w : Word} :
    (∃ r ∈ opRows, r.accepts w = true) ↔ ∃ c, w.toNat % 256 ∈ opsOfClass c ∧ c.UnusedZero w.toNat := by
  simp only [opsOfClass, List.mem_map, List.mem_filter, decide_eq_true_eq, accepts_iff]
  constructor
  · rintro ⟨r, hr, hop, hzero⟩
    exact ⟨r.cls, ⟨r, ⟨hr, rfl⟩, hop.symm⟩, hzero⟩
  · rintro ⟨c, ⟨r, ⟨hr, rfl⟩, hop⟩, hzero⟩
    exact ⟨r, hr, hop.symm, hzero⟩

theorem exists_fieldClass_iff {p : FieldClass → Prop} : (∃ c, p c) ↔ p .n ∨ p .b ∨ p .bd := by
  constructor
  · rintro ⟨c, hc⟩
    cases c with
    | n => exact .inl hc
    | b => exact .inr (.inl hc)
    | bd => exact .inr (.inr hc)
  · rintro (h | h | h) <;> exact ⟨_, h⟩

/-- Settles O4: the legal words class by class; an ILLEGAL one raises ILLEGAL_CMD. -/
theorem illegalWordsLatchIllegalCmd : Obligations.IllegalWordsLatchIllegalCmd := by
  refine fun w => ⟨?_, ?_⟩
  · rw [decode_error_iff, exists_accepts_iff, exists_fieldClass_iff]
    have hbd : w.toNat % 256 ∈ opsOfClass .bd ↔ w.toNat % 256 = 0x11 := List.mem_singleton
    rw [hbd]
    rfl
  · rintro ⟨e, he⟩ s
    refine ⟨raiseError .illegalCmd w s, ?_, errorLatched_raiseError s .illegalCmd w⟩
    rw [runCommand, he]

/-! ### The words of the test vectors -/

theorem decode_of_encode_eq {i : Instr} {w : Word} (hi : i.wellFormed = true) (hw : encode i = w) : decode w = .ok i :=
  hw ▸ decodeOfEncodeIsTheCommand i hi

/-- Settles O5: the legal words are those of their commands (O1), and no row accepts the other three. -/
theorem specWordsDecode : Obligations.SpecWordsDecode :=
  ⟨decode_of_encode_eq rfl rfl, decode_of_encode_eq rfl rfl, decode_of_encode_eq rfl rfl,
    decode_of_encode_eq rfl rfl, decode_of_encode_eq rfl rfl, decode_of_encode_eq rfl rfl,
    decode_of_encode_eq rfl rfl, decode_of_encode_eq rfl rfl, decode_of_encode_eq rfl rfl,
    decode_of_encode_eq rfl rfl, by decide, by decide, by decide⟩

end Sys2Proof.Machine
end

section
/-! SUPPORT. What the primitives that the shaper composes do to the kind and the sign of a pattern, and where they are
exact (00_scope.md R11, R14, R16, R17). -/

namespace Sys2Proof.Machine

/-! ### Patterns and comparisons -/

/-- A nonzero pattern is known by its place in the order; the two zeros share theirs. -/
theorem eq_of_orderKey_eq {a b : Word} (h : orderKey a = orderKey b) (h0 : isZero b = false) : a = b := by
  have hb0 : magOf b ≠ 0 := of_decide_eq_false h0
  have hparts : signOf a = signOf b ∧ magOf a = magOf b := by
    revert h
    simp only [orderKey]
    cases signOf a <;> cases signOf b <;> simp <;> omega
  rw [← withSign_signOf_magOf a, ← withSign_signOf_magOf b, hparts.1, hparts.2]

theorem flt_eq_decide {a b : Word} (ha : isNaN a = false) (hb : isNaN b = false) :
    flt a b = decide (orderKey a < orderKey b) := by
  simp [flt, ha, hb]

theorem signOf_fabs (w : Word) : signOf (fabs w) = false := by
  rw [signOf, fabs, BitVec.msb_and, show (0x7FFFFFFF : Word).msb = false by decide, Bool.and_false]

theorem signOf_canonicalNaN : signOf canonicalNaN = false := by decide

theorem signOf_withSign_of_le {neg : Bool} {m : Nat} (h : m ≤ infMag) : signOf (withSign neg m) = neg :=
  signOf_withSign (h.trans_lt (by decide))

theorem isZero_withSign_zero (neg : Bool) : isZero (withSign neg 0) = true := by cases neg <;> decide

/-! ### Clamps -/

theorem fclamp_of_isNaN {v : Word} (hv : isNaN v = true) (lo hi : Word) : fclamp v lo hi = canonicalNaN := by
  simp [fclamp, hv]

/-- The two comparisons of a clamp, on the order of the patterns. -/
theorem fclamp_eq_ite {v lo hi : Word} (hv : isNaN v = false) (hlo : isNaN lo = false) (hhi : isNaN hi = false) :
    fclamp v lo hi =
      if orderKey v < orderKey lo then lo else if orderKey hi < orderKey v then hi else v := by
  simp [fclamp, fgt, flt_eq_decide, hv, hlo, hhi]

/-- A clamp to a range around 0 keeps what is no NaN, the zeros and the sign. -/
theorem fclamp_keeps {v lo hi : Word} (hlo : flt lo 0 = true) (hhi : fgt hi 0 = true) (hv : isNaN v = false) :
    isNaN (fclamp v lo hi) = false ∧ isZero (fclamp v lo hi) = isZero v ∧
      signOf (fclamp v lo hi) = signOf v := by
  obtain ⟨hnlo, hzlo, hslo⟩ := flt_zero_iff.1 hlo
  obtain ⟨hnhi, hzhi, hshi⟩ := fgt_zero_iff.1 hhi
  have hneg := orderKey_neg_iff.2 ⟨hzlo, hslo⟩
  have hpos := orderKey_pos_iff.2 ⟨hzhi, hshi⟩
  rw [fclamp_eq_ite hv hnlo hnhi]
  split_ifs with hbelow habove
  · obtain ⟨hzv, hsv⟩ := orderKey_neg_iff.1 (hbelow.trans hneg)
    exact ⟨hnlo, hzlo.trans hzv.symm, hslo.trans hsv.symm⟩
  · obtain ⟨hzv, hsv⟩ := orderKey_pos_iff.1 (hpos.trans habove)
    exact ⟨hnhi, hzhi.trans hzv.symm, hshi.trans hsv.symm⟩
  · exact ⟨hv, rfl, rfl⟩

theorem isFinite_iff_orderKey {w : Word} :
    isFinite w = true ↔ -(infMag : Int) < orderKey w ∧ orderKey w < infMag := by
  simp only [isFinite, orderKey, decide_eq_true_eq]
  split <;> omega

/-- What is no NaN is finite after a clamp to a finite range. -/
theorem isFinite_fclamp {v lo hi : Word} (hlo : isFinite lo = true) (hhi : isFinite hi = true) (hv : isNaN v = false) :
    isFinite (fclamp v lo hi) = true := by
  rw [fclamp_eq_ite hv (not_nan_inf_of_isFinite hlo).1 (not_nan_inf_of_isFinite hhi).1]
  split_ifs
  · exact hlo
  · exact hhi
  · rw [isFinite_iff_orderKey] at *
    omega

/-! ### Sums, products and quotients -/

/-- A sum of two values without a sign has none, the canonical NaN included. -/
theorem signOf_fadd_of_nonneg {a b : Word} (ha : signOf a = false) (hb : signOf b = false) :
    signOf (fadd a b) = false := by
  have hsum : ¬ signedUnits a + signedUnits b < 0 := by simp [signedUnits, ha, hb]; omega
  unfold fadd
  simp only [ha, hb, bne_self_eq_false, Bool.and_false, Bool.and_self, Bool.false_eq_true, if_false]
  split_ifs
  · exact signOf_canonicalNaN
  · exact ha
  · exact hb
  · exact signOf_withSign_of_le (Nat.zero_le _)
  · rw [roundSigned, signOf_withSign_of_le (roundMag_le _ _)]
    exact decide_eq_false hsum

/-- A NaN that an operation produced passes through a sum. -/
theorem fadd_of_canonicalNaN {a b : Word} (h : a = canonicalNaN ∨ b = canonicalNaN) : fadd a b = canonicalNaN := by
  rcases h with rfl | rfl
  · exact fadd_of_isNaN (.inl isNaN_canonicalNaN)
  · exact fadd_of_isNaN (.inr isNaN_canonicalNaN)

/-- A quotient is a NaN or has the product of the signs. -/
theorem isNaN_or_signOf_fdiv (a b : Word) :
    isNaN (fdiv a b) = true ∨ signOf (fdiv a b) = (signOf a != signOf b) := by
  unfold fdiv
  dsimp only
  split_ifs
  · exact .inl isNaN_canonicalNaN
  · exact .inl isNaN_canonicalNaN
  · exact .inr (signOf_withSign_of_le le_rfl)
  · exact .inr (signOf_withSign_of_le (Nat.zero_le _))
  · exact .inr (signOf_withSign_of_le (roundMag_le _ _))

theorem fmul_infinity {a b : Word} (ha : isNaN a = false) (ha0 : isZero a = false) (hb : isInf b = true) :
    fmul a b = withSign (signOf a != signOf b) infMag := by
  simp [fmul, not_nan_zero_of_isInf hb, ha, ha0, hb]

theorem isZero_fmul_of_isZero {a b : Word} (ha : isFinite a = true) (hb : isZero b = true) :
    isZero (fmul a b) = true := by
  rw [fmul_of_isFinite ha (isFinite_of_isZero hb), unitsOf_eq_zero_iff.2 hb, Nat.mul_zero, roundMag_zero]
  exact isZero_withSign_zero _

/-! ### Exact results -/

/-- The value of a pattern lies strictly between the midpoints beside it, so no other pattern is nearest to it. -/
theorem eq_of_nearestUnbounded {N d m g : Nat} (hd : 0 < d) (hN : N = unitsOfMag m * d)
    (h : NearestUnbounded N d g) : g = m := by
  obtain ⟨hlow, hhigh⟩ := h
  have hN2 : 2 * N = 2 * unitsOfMag m * d := by rw [hN, Nat.mul_assoc]
  rw [hN2] at hlow hhigh
  rcases lt_trichotomy g m with hlt | heq | hgt
  · have hmid : 2 * unitsOfMag m ≤ midpointAbove g := Nat.le_of_mul_le_mul_right (by omega) hd
    have hnext := unitsOfMag_strictMono.monotone (show g + 1 ≤ m from hlt)
    have := midpointAbove_between g
    omega
  · exact heq
  · obtain ⟨k, rfl⟩ : ∃ k, g = k + 1 := ⟨g - 1, by omega⟩
    have hmid : midpointAbove k ≤ 2 * unitsOfMag m :=
      Nat.le_of_mul_le_mul_right (by have := hlow k rfl; omega) hd
    have hprev := unitsOfMag_strictMono.monotone (show m ≤ k by omega)
    have := midpointAbove_between k
    omega

/-- A rational that a pattern holds exactly rounds to that pattern. -/
theorem roundMag_exact {n d m : Nat} (hd : 0 < d) (hm : m ≤ infMag) (h : n * 2 ^ 149 = unitsOfMag m * d) :
    roundMag n d = m := by
  obtain ⟨hN, hs⟩ := spacing_spec n hd
  rw [roundMag, eq_of_nearestUnbounded hd h (nearestUnbounded_of_spacing hd hN hs)]
  exact min_eq_left hm

theorem magOf_le_of_isFinite {w : Word} (h : isFinite w = true) : magOf w ≤ infMag := (of_decide_eq_true h).le

theorem fmul_fone {w : Word} (h : isFinite w = true) : fmul w fone = w := by
  have hone : unitsOf fone = 2 ^ 149 := by decide
  have hround : roundMag (unitsOf w * 2 ^ 149) (2 ^ 298) = magOf w :=
    roundMag_exact (by positivity) (magOf_le_of_isFinite h)
      (by rw [show 298 = 149 + 149 from rfl, Nat.pow_add, Nat.mul_assoc, unitsOf])
  rw [fmul_of_isFinite h (by decide), hone, hround, show signOf fone = false by decide, Bool.bne_false,
    withSign_signOf_magOf]

/-- A zero added to a nonzero finite value gives that value, bit for bit. -/
theorem fadd_of_isZero {z w : Word} (hz : isZero z = true) (hw : isFinite w = true) (hw0 : isZero w = false) :
    fadd z w = w := by
  have hzu : signedUnits z = 0 := by simp [signedUnits, unitsOf_eq_zero_iff.2 hz]
  have hpos := unitsOf_pos hw0
  have hround : roundMag (unitsOf w) (2 ^ 149) = magOf w :=
    roundMag_exact (by positivity) (magOf_le_of_isFinite hw) rfl
  obtain ⟨neg, heq, hneg⟩ := fadd_of_isFinite (isFinite_of_isZero hz) hw
  have hsign : neg = signOf w := by
    rw [hneg, hzu, zero_add, signedUnits]
    · cases signOf w
      · simp
      · simpa using hpos
    · rw [hzu, zero_add, signedUnits]
      split <;> omega
  rw [heq, hzu, zero_add, natAbs_signedUnits, hround, hsign, withSign_signOf_magOf]

/-! ### Signs of powers -/

theorem nearestMag_le (cmp : Nat → Ordering) (p : Nat) : nearestMag cmp p ≤ infMag := by
  have h := isNearest_nearestMag cmp p
  simp only [isNearest, Bool.and_eq_true, decide_eq_true_eq] at h
  exact h.1.1

theorem signOf_crPowMain (x y : Word) : signOf (crPowMain x y) = false := signOf_withSign_of_le (nearestMag_le _ _)

/-- A power of a base without a sign has none, the canonical NaN included. -/
theorem signOf_crPow {x : Word} (hx : signOf x = false) (y : Word) : signOf (crPow x y) = false := by
  unfold crPow
  simp only [hx, Bool.false_eq_true, if_false]
  split_ifs
  on_goal 10 => exact signOf_crPowMain x y
  all_goals decide

theorem signOf_crExp2 (v : Word) : signOf (crExp2 v) = false := by
  unfold crExp2
  split_ifs with _ _ hs
  · exact signOf_canonicalNaN
  · decide
  · exact Bool.eq_false_iff.2 hs
  · decide
  · exact signOf_crPowMain ftwo v

/-- The correctly rounded tiers give no sign on a base without one (41_waveshaper.md R146). -/
theorem signOf_powTier {t : Tier} (ht : t = .exact ∨ t = .fast) (c : Config) {x : Word} (hx : signOf x = false)
    (y : Word) : signOf (powTier c t x y) = false := by
  rcases ht with rfl | rfl
  · exact signOf_crPow hx y
  · have hge : flt x fzero = false := Bool.eq_false_iff.2 fun h => by simp [(flt_zero_iff.1 h).2.2] at hx
    simp only [powTier, powFast, hge, Bool.false_eq_true, if_false]
    exact signOf_crExp2 _

end Sys2Proof.Machine
end

section
/-! PROOFS. The waveshaper family: CLIP and CLIP4, the lines of VarHardClip, its plateau, its NaN results and the hard
clip at hardness 1 (41_waveshaper.md R141 to R145). -/

namespace Sys2Proof.Machine

/-! ### The commands -/

theorem exec_clip (s : State) : exec .clip s = .next (s.setR 0 (shapedBy s (operand s 0))) := rfl

theorem exec_clip4 (s : State) :
    exec .clip4 s = .next (s.setR0123 (shapedBy s (laneX s 0)) (shapedBy s (laneX s 1)) (shapedBy s (laneX s 2))
      (shapedBy s (laneX s 3))) := rfl

/-- Settles O32: the model names the lines; the constants are those of R141. -/
theorem varHardClipFollowsItsLines : Obligations.VarHardClipFollowsItsLines := fun _ _ _ _ => rfl

/-- Settles O33: the frame of a result register written. -/
theorem clipWritesOnlyItsResult : Obligations.ClipWritesOnlyItsResult := fun s =>
  ⟨_, exec_clip s, setR_r_get s 0 _ 0 (by decide), setR_zero_frame s _⟩

/-- What CLIP writes with a lane's operand in A0: the controls are the same state's. -/
theorem clip_on_operand (s : State) (w : Word) :
    exec .clip (withA s 0 w) = .next ((withA s 0 w).setR 0 (shapedBy s w)) := by
  have hop : operand (withA s 0 w) 0 = w := withA_a_get s 0 w 0 (by decide)
  rw [exec_clip, hop]
  rfl

theorem setR0123_frame (s : State) (w0 w1 w2 w3 : Word) :
    sameHostSide s (s.setR0123 w0 w1 w2 w3) ∧ sameLatch s (s.setR0123 w0 w1 w2 w3) ∧
      sameDc s (s.setR0123 w0 w1 w2 w3) ∧ ∀ b, bufferKept s (s.setR0123 w0 w1 w2 w3) b :=
  ⟨⟨rfl, rfl, rfl, rfl, rfl, rfl⟩, ⟨rfl, rfl⟩, ⟨rfl, rfl⟩,
    fun b => bufferKept_of_eq (setR0123_buf s w0 w1 w2 w3 b)⟩

/-- Settles O34: lane i of the four writes is the word CLIP writes to R0. -/
theorem clip4LanesAreClips : Obligations.Clip4LanesAreClips := by
  intro s
  refine ⟨_, exec_clip4 s, fun i => ⟨_, clip_on_operand s (laneX s i), ?_⟩, setR0123_frame s _ _ _ _⟩
  have hclip : ((withA s 0 (laneX s i)).setR 0 (shapedBy s (laneX s i))).r[0] = shapedBy s (laneX s i) :=
    setR_r_get _ 0 _ 0 (by decide)
  rw [hclip]
  fin_cases i <;> rfl

/-! ### The clamped input -/

/-- VarHardClip sees its input through step 1 alone. -/
theorem varHardClip_congr {x y : Word} (h : shaperInput x = shaperInput y) (c : Config) (hardness : Word) (t : Tier) :
    varHardClip c x hardness t = varHardClip c y hardness t := by
  simp only [varHardClip, h]

theorem shaperInput_eq_ite {x : Word} (hx : isNaN x = false) :
    shaperInput x = if orderKey x < -0x41800000 then minusStabilityRange
      else if 0x41800000 < orderKey x then stabilityRange else x :=
  fclamp_eq_ite hx (by decide) (by decide)

theorem shaperInput_of_ge {x : Word} (hx : isNaN x = false) (h : 0x41800000 ≤ orderKey x) :
    shaperInput x = stabilityRange := by
  rw [shaperInput_eq_ite hx, if_neg (by omega)]
  split_ifs with habove
  · rfl
  · exact eq_of_orderKey_eq (show orderKey x = 0x41800000 by omega) (by decide)

theorem shaperInput_of_le {x : Word} (hx : isNaN x = false) (h : orderKey x ≤ -0x41800000) :
    shaperInput x = minusStabilityRange := by
  rw [shaperInput_eq_ite hx]
  split_ifs with hbelow habove
  · rfl
  · omega
  · exact eq_of_orderKey_eq (show orderKey x = -0x41800000 by omega) (by decide)

/-- Settles O35: past ±16 the clamped input is that of ±16. -/
theorem shaperIsFlatBeyondSixteen : Obligations.ShaperIsFlatBeyondSixteen := by
  intro c x h t
  refine ⟨fun hge hx => varHardClip_congr ?_ c h t, fun hle hx => varHardClip_congr ?_ c h t⟩
  · rw [flt_eq_decide hx (by decide)] at hge
    rw [shaperInput_of_ge hx (not_lt.1 (of_decide_eq_false hge))]
    decide
  · rw [fgt, flt_eq_decide (by decide) hx] at hle
    rw [shaperInput_of_le hx (not_lt.1 (of_decide_eq_false hle))]
    decide

theorem shaperInput_keeps {x : Word} (hx : isNaN x = false) :
    isNaN (shaperInput x) = false ∧ isZero (shaperInput x) = isZero x ∧ signOf (shaperInput x) = signOf x :=
  fclamp_keeps (by decide) (by decide) hx

theorem shaperDigital_keeps {xc : Word} (hx : isNaN xc = false) :
    isNaN (shaperDigital xc) = false ∧ isZero (shaperDigital xc) = isZero xc ∧
      signOf (shaperDigital xc) = signOf xc :=
  fclamp_keeps (by decide) (by decide) hx

/-! ### NaN results -/

theorem varHardClip_of_isNaN {x : Word} (hx : isNaN x = true) (c : Config) (h : Word) (t : Tier) :
    varHardClip c x h t = canonicalNaN := by
  have hdigital : shaperDigital (shaperInput x) = canonicalNaN := by
    rw [shaperInput, fclamp_of_isNaN hx]
    exact fclamp_of_isNaN isNaN_canonicalNaN _ _
  exact fadd_of_canonicalNaN (.inr (fmul_of_isNaN (.inl (hdigital ▸ isNaN_canonicalNaN))))

theorem varHardClip_of_isNaN_fade {h : Word} (hf : isNaN (shaperFade h) = true) (c : Config) (x : Word) (t : Tier) :
    varHardClip c x h t = canonicalNaN :=
  fadd_of_canonicalNaN (.inr (fmul_of_isNaN (.inr hf)))

theorem isNaN_shaperFade_of_isNaN {h : Word} (hh : isNaN h = true) : isNaN (shaperFade h) = true := by
  rw [shaperFade, fsub_of_isNaN (.inl hh), fdiv_of_isNaN (.inl isNaN_canonicalNaN)]
  exact isNaN_canonicalNaN

/-- Under the weights −∞ and +∞ two values of one sign give opposite infinities, and a zero is invalid at once. -/
theorem crossfade_infinite {a d : Word} (h : isNaN a = true ∨ isNaN d = true ∨ signOf a = signOf d) :
    fadd (fmul a 0xFF800000) (fmul d 0x7F800000) = canonicalNaN := by
  cases hna : isNaN a
  case true => exact fadd_of_canonicalNaN (.inl (fmul_of_isNaN (.inl hna)))
  cases hnd : isNaN d
  case true => exact fadd_of_canonicalNaN (.inr (fmul_of_isNaN (.inl hnd)))
  cases hza : isZero a
  case true => exact fadd_of_canonicalNaN (.inl (fmul_zero_infinity hza (by decide)).1)
  cases hzd : isZero d
  case true => exact fadd_of_canonicalNaN (.inr (fmul_zero_infinity hzd (by decide)).1)
  have hsign : signOf a = signOf d := by simpa [hna, hnd] using h
  rw [fmul_infinity hna hza (by decide), fmul_infinity hnd hzd (by decide), hsign]
  cases signOf d <;> decide

/-- A hardness of +∞ crossfades with the weights −∞ and +∞. -/
theorem varHardClip_infinite_hardness {c : Config} {x : Word} {t : Tier}
    (h : isNaN (shaperAnalog c (shaperInput x) (shaperSoftness 0x7F800000) t) = true ∨
      signOf (shaperAnalog c (shaperInput x) (shaperSoftness 0x7F800000) t) = signOf (shaperInput x)) :
    varHardClip c x 0x7F800000 t = canonicalNaN := by
  cases hx : isNaN x
  case true => exact varHardClip_of_isNaN hx c _ t
  have hfade : shaperFade 0x7F800000 = 0x7F800000 := by decide
  have hrest : fsub fone 0x7F800000 = 0xFF800000 := by decide
  obtain ⟨-, -, hsign⟩ := shaperDigital_keeps (shaperInput_keeps hx).1
  simp only [varHardClip, hfade, hrest]
  exact crossfade_infinite (h.imp_right fun hs => .inr (hs.trans hsign.symm))

/-- In the correctly rounded tiers the soft curve divides by a power without a sign. -/
theorem isNaN_or_signOf_shaperAnalog {t : Tier} (ht : t = .exact ∨ t = .fast) (c : Config) (xc soft : Word) :
    isNaN (shaperAnalog c xc soft t) = true ∨ signOf (shaperAnalog c xc soft t) = signOf xc := by
  have hp1 := signOf_powTier ht c (signOf_fabs xc) (fdiv fone soft)
  have hs1 := signOf_fadd_of_nonneg (a := fone) (by decide) hp1
  have hp2 := signOf_powTier ht c hs1 soft
  have hquotient := isNaN_or_signOf_fdiv xc (powTier c t (fadd fone (powTier c t (fabs xc) (fdiv fone soft))) soft)
  rwa [hp2, Bool.bne_false] at hquotient

/-- Settles O36: a NaN reaches the last sum through the hard clip or through the crossfade weight; a hardness of +∞
sums opposite infinities there. -/
theorem shaperNanRules : Obligations.ShaperNanRules := by
  refine ⟨fun c x h t hnan => ?_, fun c x t ht => ?_⟩
  · rcases hnan with hx | hh | rfl
    · exact varHardClip_of_isNaN hx c h t
    · exact varHardClip_of_isNaN_fade (isNaN_shaperFade_of_isNaN hh) c x t
    · exact varHardClip_of_isNaN_fade (by decide) c x t
  · rcases ht with ht | ht | hsign
    · exact varHardClip_infinite_hardness (isNaN_or_signOf_shaperAnalog (.inl ht) c _ _)
    · exact varHardClip_infinite_hardness (isNaN_or_signOf_shaperAnalog (.inr ht) c _ _)
    · exact varHardClip_infinite_hardness (.inr hsign)

/-! ### Hardness 1 -/

/-- Clamped to [−16, 16] first, a value clamps to [−1, 1] as it does at once. -/
theorem shaperDigital_shaperInput (x : Word) : shaperDigital (shaperInput x) = fclamp x minusOne fone := by
  cases hx : isNaN x
  case true =>
    rw [shaperInput, fclamp_of_isNaN hx, fclamp_of_isNaN hx]
    exact fclamp_of_isNaN isNaN_canonicalNaN _ _
  have hclamp : fclamp x minusOne fone =
      if orderKey x < -0x3F800000 then minusOne else if 0x3F800000 < orderKey x then fone else x :=
    fclamp_eq_ite hx (by decide) (by decide)
  rw [shaperInput_eq_ite hx]
  split_ifs with hbelow habove
  · rw [hclamp, if_pos (by omega)]
    decide
  · rw [hclamp, if_neg (by omega), if_pos (by omega)]
    decide
  · rfl

/-- At hardness 1 the soft curve has the weight +0 and the hard clip the weight 1. -/
theorem varHardClip_hardness_one (c : Config) {x : Word} (hx : isNaN x = false) (t : Tier) :
    varHardClip c x 0x3F800000 t =
      fadd (fmul (shaperAnalog c (shaperInput x) (shaperSoftness 0x3F800000) t) fzero)
        (fclamp x minusOne fone) := by
  have hfade : shaperFade 0x3F800000 = fone := by decide
  have hrest : fsub fone fone = fzero := by decide
  have hfinite : isFinite (fclamp x minusOne fone) = true := isFinite_fclamp (by decide) (by decide) hx
  simp only [varHardClip, hfade, hrest, shaperDigital_shaperInput, fmul_fone hfinite]

/-- A default body does not read the configuration. -/
theorem powTier_eq_tc1 {c : Config} {t : Tier} (h2 : t = .faster → c.faster = .default)
    (h3 : t = .fastest → c.fastest = .default) (x y : Word) : powTier c t x y = powTier Config.tc1 t x y := by
  cases t
  case exact => rfl
  case fast => rfl
  case faster => rw [powTier, h2 rfl]; rfl
  case fastest => rw [powTier, h3 rfl]; rfl

/-- At hardness 1 the soft curve of TC1 gives each zero itself: its divisor is near 1 in every tier. -/
theorem shaperAnalog_tc1_zero (t : Tier) (neg : Bool) :
    shaperAnalog Config.tc1 (withSign neg 0) (shaperSoftness 0x3F800000) t = withSign neg 0 := by
  cases t <;> cases neg <;> decide +kernel

theorem varHardClip_zero {c : Config} {t : Tier} (h2 : t = .faster → c.faster = .default)
    (h3 : t = .fastest → c.fastest = .default) (neg : Bool) :
    varHardClip c (withSign neg 0) 0x3F800000 t = withSign neg 0 := by
  have hinput : shaperInput (withSign neg 0) = withSign neg 0 := by cases neg <;> decide
  have hanalog : shaperAnalog c (withSign neg 0) (shaperSoftness 0x3F800000) t = withSign neg 0 := by
    refine Eq.trans ?_ (shaperAnalog_tc1_zero t neg)
    simp only [shaperAnalog, powTier_eq_tc1 h2 h3]
  rw [varHardClip_hardness_one c (isNaN_withSign (Nat.zero_le _)), hinput, hanalog]
  cases neg <;> decide +kernel

/-- Settles O37: a zero weight leaves a zero of the finite soft curve, which the nonzero hard clip absorbs. -/
theorem shaperIsAHardClipAtOne : Obligations.ShaperIsAHardClipAtOne := by
  refine ⟨fun c x t hx hx0 hfinite => ?_,
    fun c t h2 h3 => ⟨varHardClip_zero h2 h3 false, varHardClip_zero h2 h3 true⟩⟩
  have hzero : isZero (fclamp x minusOne fone) = false := (shaperDigital_keeps hx).2.1.trans hx0
  have hclamped : isFinite (fclamp x minusOne fone) = true := isFinite_fclamp (by decide) (by decide) hx
  have hproduct := isZero_fmul_of_isZero hfinite (b := fzero) (by decide)
  rw [varHardClip_hardness_one c hx, fadd_of_isZero hproduct hclamped hzero]
  rfl

end Sys2Proof.Machine
end

section
/-! PROOFS. The fast-pow family: POW.E, POW.F, POW.FR, POW.FT and their 4-wide forms on bases below 0 and on all others,
and the lines of the tiers (42_fastpow.md R170 to R187). -/

namespace Sys2Proof.Machine

/-! ### The commands of a tier -/

/-- The scalar and the 4-wide pow command of a tier (42_fastpow.md R170, R180 to R187). -/
def powCommands : Tier → Instr × Instr
  | .exact => (.powE, .pow4E)
  | .fast => (.powF, .pow4F)
  | .faster => (.powFR, .pow4FR)
  | .fastest => (.powFT, .pow4FT)

theorem exec_powCommands_scalar (t : Tier) (s : State) :
    exec (powCommands t).1 s = .next (scalarPow (powCommands t).1 t s) := by cases t <;> rfl

theorem exec_powCommands_vector (t : Tier) (s : State) :
    exec (powCommands t).2 s = .next (vectorPow (powCommands t).2 t s) := by cases t <;> rfl

/-- What holds of every tier's entry holds along a table written tier by tier. -/
theorem forall_mem_tierTable {α : Type} {f : Tier → α} {p : α → Prop} (h : ∀ t, p (f t)) :
    ∀ a ∈ [f .exact, f .fast, f .faster, f .fastest], p a :=
  (List.forall_mem_map (f := f) (l := [.exact, .fast, .faster, .fastest])).2 fun t _ => h t

/-! ### The domain check -/

/-- Below 0 lie the patterns from the smallest negative subnormal to −∞ (42_fastpow.md R179). -/
theorem negativeOperand_iff_toNat {w : Word} :
    negativeOperand w = true ↔ 0x80000000 < w.toNat ∧ w.toNat ≤ 0xFF800000 := by
  have hbelow : negativeOperand w = true ↔ isNaN w = false ∧ isZero w = false ∧ signOf w = true := flt_zero_iff
  have hnan : isNaN w = false ↔ ¬ 0x7F800000 < w.toNat % 0x80000000 := decide_eq_false_iff_not
  have hzero : isZero w = false ↔ ¬ w.toNat % 0x80000000 = 0 := decide_eq_false_iff_not
  have hw := w.isLt
  rw [hbelow, hnan, hzero, signOf_iff]
  omega

theorem anyLaneNegative_iff {s : State} :
    anyLaneNegative s = true ↔ ∃ i : Fin 4, negativeOperand (laneX s i) = true := by
  simp [anyLaneNegative, Fin.exists_fin_succ, or_assoc]

theorem anyLaneNegative_eq_false_iff {s : State} :
    anyLaneNegative s = false ↔ ∀ i : Fin 4, negativeOperand (laneX s i) = false := by
  simp [← Bool.not_eq_true, anyLaneNegative_iff]

/-- A scalar pow command on a base below 0 only raises its error. -/
theorem exec_scalar_of_negative {s : State} (h : negativeOperand (operand s 0) = true) (t : Tier) :
    exec (powCommands t).1 s = .next (raiseError .powDomain (encode (powCommands t).1) s) := by
  rw [exec_powCommands_scalar, scalarPow, if_pos h]

/-- A scalar pow command on any other base only writes R0. -/
theorem exec_scalar_of_not_negative {s : State} (h : negativeOperand (operand s 0) = false) (t : Tier) :
    exec (powCommands t).1 s = .next (s.setR 0 (powTier s.cfg t (operand s 0) (operand s 1))) := by
  rw [exec_powCommands_scalar, scalarPow, if_neg (Bool.eq_false_iff.1 h)]

/-- One base below 0 stops all four lanes. -/
theorem exec_vector_of_negative {s : State} (h : ∃ i : Fin 4, negativeOperand (laneX s i) = true) (t : Tier) :
    exec (powCommands t).2 s = .next (raiseError .powDomain (encode (powCommands t).2) s) := by
  rw [exec_powCommands_vector, vectorPow, if_pos (anyLaneNegative_iff.2 h)]

/-- With no base below 0 a 4-wide pow command only writes the result registers. -/
theorem exec_vector_of_not_negative {s : State} (h : ∀ i : Fin 4, negativeOperand (laneX s i) = false) (t : Tier) :
    exec (powCommands t).2 s =
      .next (s.setR0123 (lanePow s t 0) (lanePow s t 1) (lanePow s t 2) (lanePow s t 3)) := by
  rw [exec_powCommands_vector, vectorPow, if_neg (Bool.eq_false_iff.1 (anyLaneNegative_eq_false_iff.2 h))]

/-- Settles O40: the domain check fires on the patterns below 0, before anything is written. -/
theorem negativeBaseLatchesPowDomain : Obligations.NegativeBaseLatchesPowDomain := by
  refine fun s => ⟨fun hlo hhi => ?_, fun ⟨i, hi⟩ => ?_, fun w => negativeOperand_iff_toNat⟩
  · have hneg : negativeOperand (operand s 0) = true := negativeOperand_iff_toNat.2 ⟨hlo, hhi⟩
    exact forall_mem_tierTable (f := fun t => ((powCommands t).1, encode (powCommands t).1)) fun t =>
      ⟨_, exec_scalar_of_negative hneg t, errorLatched_raiseError s .powDomain _⟩
  · have hneg : ∃ i : Fin 4, negativeOperand (laneX s i) = true := ⟨i, negativeOperand_iff_toNat.2 hi⟩
    exact forall_mem_tierTable (f := fun t => ((powCommands t).2, encode (powCommands t).2)) fun t =>
      ⟨_, exec_vector_of_negative hneg t, errorLatched_raiseError s .powDomain _⟩

/-! ### The results -/

theorem powTier_fast {x : Word} (hx : flt x 0 = false) (c : Config) (y : Word) :
    powTier c .fast x y = crExp2 (fmul y (crLog2 (addEps x))) :=
  if_neg (Bool.eq_false_iff.1 hx)

theorem powTier_faster_default {c : Config} (h : c.faster = .default) (x y : Word) :
    powTier c .faster x y = fastPow2 (fmul y (fastLog2 (addEps x))) := by rw [powTier, h]; rfl

theorem powTier_faster_replaced {c : Config} (h : c.faster = .replaced) (x y : Word) :
    powTier c .faster x y = Config.powFaster (addEps x) y := by rw [powTier, h]; rfl

theorem powTier_fastest_default {c : Config} (h : c.fastest = .default) (x y : Word) :
    powTier c .fastest x y = fasterPow2 (fmul y (fasterLog2 (addEps x))) := by rw [powTier, h]; rfl

theorem powTier_fastest_replaced {c : Config} (h : c.fastest = .replaced) (x y : Word) :
    powTier c .fastest x y = Config.powFastest (addEps x) y := by rw [powTier, h]; rfl

/-- Settles O38: past the domain check a scalar pow writes R0 alone; the constants of the tiers are those of R173. -/
theorem scalarPowWritesOnlyItsResult : Obligations.ScalarPowWritesOnlyItsResult := by
  refine ⟨fun s hbase => ?_, fun c x y => ⟨rfl, fun h => powTier_fast h c y, fun h => powTier_faster_default h x y,
    fun h => powTier_fastest_default h x y, fun h => powTier_faster_replaced h x y,
    fun h => powTier_fastest_replaced h x y⟩⟩
  exact forall_mem_tierTable (f := fun t => ((powCommands t).1, t)) fun t =>
    ⟨_, exec_scalar_of_not_negative hbase t, setR_r_get s 0 _ 0 (by decide), setR_zero_frame s _⟩

/-- What a scalar pow command writes with other words in A0 and A1: the tier's pow of these. -/
theorem scalar_on_operands {x : Word} (hx : negativeOperand x = false) (s : State) (t : Tier) (y : Word) :
    ∃ u, exec (powCommands t).1 (withA (withA s 0 x) 1 y) = .next u ∧ u.r[0] = powTier s.cfg t x y := by
  have hop0 : operand (withA (withA s 0 x) 1 y) 0 = x := by simp [operand]
  have hop1 : operand (withA (withA s 0 x) 1 y) 1 = y := by simp [operand]
  refine ⟨_, exec_scalar_of_not_negative (by rwa [hop0]) t, ?_⟩
  rw [hop0, hop1]
  exact setR_r_get _ 0 _ 0 (by decide)

/-- Settles O39: lane i is the word the scalar command writes to R0. -/
theorem pow4LanesAreScalarPows : Obligations.Pow4LanesAreScalarPows := by
  intro s hbase
  refine forall_mem_tierTable (f := fun t => ((powCommands t).2, (powCommands t).1)) fun t =>
    ⟨_, exec_vector_of_not_negative hbase t, fun i => ?_, setR0123_frame s _ _ _ _⟩
  obtain ⟨u, hu, hresult⟩ := scalar_on_operands (hbase i) s t (laneY s i)
  refine ⟨u, hu, ?_⟩
  rw [hresult]
  fin_cases i <;> rfl

end Sys2Proof.Machine
end

section
/-! SUPPORT. What the stage commands and OS4 do to the state: one buffer replaced, words pushed in order, and the state
that operands and results are passed beside (44_multirate.md R230 to R243). -/

namespace Sys2Proof.Machine

theorem after_eq {i : Instr} {s t : State} (h : exec i s = .next t) : after i s = t := by rw [after, h]

/-! ### The stage commands, by their buffer -/

/-- The table of the stage that pushes into a buffer (44_multirate.md R232 to R235). -/
def stageTable (c : Config) : BufId → List Word
  | .upX2 | .downX2 => c.h2
  | .upX4 | .downX4 => c.h4

/-- The up stages push into the buffers 0 and 1 (44_multirate.md R232, R233). -/
def isUpBuf (b : BufId) : Prop := b = .upX2 ∨ b = .upX4

/-- The down stages push into the buffers 2 and 3 (44_multirate.md R234, R235). -/
def isDownBuf (b : BufId) : Prop := b = .downX4 ∨ b = .downX2

theorem exec_stageOf_up {b : BufId} (hb : isUpBuf b) (s : State) :
    exec (stageOf b) s = .next ((bufPush b (operand s 0) s).setR01
      (upEven (bufPush b (operand s 0) s) b (stageTable s.cfg b))
      (upOdd (bufPush b (operand s 0) s) b (stageTable s.cfg b))) := by
  rcases hb with rfl | rfl
  · exact execUp2x_eq s
  · exact execUp4x_eq s

theorem exec_stageOf_down {b : BufId} (hb : isDownBuf b) (s : State) :
    exec (stageOf b) s = .next ((bufPush b (operand s 1) (bufPush b (operand s 0) s)).setR 0
      (firSum (bufPush b (operand s 1) (bufPush b (operand s 0) s)) b (stageTable s.cfg b))) := by
  rcases hb with rfl | rfl
  · exact execDn4x_eq s
  · exact execDn2x_eq s

/-- Every delay a stage taps is legal (44_multirate.md R238). -/
theorem lt_tapLimit_of_admitted {c : Config} (hc : c.admitted = true) {b : BufId} {k : Nat} :
    (isUpBuf b → k < (stageTable c b).length / 2 → k < tapLimit c b) ∧
      (isDownBuf b → k < (stageTable c b).length → k < tapLimit c b) := by
  obtain ⟨_, _, hlegal⟩ := capacitiesCoverTheFirTaps c
  obtain ⟨h0, h1, h2, h3⟩ := hlegal hc k
  constructor
  · rintro (rfl | rfl)
    · exact h0
    · exact h1
  · rintro (rfl | rfl)
    · exact h2
    · exact h3

theorem stageTable_length_even {c : Config} (hc : c.admitted = true) (b : BufId) :
    (stageTable c b).length % 2 = 0 := by
  obtain ⟨⟨h2, _⟩, ⟨h4, _⟩, _⟩ := admitted_iff.1 hc
  cases b <;> assumption

/-- One buffer replaced and the results from `k` on kept: nothing else changes. -/
theorem frame_of_setBuf_results {s : State} {b : BufId} {v : Buffer} {r : Vector Word 4} {k : Nat}
    (hr : ∀ j : Fin 4, k ≤ j.val → r[j] = s.r[j]) :
    sameHostSide s { s.setBuf b v with r := r } ∧ sameLatch s { s.setBuf b v with r := r } ∧
      sameDc s { s.setBuf b v with r := r } ∧ resultsKeptFrom k s { s.setBuf b v with r := r } ∧
      ∀ b', b' ≠ b → bufferKept s { s.setBuf b v with r := r } b' := by
  obtain ⟨hhost, hlatch, hdc, _, hbufs⟩ := setBuf_frame s b v
  refine ⟨hhost, hlatch, hdc, hr, fun b' hb => ?_⟩
  cases b' <;> exact hbufs _ hb

/-- The results beyond R0 and R1 are kept where these two are written. -/
theorem resultsKeptFrom_setR01 (s : State) (w0 w1 : Word) : resultsKeptFrom 2 s (s.setR01 w0 w1) := by
  intro j hj
  show (s.setR01 w0 w1).r[j.val] = s.r[j.val]
  rw [setR01_r_get, if_neg (by omega), if_neg (by omega)]

theorem resultsKeptFrom_setR_zero (s : State) (w : Word) : resultsKeptFrom 1 s (s.setR 0 w) := by
  obtain ⟨_, _, _, hresults, _⟩ := setR_zero_frame s w
  exact hresults

/-! ### Words pushed in order -/

/-- A buffer after BufPush of each word, in order. `pushAll_eq_setBuf` ties it to the state. -/
def pushedWords (c : Config) (b : BufId) (buf : Buffer) (ws : List Word) : Buffer := ws.foldl (pushed c b) buf

theorem pushedWords_cons (c : Config) (b : BufId) (buf : Buffer) (w : Word) (ws : List Word) :
    pushedWords c b buf (w :: ws) = pushedWords c b (pushed c b buf w) ws := rfl

/-- Pushes into one buffer replace it alone. -/
theorem pushAll_eq_setBuf (s : State) (b : BufId) (ws : List Word) :
    pushAll b s ws = s.setBuf b (pushedWords s.cfg b (s.buf b) ws) := by
  induction ws generalizing s with
  | nil => cases b <;> rfl
  | cons w ws ih =>
    calc
      pushAll b s (w :: ws) = (bufPush b w s).setBuf b (pushedWords (bufPush b w s).cfg b ((bufPush b w s).buf b) ws) :=
        ih (bufPush b w s)
      _ = s.setBuf b (pushedWords s.cfg b (s.buf b) (w :: ws)) := by cases b <;> rfl

theorem bufPush_bufPush (s : State) (b : BufId) (v w : Word) :
    bufPush b w (bufPush b v s) = s.setBuf b (pushed s.cfg b (pushed s.cfg b (s.buf b) v) w) :=
  pushAll_eq_setBuf s b [v, w]

theorem pushedWords_head (c : Config) (b : BufId) (buf : Buffer) (ws : List Word) :
    (pushedWords c b buf ws).head = (nextHead c b)^[ws.length] buf.head := by
  induction ws generalizing buf with
  | nil => rfl
  | cons w ws ih => exact ih (pushed c b buf w)

/-- A slot that the head does not pass reads as before. -/
theorem pushedWords_read {buf : Buffer} (h : buf.slots.wf = true) (c : Config) (b : BufId) (ws : List Word) {i : Nat}
    (hi : ∀ j < ws.length, i ≠ (nextHead c b)^[j + 1] buf.head) :
    (pushedWords c b buf ws).slots.read i = buf.slots.read i := by
  induction ws generalizing buf with
  | nil => rfl
  | cons w ws ih =>
    have hfirst : i ≠ nextHead c b buf.head := hi 0 (by simp)
    have hlater : ∀ j < ws.length, i ≠ (nextHead c b)^[j + 1] (pushed c b buf w).head := fun j hj =>
      hi (j + 1) (by simpa using hj)
    rw [pushedWords_cons, ih (pushed_slots_wf h c b w) hlater, pushed_read h, if_neg hfirst]

/-- Every push moves the head by one, modulo the capacity. -/
theorem nextHead_iterate (c : Config) (b : BufId) (m n : Nat) :
    (nextHead c b)^[n] (m % capacity c b) = (m + n) % capacity c b := by
  induction n with
  | zero => rfl
  | succ n ih => rw [Function.iterate_succ_apply', ih, nextHead_eq, Nat.mod_add_mod, Nat.add_assoc]

/-! ### The pushes of OS4 -/

/-- The state after the words of each buffer are pushed into it. `cascade_eq_withPushes` ties it to the cascade. -/
def withPushes (s : State) (ws : BufId → List Word) : State :=
  { s with
    upX2 := pushedWords s.cfg .upX2 s.upX2 (ws .upX2)
    upX4 := pushedWords s.cfg .upX4 s.upX4 (ws .upX4)
    downX4 := pushedWords s.cfg .downX4 s.downX4 (ws .downX4)
    downX2 := pushedWords s.cfg .downX2 s.downX2 (ws .downX2) }

theorem withPushes_eq (s : State) (ws : BufId → List Word) :
    withPushes s ws = pushAll .downX2 (pushAll .downX4 (pushAll .upX4 (pushAll .upX2 s (ws .upX2)) (ws .upX4))
      (ws .downX4)) (ws .downX2) := by
  simp only [pushAll_eq_setBuf]
  rfl

theorem withPushes_buf (s : State) (ws : BufId → List Word) (b : BufId) :
    (withPushes s ws).buf b = pushedWords s.cfg b (s.buf b) (ws b) := by cases b <;> rfl

/-- The cascade changes the state by its pushes alone, as many into each buffer as R242 counts. -/
theorem cascade_eq_withPushes (x : Word) (s : State) :
    ∃ ws : BufId → List Word, (∀ b, (ws b).length = os4Pushes b) ∧ (cascade x s).1 = withPushes s ws := by
  obtain ⟨e, o, z0, z1, z2, z3, d0, d1, hpushes⟩ := cascade_pushes x s
  refine ⟨fun | .upX2 => [x] | .upX4 => [e, o] | .downX4 => [z0, z1, z2, z3] | .downX2 => [d0, d1], fun b => ?_, ?_⟩
  · cases b <;> rfl
  · rw [hpushes, withPushes_eq]
    rfl

@[simp] theorem cascadeStart_cfg (s : State) : (cascadeStart s).cfg = s.cfg := by unfold cascadeStart; split <;> rfl

@[simp] theorem cascadeStart_status (s : State) : (cascadeStart s).status = s.status := by
  unfold cascadeStart; split <;> rfl

@[simp] theorem cascadeStart_errcmd (s : State) : (cascadeStart s).errcmd = s.errcmd := by
  unfold cascadeStart; split <;> rfl

@[simp] theorem cascadeStart_r (s : State) : (cascadeStart s).r = s.r := by unfold cascadeStart; split <;> rfl

@[simp] theorem cascadeStart_buf (s : State) (b : BufId) : (cascadeStart s).buf b = s.buf b := by
  unfold cascadeStart; split <;> simp

/-- OS4 is a DC step where it is enabled, the pushes of the cascade, and R0 written. -/
theorem exec_os4 (s : State) :
    ∃ (ws : BufId → List Word) (out : Word), (∀ b, (ws b).length = os4Pushes b) ∧
      exec .os4 s = .next ((withPushes (cascadeStart s) ws).setR 0 out) := by
  obtain ⟨ws, hlength, hstate⟩ := cascade_eq_withPushes (cascadeInput s) (cascadeStart s)
  exact ⟨ws, _, hlength, hstate ▸ execOs4_eq s⟩

/-- OS4 pushes 1, 2, 4 and 2 words into the buffers, and changes them in no other way (44_multirate.md R241, R242). -/
theorem exec_os4_buf (s : State) :
    ∃ t, exec .os4 s = .next t ∧ ∀ b, ∃ ws : List Word, ws.length = os4Pushes b ∧
      t.buf b = pushedWords s.cfg b (s.buf b) ws := by
  obtain ⟨ws, out, hlength, hexec⟩ := exec_os4 s
  exact ⟨_, hexec, fun b => ⟨ws b, hlength b, by simp [withPushes_buf]⟩⟩

end Sys2Proof.Machine
end

section
/-! PROOFS. The stage commands, the FIR sums with a NaN or an infinity, and what OS4 does to the DC state, the buffers and
their heads (44_multirate.md R230 to R242). -/

namespace Sys2Proof.Machine

/-! ### The stage commands -/

/-- Both up stages at once. -/
theorem up_stage_completes {s : State} {b : BufId} (hb : isUpBuf b) (hc : s.cfg.admitted = true)
    (hslots : (s.buf b).slots.wf = true) :
    ∃ t, exec (stageOf b) s = .next t ∧ slotPushed s.cfg b (s.buf b) (t.buf b) s.a[0] ∧
      t.r[0] = fmul 0x40000000
        (firOver t b (fun k => (stageTable s.cfg b).getD (2 * k) 0) ((stageTable s.cfg b).length / 2)) ∧
      t.r[1] = fmul 0x40000000
        (firOver t b (fun k => (stageTable s.cfg b).getD (2 * k + 1) 0) ((stageTable s.cfg b).length / 2)) ∧
      sameHostSide s t ∧ sameLatch s t ∧ sameDc s t ∧ resultsKeptFrom 2 s t ∧ ∀ b', b' ≠ b → bufferKept s t b' := by
  have heven := stageTable_length_even hc b
  have hlegal : ∀ k < (stageTable s.cfg b).length / 2, k < tapLimit (bufPush b s.a[0] s).cfg b := fun k hk => by
    simpa using (lt_tapLimit_of_admitted hc).1 hb hk
  refine ⟨_, exec_stageOf_up hb s, ?_, ?_, ?_, frame_of_setBuf_results fun j hj => ?_⟩
  · rw [setR01_buf, bufPush_buf_self]
    exact slotPushed_pushed hslots s.cfg b s.a[0]
  · rw [setR01_r_get, if_pos rfl, firOver_congr (setR01_cfg _ _ _) (setR01_buf _ _ _ _)]
    exact congrArg (fmul ftwo) (firSum_eq_firOver (by rw [evenTaps_length]; omega)
      (fun k _ => (evenTaps_getD _ k).symm) hlegal)
  · rw [setR01_r_get, if_neg (by decide), if_pos rfl, firOver_congr (setR01_cfg _ _ _) (setR01_buf _ _ _ _)]
    exact congrArg (fmul ftwo) (firSum_eq_firOver (oddTaps_length _) (fun k _ => (oddTaps_getD _ k).symm) hlegal)
  · rw [← bufPush_r s b (operand s 0)]
    exact resultsKeptFrom_setR01 _ _ _ j hj

/-- Settles O25: each up command is the up stage of its buffer. -/
theorem upStagesGiveThePolyphaseSums : Obligations.UpStagesGiveThePolyphaseSums := fun _ hc hslots =>
  ⟨up_stage_completes (.inl rfl) hc (hslots .upX2), up_stage_completes (.inr rfl) hc (hslots .upX4)⟩

/-- Both down stages at once. -/
theorem down_stage_completes {s : State} {b : BufId} (hb : isDownBuf b) (hc : s.cfg.admitted = true)
    (hslots : (s.buf b).slots.wf = true) :
    ∃ t mid, exec (stageOf b) s = .next t ∧ slotPushed s.cfg b (s.buf b) mid s.a[0] ∧
      slotPushed s.cfg b mid (t.buf b) s.a[1] ∧
      t.r[0] = firOver t b (fun k => (stageTable s.cfg b).getD k 0) (stageTable s.cfg b).length ∧
      sameHostSide s t ∧ sameLatch s t ∧ sameDc s t ∧ resultsKeptFrom 1 s t ∧ ∀ b', b' ≠ b → bufferKept s t b' := by
  refine ⟨_, pushed s.cfg b (s.buf b) s.a[0], exec_stageOf_down hb s, slotPushed_pushed hslots s.cfg b s.a[0], ?_, ?_,
    ?_⟩
  · rw [setR_buf, bufPush_bufPush, setBuf_buf_self]
    exact slotPushed_pushed (pushed_slots_wf hslots s.cfg b s.a[0]) s.cfg b s.a[1]
  · rw [setR_r_get, if_pos (by decide), firOver_congr (setR_cfg _ _ _) (setR_buf _ _ _ _)]
    exact firSum_eq_firOver rfl (fun k _ => rfl) fun k hk => by simpa using (lt_tapLimit_of_admitted hc).2 hb hk
  · rw [bufPush_bufPush]
    refine frame_of_setBuf_results fun j hj => ?_
    rw [← setBuf_r s b]
    exact resultsKeptFrom_setR_zero _ _ j hj

/-- Settles O26: each down command is the down stage of its buffer. -/
theorem downStagesGiveTheFirSum : Obligations.DownStagesGiveTheFirSum := fun _ hc hslots =>
  ⟨down_stage_completes (.inl rfl) hc (hslots .downX4), down_stage_completes (.inr rfl) hc (hslots .downX2)⟩

/-! ### A NaN or an infinity in a FIR sum -/

/-- The canonical NaN, or the infinity of one sign: a sum that has become one of them leaves that infinity for the
canonical NaN alone. -/
def NaNOrInfinity (neg : Bool) (w : Word) : Prop := w = canonicalNaN ∨ w = withSign neg infMag

theorem isInf_withSign_infMag (neg : Bool) : isInf (withSign neg infMag) = true := by cases neg <;> decide

/-- An infinity in a sum, on either side, leaves that infinity or the canonical NaN. -/
theorem nanOrInfinity_fadd {neg : Bool} {a b : Word} (h : NaNOrInfinity neg a ∨ NaNOrInfinity neg b) :
    NaNOrInfinity neg (fadd a b) := by
  rcases h with (rfl | rfl) | (rfl | rfl)
  · exact .inl (fadd_of_canonicalNaN (.inl rfl))
  · simp only [fadd, isNaN_withSign le_rfl, isInf_withSign_infMag, Bool.false_or, if_true]
    split_ifs
    · exact .inl rfl
    · exact .inl rfl
    · exact .inr rfl
  · exact .inl (fadd_of_canonicalNaN (.inr rfl))
  · simp only [fadd, isNaN_withSign le_rfl, isInf_withSign_infMag, Bool.or_false, Bool.true_and, if_true]
    split_ifs with _ hinf hsign
    · exact .inl rfl
    · exact .inl rfl
    · have hmag : magOf a = infMag := of_decide_eq_true hinf
      have hneg : signOf a = neg := by simpa [signOf_withSign_of_le le_rfl] using hsign
      rw [← withSign_signOf_magOf a, hmag, hneg]
      exact .inr rfl
    · exact .inr rfl

theorem fadd_nanOrInfinity_opposite {neg : Bool} {a b : Word} (ha : NaNOrInfinity neg a)
    (hb : NaNOrInfinity (!neg) b) : fadd a b = canonicalNaN := by
  rcases ha with rfl | rfl
  · exact fadd_of_canonicalNaN (.inl rfl)
  rcases hb with rfl | rfl
  · exact fadd_of_canonicalNaN (.inr rfl)
  · cases neg <;> decide

theorem nanOrInfinity_fmul {c w : Word} (hc : isZero c = false) (hw : isInf w = true) :
    NaNOrInfinity (signOf c != signOf w) (fmul c w) := by
  cases hn : isNaN c with
  | true => exact .inl (fmul_of_isNaN (.inl hn))
  | false => exact .inr (fmul_infinity hn hc hw)

/-- The product of one tap, which `firOver_succ` adds. -/
def firTerm (s : State) (b : BufId) (coef : Nat → Word) (k : Nat) : Word := fmul (coef k) ((bufTap s b k).getD 0)

theorem firTerm_of_tap {s : State} {b : BufId} {k : Nat} {w : Word} (h : bufTap s b k = some w) (coef : Nat → Word) :
    firTerm s b coef k = fmul (coef k) w := by rw [firTerm, h, Option.getD_some]

theorem firOver_succ (s : State) (b : BufId) (coef : Nat → Word) (n : Nat) :
    firOver s b coef (n + 1) = fadd (firOver s b coef n) (firTerm s b coef n) := by
  rw [firOver, List.range_succ, List.foldl_append]
  rfl

section
variable {s : State} {b : BufId} {coef : Nat → Word}

/-- What a sum takes over from either summand stays in a FIR sum. -/
theorem firOver_mono {p : Word → Prop} (hp : ∀ {x y}, p x ∨ p y → p (fadd x y)) {m n : Nat} (hmn : m ≤ n)
    (h : p (firOver s b coef m)) : p (firOver s b coef n) := by
  induction n, hmn using Nat.le_induction with
  | base => exact h
  | succ n _ ih => exact firOver_succ s b coef n ▸ hp (.inl ih)

/-- What a sum takes over from either summand reaches a FIR sum from any of its products. -/
theorem firOver_of_term {p : Word → Prop} (hp : ∀ {x y}, p x ∨ p y → p (fadd x y)) {k n : Nat} (hk : k < n)
    (h : p (firTerm s b coef k)) : p (firOver s b coef n) :=
  firOver_mono hp hk (firOver_succ s b coef k ▸ hp (.inr h))

/-- The sum before the later of two infinite products of opposite signs is that of the earlier one, or a NaN. -/
theorem firOver_of_opposite_terms {neg : Bool} {j k n : Nat} (hjk : j < k) (hk : k < n)
    (hj : NaNOrInfinity neg (firTerm s b coef j)) (hopp : NaNOrInfinity (!neg) (firTerm s b coef k)) :
    firOver s b coef n = canonicalNaN := by
  have hbefore : NaNOrInfinity neg (firOver s b coef k) := firOver_of_term nanOrInfinity_fadd hjk hj
  refine firOver_mono (p := (· = canonicalNaN)) fadd_of_canonicalNaN hk ?_
  rw [firOver_succ]
  exact fadd_nanOrInfinity_opposite hbefore hopp

end

/-- Settles O31: a NaN product stays in the sum; so does an infinite one until the opposite infinity is added. -/
theorem nanSampleMakesTheFirSumNan : Obligations.NanSampleMakesTheFirSumNan := by
  intro s b coef n k w hk hw
  have sum_nan (hterm : fmul (coef k) w = canonicalNaN) : firOver s b coef n = canonicalNaN :=
    firOver_of_term (p := (· = canonicalNaN)) fadd_of_canonicalNaN hk ((firTerm_of_tap hw coef).trans hterm)
  refine ⟨fun hnan => sum_nan (fmul_of_isNaN (.inr hnan)), fun hinf hzero => sum_nan (fmul_zero_infinity hzero hinf).1,
    fun j v hj hv hwinf hvinf hkzero hjzero hsign => ?_⟩
  have hkterm := nanOrInfinity_fmul hkzero hwinf
  have hjterm := nanOrInfinity_fmul hjzero hvinf
  rw [← firTerm_of_tap hw coef] at hkterm
  rw [← firTerm_of_tap hv coef] at hjterm
  rcases lt_trichotomy j k with hlt | rfl | hgt
  · exact firOver_of_opposite_terms hlt hk hjterm (Bool.eq_not_of_ne hsign ▸ hkterm)
  · cases hw.symm.trans hv
    exact absurd rfl hsign
  · exact firOver_of_opposite_terms hgt hj hkterm (Bool.eq_not_of_ne hsign.symm ▸ hjterm)

/-! ### OS4 on the DC state, the buffers and their heads -/

/-- Settles O28: the pushes and the result of OS4 leave the DC state to the DC step before them. -/
theorem os4TouchesDcStateOnlyWhenEnabled : Obligations.Os4TouchesDcStateOnlyWhenEnabled := by
  intro s
  obtain ⟨ws, out, _, hexec⟩ := exec_os4 s
  refine ⟨_, hexec, fun hoff => ?_, fun hon => ?_⟩
  · rw [(cascadeStart_disabled hoff).1]
    exact ⟨rfl, rfl⟩
  · rw [(cascadeStart_enabled hon).1]
    exact ⟨rfl, rfl⟩

/-- Settles O29: the words pushed into a buffer go to the slots its head passes. -/
theorem os4StoresOnlyWhereTheHeadsPass : Obligations.Os4StoresOnlyWhereTheHeadsPass := by
  intro s hslots
  obtain ⟨t, hexec, hbuf⟩ := exec_os4_buf s
  refine ⟨t, hexec, fun b => ?_⟩
  obtain ⟨ws, hlength, hb⟩ := hbuf b
  rw [hb, ← hlength]
  exact ⟨pushedWords_head _ _ _ _, fun i => pushedWords_read (hslots b) _ _ _⟩

/-- One OS4 on any sample moves each head by its pushes, and keeps the configuration. -/
theorem after_os4_head {s : State} {b : BufId} {m : Nat} (h : (s.buf b).head = m % capacity s.cfg b) (x : Word) :
    (after .os4 (withA s 0 x)).cfg = s.cfg ∧
      ((after .os4 (withA s 0 x)).buf b).head = (m + os4Pushes b) % capacity s.cfg b := by
  obtain ⟨t, hexec, hbuf⟩ := exec_os4_buf (withA s 0 x)
  obtain ⟨hcfg, _⟩ := sameHostSide_of_performs (performs_of_exec hexec)
  obtain ⟨ws, hlength, hb⟩ := hbuf b
  rw [after_eq hexec, hb, pushedWords_head, hlength, withA_buf, withA_cfg, h]
  exact ⟨hcfg, nextHead_iterate _ _ _ _⟩

/-- From a head of `m` pushes, a run of OS4 makes it that of `m` and its own pushes. -/
theorem os4Run_head {s : State} {b : BufId} {m : Nat} (h : (s.buf b).head = m % capacity s.cfg b) (xs : List Word) :
    ((os4Run s xs).buf b).head = (m + os4Pushes b * xs.length) % capacity s.cfg b := by
  induction xs generalizing s m with
  | nil => exact h
  | cons x xs ih =>
    obtain ⟨hcfg, hhead⟩ := after_os4_head h x
    rw [← hcfg] at hhead
    have hrest := ih hhead
    rw [hcfg, Nat.add_assoc, Nat.add_comm (os4Pushes b), ← Nat.mul_succ] at hrest
    exact hrest

/-- Settles O30: a head at 0 is that of no pushes. -/
theorem headsStayInLockStep : Obligations.HeadsStayInLockStep := by
  intro s xs hzero
  have heads (b : BufId) : ((os4Run s xs).buf b).head = os4Pushes b * xs.length % capacity s.cfg b := by
    have hhead : (s.buf b).head = 0 % capacity s.cfg b := by rw [hzero, Nat.zero_mod]
    rw [os4Run_head hhead, Nat.zero_add]
  refine ⟨?_, heads .upX4, heads .downX4, heads .downX2⟩
  rw [← Nat.one_mul xs.length]
  exact heads .upX2

end Sys2Proof.Machine
end

section
/-! PROOFS. OS4 is the host sequence of its stages (44_multirate.md R243). -/

namespace Sys2Proof.Machine

/-! ### States that differ in operands and results alone -/

/-- `u` is `s` but for the operand and the result registers, in which a host sequence passes its words on. -/
def SameButAR (s u : State) : Prop := ∃ a r, u = { s with a := a, r := r }

theorem SameButAR.refl (s : State) : SameButAR s s := ⟨s.a, s.r, rfl⟩

section
variable {s u : State} (h : SameButAR s u)
include h

theorem SameButAR.cfg : u.cfg = s.cfg := by
  obtain ⟨a, r, rfl⟩ := h
  rfl

theorem SameButAR.buf (b : BufId) : u.buf b = s.buf b := by
  obtain ⟨a, r, rfl⟩ := h
  cases b <;> rfl

theorem SameButAR.withA (i : Fin 8) (w : Word) : SameButAR s (withA u i w) := by
  obtain ⟨a, r, rfl⟩ := h
  exact ⟨_, _, rfl⟩

theorem SameButAR.setR (i : Fin 4) (w : Word) : SameButAR s (u.setR i w) := by
  obtain ⟨a, r, rfl⟩ := h
  exact ⟨_, _, rfl⟩

theorem SameButAR.setR0123 (w0 w1 w2 w3 : Word) : SameButAR s (u.setR0123 w0 w1 w2 w3) := by
  obtain ⟨a, r, rfl⟩ := h
  exact ⟨_, _, rfl⟩

theorem SameButAR.bufPush (b : BufId) (w : Word) : SameButAR (bufPush b w s) (bufPush b w u) := by
  obtain ⟨a, r, rfl⟩ := h
  exact ⟨a, r, by cases b <;> rfl⟩

/-- A FIR sum reads neither operands nor results. -/
theorem SameButAR.firSum (b : BufId) (hs : List Word) : firSum u b hs = firSum s b hs :=
  firSum_congr h.cfg (h.buf b) hs

/-- Nor do the shaper and the choice of the inner processor. -/
theorem SameButAR.controls : ctrlInnerSel u = ctrlInnerSel s ∧ shapedBy u = shapedBy s := by
  obtain ⟨a, r, rfl⟩ := h
  exact ⟨rfl, rfl⟩

end

/-! ### The host sequence beside the cascade -/

/-- The host sequence stands in `u` when the cascade that began in `s0` stands in `s`: it works on the same signal state,
under the controls that `s0` had. -/
def HostBeside (s0 s u : State) : Prop := sameHostSide s0 s ∧ SameButAR s u

theorem sameHostSide_bufPush {s0 s : State} (h : sameHostSide s0 s) (b : BufId) (w : Word) :
    sameHostSide s0 (bufPush b w s) := by simpa [sameHostSide] using h

theorem controls_of_sameHostSide {s t : State} (h : sameHostSide s t) :
    ctrlInnerSel t = ctrlInnerSel s ∧ shapedBy t = shapedBy s := by
  obtain ⟨hcfg, hctrl, hhardness, _⟩ := h
  constructor
  · rw [ctrlInnerSel, ctrlInnerSel, hctrl]
  · funext x
    rw [shapedBy, shapedBy, ctrlTier, ctrlTier, hcfg, hctrl, hhardness]

section
variable {s0 s u : State} (h : HostBeside s0 s u)
include h

/-- An up command on the word of an up stage leaves the outputs of the stage in R0 and R1. -/
theorem up_on_host {b : BufId} (hb : isUpBuf b) {u' : State} {x : Word} (hu' : after (stageOf b) (withA u 0 x) = u') :
    ∃ s', HostBeside s0 s' u' ∧ upStage b (stageTable s0.cfg b) x s = (s', u'.r[0], u'.r[1]) := by
  obtain ⟨hhost, hsame⟩ := h
  have hop : operand (withA u 0 x) 0 = x := withA_a_get u 0 x 0 (by decide)
  have hcfg : u.cfg = s0.cfg := hsame.cfg.trans hhost.1
  have hpush : SameButAR (bufPush b x s) (bufPush b x (withA u 0 x)) := (hsame.withA 0 x).bufPush b x
  rw [after_eq (exec_stageOf_up hb (withA u 0 x)), hop, withA_cfg, hcfg] at hu'
  subst hu'
  refine ⟨bufPush b x s, ⟨sameHostSide_bufPush hhost b x, (hpush.setR 0 _).setR 1 _⟩, ?_⟩
  rw [setR01_r_get, setR01_r_get, if_pos rfl, if_neg (by decide), if_pos rfl, upEven, upOdd, hpush.firSum, hpush.firSum]
  rfl

/-- A down command on the words of a down stage leaves the output of the stage in R0. -/
theorem down_on_host {b : BufId} (hb : isDownBuf b) {u' : State} {v0 v1 : Word}
    (hu' : afterOn2 (stageOf b) u v0 v1 = u') :
    ∃ s', HostBeside s0 s' u' ∧ downStage b (stageTable s0.cfg b) v0 v1 s = (s', u'.r[0]) := by
  obtain ⟨hhost, hsame⟩ := h
  have hops : operand (withA (withA u 0 v0) 1 v1) 0 = v0 ∧ operand (withA (withA u 0 v0) 1 v1) 1 = v1 := by
    simp [operand]
  have hcfg : u.cfg = s0.cfg := hsame.cfg.trans hhost.1
  have hpush : SameButAR (bufPush b v1 (bufPush b v0 s)) (bufPush b v1 (bufPush b v0 (withA (withA u 0 v0) 1 v1))) :=
    (((hsame.withA 0 v0).withA 1 v1).bufPush b v0).bufPush b v1
  rw [afterOn2, after_eq (exec_stageOf_down hb _), hops.1, hops.2, withA_cfg, withA_cfg, hcfg] at hu'
  subst hu'
  refine ⟨bufPush b v1 (bufPush b v0 s),
    ⟨sameHostSide_bufPush (sameHostSide_bufPush hhost b v0) b v1, hpush.setR 0 _⟩, ?_⟩
  rw [setR_r_get, if_pos (by decide), hpush.firSum]
  rfl

/-- The host's CLIP4, or its absence, gives the four inner samples. -/
theorem inner_on_host (y0 y1 y2 y3 : Word) :
    ∃ u', HostBeside s0 s u' ∧ hostInner u y0 y1 y2 y3 = (u', inner s0 y0, inner s0 y1, inner s0 y2, inner s0 y3) := by
  obtain ⟨hhost, hsame⟩ := h
  have hops : SameButAR s (withA (withA (withA (withA u 0 y0) 1 y1) 2 y2) 3 y3) :=
    (((hsame.withA 0 y0).withA 1 y1).withA 2 y2).withA 3 y3
  unfold hostInner inner
  generalize hv : withA (withA (withA (withA u 0 y0) 1 y1) 2 y2) 3 y3 = v at *
  have hlanes : laneX v 0 = y0 ∧ laneX v 1 = y1 ∧ laneX v 2 = y2 ∧ laneX v 3 = y3 := by simp [← hv, laneX, operand]
  have hshaped := hops.controls.2.trans (controls_of_sameHostSide hhost).2
  have hsel := hsame.controls.1.trans (controls_of_sameHostSide hhost).1
  rw [hsel]
  cases ctrlInnerSel s0 with
  | false => exact ⟨u, ⟨hhost, hsame⟩, rfl⟩
  | true =>
    simp only [if_true, after_eq (exec_clip4 _), hlanes, hshaped]
    exact ⟨_, ⟨hhost, hops.setR0123 _ _ _ _⟩, rfl⟩

end

/-- The host starts with DCB exactly when the cascade starts with a DC step. -/
theorem start_on_host (s : State) :
    HostBeside (cascadeStart s) (cascadeStart s) (if ctrlDcbEn s then after .dcb s else s) ∧
      (if ctrlDcbEn s then (if ctrlDcbEn s then after .dcb s else s).r[0] else operand s 0) = cascadeInput s := by
  have hhost (t : State) : sameHostSide t t := ⟨rfl, rfl, rfl, rfl, rfl, rfl⟩
  unfold cascadeStart cascadeInput
  cases ctrlDcbEn s with
  | false => exact ⟨⟨hhost _, .refl s⟩, rfl⟩
  | true =>
    exact ⟨⟨hhost _, (SameButAR.refl _).setR 0 _⟩, setR_r_get (dcStep (operand s 0) s) 0 _ 0 (by decide)⟩

/-- The host sequence ends beside the cascade, with its output in R0. -/
theorem hostCascade_spec (s : State) :
    ∃ t, HostBeside (cascadeStart s) t (hostCascade s) ∧
      cascade (cascadeInput s) (cascadeStart s) = (t, (hostCascade s).r[0]) := by
  obtain ⟨h0, hx⟩ := start_on_host s
  unfold hostCascade
  extract_lets u0 x u1 u2 u3
  obtain ⟨s1, h1, stage1⟩ := up_on_host h0 (.inl rfl) (show after .up2x _ = u1 from rfl)
  obtain ⟨s2, h2, stage2⟩ := up_on_host h1 (.inr rfl) (show after .up4x _ = u2 from rfl)
  obtain ⟨s3, h3, stage3⟩ := up_on_host h2 (.inr rfl) (show after .up4x _ = u3 from rfl)
  obtain ⟨u, hu, hinner⟩ := inner_on_host h3 u2.r[0] u2.r[1] u3.r[0] u3.r[1]
  rw [hinner]
  dsimp only
  generalize hu4 : afterOn2 .dn4x u _ _ = u4
  generalize hu5 : afterOn2 .dn4x u4 _ _ = u5
  generalize hu6 : afterOn2 .dn2x u5 _ _ = u6
  obtain ⟨s4, h4, stage4⟩ := down_on_host hu (.inl rfl) hu4
  obtain ⟨s5, h5, stage5⟩ := down_on_host h4 (.inl rfl) hu5
  obtain ⟨s6, h6, stage6⟩ := down_on_host h5 (.inr rfl) hu6
  refine ⟨s6, h6, ?_⟩
  rw [← hx]
  exact (cascade_eq stage1 stage2 stage3 stage4 stage5).trans stage6

/-- OS4 writes no result but R0, and not the latch. -/
theorem os4_keeps_latch_results {s t : State} (h : exec .os4 s = .next t) : sameLatch s t ∧ resultsKeptFrom 1 s t := by
  obtain ⟨ws, out, _, hexec⟩ := exec_os4 s
  cases hexec.symm.trans h
  refine ⟨⟨cascadeStart_status s, cascadeStart_errcmd s⟩, fun j hj => ?_⟩
  rw [← cascadeStart_r s]
  exact resultsKeptFrom_setR_zero (withPushes (cascadeStart s) ws) out j hj

/-- Settles O27: the host sequence ends beside the cascade, and OS4 writes the cascade's output to R0. -/
theorem os4IsItsDecomposition : Obligations.Os4IsItsDecomposition := by
  intro s
  obtain ⟨t, ⟨_, a, r, hhost⟩, hcascade⟩ := hostCascade_spec s
  have hexec : exec .os4 s = .next (t.setR 0 (hostCascade s).r[0]) := by
    rw [show exec .os4 s = _ from execOs4_eq s, hcascade]
  have hside := sameHostSide_of_performs (performs_of_exec hexec)
  have ⟨_, _, _, ha, _⟩ := hside
  refine ⟨_, hexec, setR_r_get t 0 _ 0 (by decide), ?_, hside, os4_keeps_latch_results hexec⟩
  generalize (hostCascade s).r[0] = out at *
  rw [hhost, ← ha]
  rfl

end Sys2Proof.Machine
end

section
/-! PROOFS. DCB is one DC step, and a NaN stays in its recurrence (45_dcblock.md R261, R262). -/

namespace Sys2Proof.Machine

theorem exec_dcb (s : State) :
    exec .dcb s = .next ((dcStep (operand s 0) s).setR 0 (dcOutput (operand s 0) s.xz1 s.yz1)) := rfl

/-- DCB gives one word twice: the DC output of A0 in R0, and the same word kept in y_z1. -/
theorem after_dcb_output (s : State) :
    (after .dcb s).r[0] = dcOutput (operand s 0) s.xz1 s.yz1 ∧
      (after .dcb s).yz1 = dcOutput (operand s 0) s.xz1 s.yz1 := by
  rw [after_eq (exec_dcb s)]
  exact ⟨setR_r_get _ 0 _ 0 (by decide), rfl⟩

/-- Settles O50: the DC step reads the old state words, and R0 is written beside it, whose frame leaves only the two
words of the DC state. -/
theorem dcbTakesOneStep : Obligations.DcbTakesOneStep := by
  intro s
  obtain ⟨hr0, hyz1⟩ := after_dcb_output s
  rw [after_eq (exec_dcb s)] at hr0 hyz1
  obtain ⟨hhost, hlatch, _, hresults, _⟩ :=
    setR_zero_frame (dcStep (operand s 0) s) (dcOutput (operand s 0) s.xz1 s.yz1)
  refine ⟨_, exec_dcb s, hr0, rfl, hyz1.trans hr0.symm, hhost, hlatch, hresults, fun b => bufferKept_of_eq ?_⟩
  rw [setR_buf, dcStep_buf]

/-! ### The NaN in the recurrence -/

/-- A NaN in y_z1 goes through the product and the sum, whatever the two input words are. -/
theorem dcOutput_of_isNaN {yz1 : Word} (h : isNaN yz1 = true) (x xz1 : Word) : dcOutput x xz1 yz1 = canonicalNaN :=
  fadd_of_canonicalNaN (.inr (fmul_of_isNaN (.inr h)))

theorem after_dcb_of_isNaN {s : State} (h : isNaN s.yz1 = true) :
    (after .dcb s).r[0] = canonicalNaN ∧ (after .dcb s).yz1 = canonicalNaN := by
  obtain ⟨hr0, hyz1⟩ := after_dcb_output s
  rw [dcOutput_of_isNaN h] at hr0 hyz1
  exact ⟨hr0, hyz1⟩

/-- DCB on each input in turn keeps a NaN in y_z1. -/
theorem isNaN_yz1_dcbRun (xs : List Word) {s : State} (h : isNaN s.yz1 = true) :
    isNaN (xs.foldl (fun s x => after .dcb (withA s 0 x)) s).yz1 = true := by
  induction xs generalizing s with
  | nil => exact h
  | cons x xs ih =>
    obtain ⟨_, hyz1⟩ := after_dcb_of_isNaN (s := withA s 0 x) h
    exact ih (hyz1 ▸ isNaN_canonicalNaN)

/-- Settles O51: y_z1 is still a NaN after the run, so the next output is the canonical one. -/
theorem dcNanIsSticky : Obligations.DcNanIsSticky := fun _ xs x h =>
  (after_dcb_of_isNaN (s := withA _ 0 x) (isNaN_yz1_dcbRun xs h)).1

end Sys2Proof.Machine
end

section
/-! PROOFS. The control family: NOP and INIT, RST, CLRERR (46_control.md R270 to R273). -/

namespace Sys2Proof.Machine

theorem exec_nop (s : State) : exec .nop s = .next s := rfl

theorem exec_init (s : State) : exec .init s = .next s := rfl

theorem exec_rst (s : State) : exec .rst s = .next (signalReset s) := rfl

theorem exec_clrerr (s : State) : exec .clrerr s = .next (clearError s) := rfl

/-- Settles O16: both commands answer the state they were given. -/
theorem nopAndInitChangeNothing : Obligations.NopAndInitChangeNothing := fun s => ⟨exec_nop s, exec_init s⟩

/-- The reset of the signal state keeps every register and the latch. -/
theorem signalReset_frame (s : State) :
    sameHostSide s (signalReset s) ∧ sameLatch s (signalReset s) ∧ resultsKeptFrom 0 s (signalReset s) := by
  refine ⟨sameHostSide_of_performs (performs_of_exec (exec_rst s)), ?_, fun j _ => ?_⟩
  · exact ⟨signalReset_status s, signalReset_errcmd s⟩
  · rw [signalReset_r]

/-- The latch cleared changes nothing else. -/
theorem clearError_frame (s : State) :
    sameHostSide s (clearError s) ∧ sameDc s (clearError s) ∧ resultsKeptFrom 0 s (clearError s) ∧
      ∀ b, bufferKept s (clearError s) b := by
  refine ⟨sameHostSide_of_performs (performs_of_exec (exec_clrerr s)), ?_, fun j _ => ?_, fun b => ?_⟩
  · exact ⟨clearError_xz1 s, clearError_yz1 s⟩
  · rw [clearError_r]
  · exact bufferKept_of_eq (clearError_buf s b)

/-- Settles O17: every buffer is the empty one after the reset, whose head and slots are 0. -/
theorem rstResetsTheSignalState : Obligations.RstResetsTheSignalState := by
  intro s
  refine ⟨signalReset s, exec_rst s, fun b => ?_, signalReset_xz1 s, signalReset_yz1 s, signalReset_frame s⟩
  rw [signalReset_buf]
  exact ⟨rfl, fun _ => rfl⟩

/-- Settles O18: both words of the latch are 0, and the frame is that of the latch cleared. -/
theorem clrerrClearsTheLatch : Obligations.ClrerrClearsTheLatch := fun s =>
  ⟨clearError s, exec_clrerr s, clearError_status s, clearError_errcmd s, clearError_frame s⟩

end Sys2Proof.Machine
end

section
/-! PROOFS. Errors: what raising one writes, which command raises which, and that no command stops the block
(60_exceptions.md R280 to R285). -/

namespace Sys2Proof.Machine

/-! ### The latch -/

/-- Settles O52: each cause latches its own code. -/
theorem raisedErrorChangesOnlyTheLatch : Obligations.RaisedErrorChangesOnlyTheLatch := fun s w =>
  ⟨errorLatched_raiseError s .illegalCmd w, errorLatched_raiseError s .tapRange w,
    errorLatched_raiseError s .powDomain w⟩

/-- Settles O53: a command completes with the effect of its operations. -/
theorem everyCommandCompletes : Obligations.EveryCommandCompletes := fun i s =>
  (exec_completes i s).imp fun _ ⟨hexec, _⟩ => hexec

/-- Settles O7: the write reaches CMD, and running an ILLEGAL word latches ILLEGAL_CMD. -/
theorem stepLatchesAnIllegalCommand : Obligations.StepLatchesAnIllegalCommand := by
  intro s w rest e hc hi hdecode
  obtain ⟨_, hlatches⟩ := illegalWordsLatchIllegalCmd w
  obtain ⟨t, hrun, hlatched⟩ := hlatches ⟨e, hdecode⟩ (takeInput rest s)
  exact ⟨t, ((step_cons hc hi).trans (perform_command _ w)).trans hrun, hlatched⟩

/-! ### The error of each command -/

/-- TAP raises TAP_RANGE on an illegal delay, and leaves the latch alone on a legal one. -/
theorem latch_of_exec_tap {b : BufId} {d : Nat} {s t : State} (h : exec (.tap b d) s = .next t) :
    sameLatch s t ∨ (tapLimit s.cfg b ≤ d ∧ errorLatched s t 2 (encode (.tap b d))) := by
  rcases lt_or_ge d (tapLimit s.cfg b) with hlegal | hillegal
  · cases (exec_tap_of_lt hlegal).symm.trans h
    exact .inl (by simp [sameLatch])
  · cases (exec_tap_of_le hillegal).symm.trans h
    exact .inr ⟨hillegal, errorLatched_raiseError s .tapRange _⟩

/-- A scalar pow raises POW_DOMAIN on a base below 0, and leaves the latch alone on any other. -/
theorem latch_of_exec_scalarPow (p : Tier) {s t : State} (h : exec (powCommands p).1 s = .next t) :
    sameLatch s t ∨ ((powCommands p).1 ∈ [.powE, .powF, .powFR, .powFT] ∧ flt s.a[0] 0 = true ∧
      errorLatched s t 3 (encode (powCommands p).1)) := by
  cases hbase : negativeOperand (operand s 0) with
  | false =>
    cases (exec_scalar_of_not_negative hbase p).symm.trans h
    exact .inl (by simp [sameLatch])
  | true =>
    cases (exec_scalar_of_negative hbase p).symm.trans h
    exact .inr ⟨by cases p <;> simp [powCommands], hbase, errorLatched_raiseError s .powDomain _⟩

/-- A 4-wide pow raises POW_DOMAIN when some base is below 0, and else leaves the latch alone. -/
theorem latch_of_exec_vectorPow (p : Tier) {s t : State} (h : exec (powCommands p).2 s = .next t) :
    sameLatch s t ∨ ((powCommands p).2 ∈ [.pow4E, .pow4F, .pow4FR, .pow4FT] ∧
      (∃ l : Fin 4, flt (laneX s l) 0 = true) ∧ errorLatched s t 3 (encode (powCommands p).2)) := by
  cases hbases : anyLaneNegative s with
  | false =>
    cases (exec_vector_of_not_negative (anyLaneNegative_eq_false_iff.1 hbases) p).symm.trans h
    exact .inl (by simp [sameLatch])
  | true =>
    have hbase := anyLaneNegative_iff.1 hbases
    cases (exec_vector_of_negative hbase p).symm.trans h
    exact .inr ⟨by cases p <;> simp [powCommands], hbase, errorLatched_raiseError s .powDomain _⟩

/-- A stage command pushes and writes results, and so leaves the latch alone. -/
theorem sameLatch_of_exec_stageOf {b : BufId} {s t : State} (h : exec (stageOf b) s = .next t) : sameLatch s t := by
  cases b with
  | upX2 | upX4 =>
    cases (exec_stageOf_up (by simp [isUpBuf]) s).symm.trans h
    simp [sameLatch]
  | downX4 | downX2 =>
    cases (exec_stageOf_down (by simp [isDownBuf]) s).symm.trans h
    simp [sameLatch]

/-- Settles O54: only TAP and the pow commands have an execution-time error; what every other command but CLRERR writes
is a buffer, the DC state or a result. -/
theorem commandsRaiseOnlyTheirOwnError : Obligations.CommandsRaiseOnlyTheirOwnError := by
  intro i s t h
  cases i with
  | clrerr => exact .inr (.inl rfl)
  | tap b d => exact (latch_of_exec_tap h).imp_right fun herror => .inr (.inl ⟨b, d, rfl, herror⟩)
  | powE => exact (latch_of_exec_scalarPow .exact h).imp_right (.inr <| .inr <| .inl ·)
  | powF => exact (latch_of_exec_scalarPow .fast h).imp_right (.inr <| .inr <| .inl ·)
  | powFR => exact (latch_of_exec_scalarPow .faster h).imp_right (.inr <| .inr <| .inl ·)
  | powFT => exact (latch_of_exec_scalarPow .fastest h).imp_right (.inr <| .inr <| .inl ·)
  | pow4E => exact (latch_of_exec_vectorPow .exact h).imp_right (.inr <| .inr <| .inr ·)
  | pow4F => exact (latch_of_exec_vectorPow .fast h).imp_right (.inr <| .inr <| .inr ·)
  | pow4FR => exact (latch_of_exec_vectorPow .faster h).imp_right (.inr <| .inr <| .inr ·)
  | pow4FT => exact (latch_of_exec_vectorPow .fastest h).imp_right (.inr <| .inr <| .inr ·)
  | up2x => exact .inl (sameLatch_of_exec_stageOf (b := .upX2) h)
  | up4x => exact .inl (sameLatch_of_exec_stageOf (b := .upX4) h)
  | dn4x => exact .inl (sameLatch_of_exec_stageOf (b := .downX4) h)
  | dn2x => exact .inl (sameLatch_of_exec_stageOf (b := .downX2) h)
  | os4 =>
    obtain ⟨hlatch, _⟩ := os4_keeps_latch_results h
    exact .inl hlatch
  | nop | init | rst | push | brst | clip | clip4 | dcb =>
    cases h
    exact .inl (by simp [sameLatch])

end Sys2Proof.Machine
end
